-- ==== Sys2Proof/Word.lean ====
section
/-! DEFINITION. The byte and the register word of the FCT (00_scope.md R13), and the two codec modes. -/

namespace Sys2Proof

/-- A byte: an unsigned 8-bit value (R13). -/
abbrev Byte := BitVec 8

/-- A register value: an unsigned 32-bit value (R13). No value of the FCT is signed. -/
abbrev Word := BitVec 32

/-- The codec modes that `CMD.MODE` selects (30_encoding.md R91): 0 TEXT, 1 BINARY. -/
inductive Mode where
  | text
  | binary
deriving DecidableEq, Repr, Inhabited

end Sys2Proof
end

