-- ==== Sys2Proof/Config.lean ====
section
/-! DEFINITION. What an implementation fixes (the parameters of 00_scope.md R10), the choices the environment makes (the
accesses, link events and resets that the agents of R8 perform), and the free values: constants with no body, of which
nothing can be proved but their type. -/

namespace Sys2Proof

/-- The implementation parameters (00_scope.md R10). A machine carries its own, and no step changes them; the constraints
of R10 are `Params.wf` in WellFormed.lean. -/
structure Params where
  /-- `CAP`: the capacity in bytes of each of PB, TXB, RXB and DB. -/
  cap : Nat
  /-- `MAX_ATTEMPTS`: frame writes per transaction, the first included. -/
  maxAttempts : Nat
  startByte : Byte
  endByte : Byte
  escByte : Byte
  rptByte : Byte
  ackByte : Byte
  /-- `ESC_XOR`. -/
  escXor : Byte
  /-- `RPT_BIAS`: what is subtracted from a repeat unit's count byte (30_encoding.md R104). -/
  rptBias : Nat
  /-- `PREFIX_MAX`, outside the FCT: read only by `Params.servesFlash`. -/
  prefixMax : Nat
  /-- `MAX_CHUNK`, outside the FCT: read only by `Params.servesFlash`. -/
  maxChunk : Nat
  /-- `FCT_BASE`: where the platform places the register port (20_memory.md R74). No step reads it. -/
  fctBase : Nat
deriving DecidableEq, Repr

/-- The configuration requirement of R11, which the FCT does not enforce. -/
def Params.servesFlash (p : Params) : Bool := decide (p.prefixMax + 2 * p.maxChunk + 4 ≤ p.cap)

/-- One access of the host on its two ports (20_memory.md R72, R73). Offsets, buffer ids and indices are plain numbers:
the ports answer every one of them. -/
inductive HostAccess where
  | regRead (off : Nat)
  | regWrite (off : Nat) (v : Word)
  | bufRead (id i : Nat)
  | bufWrite (id i : Nat) (b : Byte)
deriving DecidableEq, Repr, Inhabited

/-- The Link's answer to one `LinkSend` (42_transport.md R176). After TXERR any prefix may have gone out: `sent` is how
many bytes the Link transmitted, its own free choice, which no FCT step reads. -/
inductive TxOutcome where
  | txok
  | txerr (sent : Nat)
deriving DecidableEq, Repr, Inhabited

/-- One receive event of the Link (42_transport.md R178). A chunk has one or more bytes: `rx c0 c` delivers `c0 :: c`. -/
inductive RxEvent where
  | rx (c0 : Byte) (c : List Byte)
  | rxTimeout
  | rxError
deriving DecidableEq, Repr, Inhabited

/-- One step of one agent (00_scope.md R8): a host access, a step of the FCT's transport state machine (with the answer the
Link gives if that step is a SEND), a receive event of the Link, or the platform's RESET (70_reset_and_hazards.md R260). -/
inductive Event where
  | host (a : HostAccess)
  | fct (o : TxOutcome)
  | link (e : RxEvent)
  | reset
deriving DecidableEq, Repr, Inhabited

namespace Config

/-- A FREE VALUE (log 1): how far `CAP` lies above its least value 4. Its type is R10's range `4 <= CAP <= 2^31`. -/
opaque capSlack : Fin 2147483645

/-- `CAP` (R10, OPEN): any number from 4 to 2^31. -/
def cap : Nat := 4 + capSlack.val

/-- A FREE VALUE (log 3): `PREFIX_MAX` (R10, OPEN). -/
opaque prefixMax : Nat

/-- A FREE VALUE (log 3): `FCT_BASE` (20_memory.md R74, OPEN). -/
opaque fctBase : Nat

/-- A FREE VALUE (log 5): the event the environment chooses when none is pending. Applied to a counter of State, so that
two choices are unrelated. -/
opaque freeEvent : Nat → Event

/-- A FREE VALUE (log 9): what a read of a buffer id that does not exist returns. Applied to the same counter, so
a fresh byte on each read. -/
opaque freeByte : Nat → Byte

/-- The parameters of the machine after power-on: R10's values, with the OPEN ones free. -/
def params : Params where
  cap := cap
  maxAttempts := 5
  startByte := 0x24#8
  endByte := 0x23#8
  escByte := 0x7D#8
  rptByte := 0x2A#8
  ackByte := 0x2B#8
  escXor := 0x20#8
  rptBias := 29
  prefixMax := prefixMax
  maxChunk := 1024
  fctBase := fctBase

end Config
end Sys2Proof
end

