-- ==== Sys2Proof/Syntax.lean ====
section
/-! DEFINITION. The commands of the FCT: one constructor per row of spec/opcode_table.json. -/

namespace Sys2Proof

/-- The commands a CMD word selects (30_encoding.md R92). A command has no operand field: its operands are the registers
and buffers of R93. Where MODE is ignored (CHECKSUM, VERIFY, CLEAR) the constructor keeps the ignored bit as it was
written, so that a command and its word determine each other (log 12). -/
inductive Instr where
  /-- ENCODE.T (40_codec.md R122). -/
  | encodeT
  /-- ENCODE.B (R126). -/
  | encodeB
  /-- DECODE.T (R130). -/
  | decodeT
  /-- DECODE.B (R136). -/
  | decodeB
  /-- CHECKSUM (41_checksum.md R154). -/
  | checksum (ignored : Mode)
  /-- VERIFY (R158). -/
  | verify (ignored : Mode)
  /-- SENDRECV.T (42_transport.md R172). -/
  | sendrecvT
  /-- SENDRECV.B (R172). -/
  | sendrecvB
  /-- CLEAR (43_control.md R215). -/
  | clear (ignored : Mode)
deriving DecidableEq, Repr, Inhabited

end Sys2Proof
end

