-- ==== Sys2Proof/WellFormed.lean ====
section
/-! DEFINITION. Well-formedness: the constraints of 00_scope.md R10 on the parameters, one named check each, and the
(empty) constraint on a command. -/

namespace Sys2Proof

/-- ASCII hex digits (R10): 0x30 to 0x39, 0x41 to 0x46, 0x61 to 0x66. -/
def isHexDigit (b : Byte) : Bool :=
  (0x30 ≤ b.toNat && b.toNat ≤ 0x39) || (0x41 ≤ b.toNat && b.toNat ≤ 0x46) || (0x61 ≤ b.toNat && b.toNat ≤ 0x66)

namespace Params

/-- The five special bytes. -/
def specials (p : Params) : List Byte := [p.startByte, p.endByte, p.escByte, p.rptByte, p.ackByte]

/-- `4 <= CAP <= 2^31`. -/
def capInRange (p : Params) : Bool := 4 ≤ p.cap && p.cap ≤ 2 ^ 31

/-- `MAX_ATTEMPTS >= 1`, and the number fits the 32-bit registers MAXATT and ATTEMPTS that show it (log 4). -/
def attemptsInRange (p : Params) : Bool := 1 ≤ p.maxAttempts && p.maxAttempts < 2 ^ 32

/-- The five special bytes are pairwise distinct. -/
def specialsDistinct (p : Params) : Bool := decide p.specials.Nodup

/-- None of the five is an ASCII hex digit. -/
def specialsNotHex (p : Params) : Bool := p.specials.all fun b => !isHexDigit b

/-- The constraints of R10. -/
def wf (p : Params) : Bool :=
  p.capInRange && p.attemptsInRange && p.specialsDistinct && p.specialsNotHex

end Params

/-- Every command is well formed: the CMD word has no field a term could fill wrongly (R91). -/
def Instr.wf : Instr → Bool
  | .encodeT => true
  | .encodeB => true
  | .decodeT => true
  | .decodeB => true
  | .checksum _ => true
  | .verify _ => true
  | .sendrecvT => true
  | .sendrecvB => true
  | .clear _ => true

end Sys2Proof
end

