-- ==== Sys2Proof/Decode.lean ====
section
/-! DEFINITION. The CMD word: the decoder, total on every 32-bit word and naming why a word is reserved, and the encoder
(30_encoding.md R90 to R94). The register port moves whole words (20_memory.md R77), so a word has no byte order. -/

namespace Sys2Proof

/-- Why a CMD word is reserved (R94). -/
inductive Reserved where
  /-- One of bits 31:5 is set. -/
  | highBits
  /-- OP is 0x0 or 0x7 to 0xF. -/
  | opcode (op : BitVec 4)
deriving DecidableEq, Repr

/-- `CMD.OP`, bits 3:0 (R91). -/
def cmdOp (w : Word) : BitVec 4 := w.extractLsb' 0 4

/-- Bits 31:5, which must be zero (R91). -/
def cmdHigh (w : Word) : BitVec 27 := w.extractLsb' 5 27

/-- `CMD.MODE`, bit 4 (R91): 0 TEXT, 1 BINARY. -/
def cmdMode (w : Word) : Mode := if w.getLsbD 4 then .binary else .text

/-- The command that OP and MODE select (R92). -/
def commandOf (op : BitVec 4) (m : Mode) : Except Reserved Instr :=
  match op.toNat, m with
  | 1, .text => .ok .encodeT
  | 1, .binary => .ok .encodeB
  | 2, .text => .ok .decodeT
  | 2, .binary => .ok .decodeB
  | 3, m => .ok (.checksum m)
  | 4, m => .ok (.verify m)
  | 5, .text => .ok .sendrecvT
  | 5, .binary => .ok .sendrecvB
  | 6, m => .ok (.clear m)
  | _, _ => .error (.opcode op)

/-- The command a CMD word encodes, or why it is reserved (R92, R94). -/
def decodeCmd (w : Word) : Except Reserved Instr :=
  if cmdHigh w = 0 then commandOf (cmdOp w) (cmdMode w) else .error .highBits

/-- MODE as the bit it is in the word. -/
def Mode.bit : Mode → BitVec 1
  | .text => 0
  | .binary => 1

/-- A CMD word laid out from its fields (R91). -/
def cmdWord (op : BitVec 4) (m : Mode) : Word := (0#27 ++ m.bit) ++ op

/-- The CMD word of a command (R92). -/
def encode : Instr → Word
  | .encodeT => cmdWord 1 .text
  | .encodeB => cmdWord 1 .binary
  | .decodeT => cmdWord 2 .text
  | .decodeB => cmdWord 2 .binary
  | .checksum m => cmdWord 3 m
  | .verify m => cmdWord 4 m
  | .sendrecvT => cmdWord 5 .text
  | .sendrecvB => cmdWord 5 .binary
  | .clear m => cmdWord 6 m

/-- The CMD word whose low `nbits` bits are those of `w`, every other bit 0. -/
def tableWord (nbits w : Nat) : Word := BitVec.ofNat 32 (w % 2 ^ nbits)

/-- What the decoder reads from an instruction numbered as spec/opcode_table.json numbers it. -/
def decodeTableWord (nbits w : Nat) : Option Instr :=
  match decodeCmd (tableWord nbits w) with
  | .ok i => some i
  | .error _ => none

end Sys2Proof
end

