-- ==== Sys2Proof/Machine/State.lean ====
section
/-! DEFINITION. The state of the FCT and of the agents around it, as plain data; the reasons a step can stop; the state
after reset (10_state.md). -/

namespace Sys2Proof.Machine

/-- A byte buffer (20_memory.md R70, R71): the bytes written since reset, as (index, byte) pairs with the indices strictly
rising. A listed index is a WRITTEN byte (10_state.md R55); an unlisted one is unwritten and reads as no value. -/
abbrev Memory := List Host.Cell

/-- The transport state machine's states (`STATUS.STATE`, 10_state.md R46). -/
inductive Phase where
  | idle
  | send
  | recv
  | check
  | decode
deriving DecidableEq, Repr, Inhabited

/-- The error codes, the complete list (60_exceptions.md R230). -/
inductive ErrCode where
  | none
  | txIoError
  | rxIoError
  | txOverflow
  | rxOverflow
  | ackNotObtained
  | replyTimeout
  | badFrame
  | checksumMismatch
  | danglingEscape
  | danglingRepeat
  | badRepeatCount
  | decodeOverflow
  | badCommand
  | badLength
deriving DecidableEq, Repr, Inhabited

/-- The error classes (60_exceptions.md R231). -/
inductive ErrClass where
  | transport
  | protocol
  | request
deriving DecidableEq, Repr

/-- The sixteen registers of the register map (10_state.md R62). -/
inductive Reg where
  | ctrl
  | cmd
  | status
  | errcode
  | plen
  | txLen
  | rxLen
  | dbLen
  | rplOff
  | rplLen
  | txSum
  | rxSum
  | rxField
  | attempts
  | capreg
  | maxatt
deriving DecidableEq, Repr

/-- The four buffers of the buffer port (20_memory.md R70). -/
inductive BufId where
  | pb
  | txb
  | rxb
  | db
deriving DecidableEq, Repr

/-- The reasons a step stops the machine. -/
inductive Fault where
  /-- `fault UNINIT` (10_state.md R55): a command, a transport step or a BufRead reads a buffer byte nothing has written.
  SAFE: the spec itself stops here, and says nothing of the byte. -/
  | uninit
  /-- A DECODE step of the transport finds RX_LEN = 0, where `Decode` (40_codec.md R129) is given only for one byte or
  more. No run reaches it (log 11). SAFE. -/
  | emptyReply
deriving DecidableEq, Repr

/-- The reasons the model gives a command no meaning. -/
inductive Refusal where
  /-- Raised by `exec` for a command that has no meaning yet; no arm of this model does. SAFE. -/
  | notModelled (mnemonic : String)
deriving DecidableEq, Repr

/-- The machine: the parameters, the FCT's architectural state (10_state.md R30), the Link's transmit record
(42_transport.md R177), and the model's own account of the environment. -/
@[ext]
structure State where
  /-- The implementation parameters (00_scope.md R10), read at CAPREG and MAXATT (R57); no step changes them. -/
  cfg : Params
  /-- PB, the payload buffer (R32). -/
  pb : Memory
  /-- TXB, the transmit buffer (R33). -/
  txb : Memory
  /-- RXB, the receive buffer (R34). -/
  rxb : Memory
  /-- DB, the decoded buffer (R35). -/
  db : Memory
  /-- `CTRL.VERIFY_EN` (R36). -/
  verifyEn : Bool
  /-- `CTRL.RLE_EN` (R36). -/
  rleEn : Bool
  /-- `CTRL.IRQ_EN` (R36). -/
  irqEn : Bool
  /-- `STATUS.BUSY` (R39). -/
  busy : Bool
  /-- `STATUS.DONE` (R40). -/
  done : Bool
  /-- `STATUS.ERR` (R41). -/
  err : Bool
  /-- `STATUS.ACK_SEEN` (R42). -/
  ackSeen : Bool
  /-- `STATUS.CHK_OK` (R43). -/
  chkOk : Bool
  /-- `STATUS.HOST_VIOL` (R44). -/
  hostViol : Bool
  /-- `STATUS.RX_COMPLETE` (R45). -/
  rxComplete : Bool
  /-- `STATUS.STATE` (R46). -/
  state : Phase
  /-- ERRCODE (R47). -/
  errcode : ErrCode
  /-- PLEN (R48). -/
  plen : Word
  /-- TX_LEN (R49). -/
  txLen : Word
  /-- RX_LEN (R50). -/
  rxLen : Word
  /-- DB_LEN (R51). -/
  dbLen : Word
  /-- RPL_OFF (R52). -/
  rplOff : Word
  /-- RPL_LEN (R52). -/
  rplLen : Word
  /-- TX_SUM (R53). -/
  txSum : Word
  /-- RX_SUM (R54). -/
  rxSum : Word
  /-- RX_FIELD (R54). -/
  rxField : Word
  /-- ATTEMPTS (R56). -/
  attempts : Word
  /-- XMODE, hidden (R58). -/
  xmode : Mode
  /-- TxLog, the Link's record of every LinkSend, oldest first (42_transport.md R177). -/
  txLog : List (List Byte × TxOutcome)
  /-- The model's own (log 5): the events the environment has chosen, the next one first. -/
  pending : List Event
  /-- The model's own (log 5, log 9): how many free values have been taken. -/
  draws : Nat
  /-- The model's own (log 8): what the host port returned at the host's last read. -/
  readData : Word
deriving DecidableEq, Repr

/-- The machine after reset with parameters `p` (10_state.md R62, 70_reset_and_hazards.md R260): VERIFY_EN is 1, every
other register is 0, the transport is IDLE, every buffer byte is unwritten. -/
def State.resetWith (p : Params) : State where
  cfg := p
  pb := []
  txb := []
  rxb := []
  db := []
  verifyEn := true
  rleEn := false
  irqEn := false
  busy := false
  done := false
  err := false
  ackSeen := false
  chkOk := false
  hostViol := false
  rxComplete := false
  state := .idle
  errcode := .none
  plen := 0
  txLen := 0
  rxLen := 0
  dbLen := 0
  rplOff := 0
  rplLen := 0
  txSum := 0
  rxSum := 0
  rxField := 0
  attempts := 0
  xmode := .text
  txLog := []
  pending := []
  draws := 0
  readData := 0

/-- The machine right after power-on reset (R261): the parameters of R10. -/
def State.reset : State := State.resetWith Config.params

end Sys2Proof.Machine
end

