-- ==== Sys2Proof/Machine/Ops.lean ====
section
/-! DEFINITION. The named operations over buffers and registers, and the completion of a command: `finish`, the FCT's
counterpart of taking an exception, with the command start that ends it (60_exceptions.md R233 to R236). -/

namespace Sys2Proof.Machine

/-- What a step answers. -/
abbrev Result := Host.Outcome State Fault Refusal

namespace Memory

/-- The canonical form: indices strictly rising. -/
abbrev wf (m : Memory) : Prop := m.Pairwise fun x y => x.1 < y.1

/-- Every written byte lies below `cap` (10_state.md R32 to R35). -/
abbrev within (m : Memory) (cap : Nat) : Prop := ∀ c ∈ m, c.1 < cap

/-- One byte, or no value where nothing has been written (10_state.md R55). -/
def read : Memory → Nat → Option Byte
  | [], _ => none
  | (k, v) :: m, a => if a = k then some v else read m a

/-- Write one byte; it becomes written (R55). -/
def write : Memory → Nat → Byte → Memory
  | [], a, b => [(a, b)]
  | (k, v) :: m, a, b =>
    if a < k then (a, b) :: (k, v) :: m
    else if a = k then (a, b) :: m
    else (k, v) :: write m a b

/-- `MemRead(buf, i, n)` (00_scope.md R16): `n` bytes from index `i`, or no value if one of them is unwritten. -/
def readRange (m : Memory) (i : Nat) : Nat → Option (List Byte)
  | 0 => some []
  | n + 1 => (read m i).bind fun b => (readRange m (i + 1) n).map fun bs => b :: bs

/-- `MemWrite(buf, i, s)` (R16). -/
def writeRange : Memory → Nat → List Byte → Memory
  | m, _, [] => m
  | m, i, b :: bs => writeRange (write m i b) (i + 1) bs

end Memory

/-- `zext_32` (00_scope.md R13). -/
def zext32 (b : Byte) : Word := b.setWidth 32

/-- A length, as the register that holds it shows it. -/
def lengthWord (n : Nat) : Word := BitVec.ofNat 32 n

/-- The start of a command other than CLEAR (60_exceptions.md R233). -/
def beginCommand (s : State) : State := { s with done := false, err := false, errcode := .none }

/-- `finish(code)` (60_exceptions.md R234): the end of a command, whether it failed or not. -/
def finish (code : ErrCode) (s : State) : State :=
  { s with busy := false, state := .idle, done := true, errcode := code, err := decide (code ≠ .none) }

/-- `raise code` in a SENDRECV (42_transport.md R189): no reply is offered. -/
def failTransaction (code : ErrCode) (s : State) : State :=
  finish code { s with dbLen := 0, rplOff := 0, rplLen := 0, chkOk := false }

/-- What DECODE, VERIFY and SENDRECV invalidate at their start (10_state.md R52, R54, R38). -/
def clearView (s : State) : State :=
  { s with chkOk := false, rplOff := 0, rplLen := 0, rxSum := 0, rxField := 0 }

/-- A refused host access (10_state.md R44). -/
def refuseHost (s : State) : State := { s with hostViol := true }

/-- The busy rule (43_control.md R212): a write that needs an idle FCT is refused while BUSY = 1. -/
def whenIdle (s : State) (k : Result) : Result := if s.busy then .next (refuseHost s) else k

/-- The encoded frame goes to TXB with its length and checksum (40_codec.md R122). -/
def storeFrame (frame : List Byte) (sum : Byte) (s : State) : State :=
  { s with txb := Memory.writeRange s.txb 0 frame, txLen := lengthWord frame.length, txSum := zext32 sum }

/-- The checksum alone goes to TX_SUM (41_checksum.md R154). -/
def storeSum (sum : Byte) (s : State) : State := { s with txSum := zext32 sum }

/-- A checksum comparison has matched (10_state.md R43). -/
def markMatch (s : State) : State := { s with chkOk := true }

/-- `state <- S` (00_scope.md R16). -/
def goTo (p : Phase) (s : State) : State := { s with state := p }

/-- A transaction is in progress (10_state.md R39), in SEND (42_transport.md R173). -/
def enterSend (s : State) : State := { s with busy := true, state := .send }

/-- The environment's account after one of its pending events is taken (log 5). -/
def withPending (es : List Event) (s : State) : State := { s with pending := es }

/-- One more free value is taken (log 5, log 9). -/
def countDraw (s : State) : State := { s with draws := s.draws + 1 }

/-- The decoded bytes go to DB with their length (40_codec.md R130, 42_transport.md R185). -/
def storeDecoded (out : List Byte) (s : State) : State :=
  { s with db := Memory.writeRange s.db 0 out, dbLen := lengthWord out.length }

end Sys2Proof.Machine
end

