-- ==== Sys2Proof/Machine/Flags.lean ====
section
/-! DEFINITION. The words the status, control and error registers read as, the error codes and classes, and the interrupt
output (10_state.md R36 to R47, 60_exceptions.md R230, R231, R240). -/

namespace Sys2Proof.Machine

/-- The state codes of `STATUS.STATE` (10_state.md R46). -/
def Phase.code : Phase → Nat
  | .idle => 0
  | .send => 1
  | .recv => 2
  | .check => 3
  | .decode => 4

/-- The error codes (60_exceptions.md R230). -/
def ErrCode.code : ErrCode → Byte
  | .none => 0x00#8
  | .txIoError => 0x10#8
  | .rxIoError => 0x11#8
  | .txOverflow => 0x12#8
  | .rxOverflow => 0x13#8
  | .ackNotObtained => 0x14#8
  | .replyTimeout => 0x15#8
  | .badFrame => 0x20#8
  | .checksumMismatch => 0x21#8
  | .danglingEscape => 0x22#8
  | .danglingRepeat => 0x23#8
  | .badRepeatCount => 0x24#8
  | .decodeOverflow => 0x25#8
  | .badCommand => 0x30#8
  | .badLength => 0x31#8

/-- The class that `ERRCODE[7:4]` names (R231). -/
def ErrCode.errClass (e : ErrCode) : Option ErrClass :=
  match e.code.toNat / 16 with
  | 1 => some .transport
  | 2 => some .protocol
  | 3 => some .request
  | _ => Option.none

/-- A flag at bit `n` of a register word. -/
def flagAt (b : Bool) (n : Nat) : Word := if b then BitVec.ofNat 32 (2 ^ n) else 0

/-- What CTRL reads as (R36). -/
def ctrlWord (s : State) : Word := flagAt s.verifyEn 0 ||| flagAt s.rleEn 1 ||| flagAt s.irqEn 2

/-- What STATUS reads as (R38): reserved bits read 0. -/
def statusWord (s : State) : Word :=
  flagAt s.busy 0 ||| flagAt s.done 1 ||| flagAt s.err 2 ||| flagAt s.ackSeen 3 ||| flagAt s.chkOk 4 |||
    flagAt s.hostViol 5 ||| flagAt s.rxComplete 6 ||| BitVec.ofNat 32 (s.state.code * 2 ^ 8)

/-- The interrupt output (60_exceptions.md R240), a level. -/
def irq (s : State) : Bool := s.irqEn && s.done

end Sys2Proof.Machine
end

