-- ==== Sys2Proof/Machine/Operands.lean ====
section
/-! DEFINITION. The operand forms: the register map, the buffer ids, and the implicit operands a command reads
(10_state.md R62, 20_memory.md R70 to R73, 30_encoding.md R93, 40_codec.md R121). -/

namespace Sys2Proof.Machine

/-- The register map (10_state.md R62). -/
def Reg.offset : Reg → Nat
  | .ctrl => 0x00
  | .cmd => 0x04
  | .status => 0x08
  | .errcode => 0x0C
  | .plen => 0x10
  | .txLen => 0x14
  | .rxLen => 0x18
  | .dbLen => 0x1C
  | .rplOff => 0x20
  | .rplLen => 0x24
  | .txSum => 0x28
  | .rxSum => 0x2C
  | .rxField => 0x30
  | .attempts => 0x34
  | .capreg => 0x38
  | .maxatt => 0x3C

/-- The sixteen registers in the order of the map. -/
def allRegs : List Reg :=
  [.ctrl, .cmd, .status, .errcode, .plen, .txLen, .rxLen, .dbLen, .rplOff, .rplLen, .txSum, .rxSum, .rxField, .attempts,
    .capreg, .maxatt]

/-- The register at an offset; an unmapped or misaligned offset has none (20_memory.md R72, R78). -/
def regAt (off : Nat) : Option Reg := allRegs.find? fun r => r.offset == off

/-- What a register reads as (R36 to R57): CMD is write-only and reads 0, CAPREG and MAXATT are hard-wired. -/
def readReg : Reg → State → Word
  | .ctrl, s => ctrlWord s
  | .cmd, _ => 0
  | .status, s => statusWord s
  | .errcode, s => zext32 s.errcode.code
  | .plen, s => s.plen
  | .txLen, s => s.txLen
  | .rxLen, s => s.rxLen
  | .dbLen, s => s.dbLen
  | .rplOff, s => s.rplOff
  | .rplLen, s => s.rplLen
  | .txSum, s => s.txSum
  | .rxSum, s => s.rxSum
  | .rxField, s => s.rxField
  | .attempts, s => s.attempts
  | .capreg, s => BitVec.ofNat 32 s.cfg.cap
  | .maxatt, s => BitVec.ofNat 32 s.cfg.maxAttempts

/-- Where the platform places a register (20_memory.md R74): no access depends on it. -/
def Reg.address (p : Params) (r : Reg) : Nat := p.fctBase + r.offset

/-- The value `RegRead(off)` returns (20_memory.md R72). -/
def regReadValue (off : Nat) (s : State) : Word :=
  match regAt off with
  | some r => readReg r s
  | none => 0

/-- The buffer ids (20_memory.md R70). -/
def BufId.id : BufId → Nat
  | .pb => 0
  | .txb => 1
  | .rxb => 2
  | .db => 3

/-- The buffer an id selects; ids above 3 select none (R70, 43_control.md R214). -/
def bufAt (id : Nat) : Option BufId :=
  match id with
  | 0 => some .pb
  | 1 => some .txb
  | 2 => some .rxb
  | 3 => some .db
  | _ => none

/-- A buffer's bytes. -/
def buffer : BufId → State → Memory
  | .pb, s => s.pb
  | .txb, s => s.txb
  | .rxb, s => s.rxb
  | .db, s => s.db

/-- The length check of 40_codec.md R121: PLEN is neither 0 nor greater than CAP. -/
def lengthOk (s : State) : Bool := s.plen.toNat != 0 && decide (s.plen.toNat ≤ s.cfg.cap)

/-- The logical payload `PB[1..PLEN-1]` (40_codec.md R120), if every byte is written. -/
def payloadBytes (s : State) : Option (List Byte) := Memory.readRange s.pb 1 (s.plen.toNat - 1)

/-- `PB[0..PLEN-1]` for PLEN of 1 or more: its first byte and the rest, if every byte is written. -/
def requestBytes (s : State) : Option (Byte × List Byte) :=
  (Memory.read s.pb 0).bind fun b0 => (payloadBytes s).map fun bs => (b0, bs)

/-- `TXB[0..TX_LEN-1]` (42_transport.md R180). -/
def frameBytes (s : State) : Option (List Byte) := Memory.readRange s.txb 0 s.txLen.toNat

/-- `RXB[0..RX_LEN-1]` (R185). -/
def replyBytes (s : State) : Option (List Byte) := Memory.readRange s.rxb 0 s.rxLen.toNat

/-- `DB[0..DB_LEN-1]` (41_checksum.md R158). -/
def decodedBytes (s : State) : Option (List Byte) := Memory.readRange s.db 0 s.dbLen.toNat

/-- Read an operand of written bytes, or `fault UNINIT` (10_state.md R55). -/
def withBytes {α : Type} (bytes : Option α) (k : α → Result) : Result :=
  match bytes with
  | some bs => k bs
  | none => .fault .uninit

/-- The operand of ENCODE, DECODE and SENDRECV (40_codec.md R121): the length check, with `bad` where it fails, then
`PB[0..PLEN-1]`. -/
def withRequest (s : State) (bad : Result) (k : Byte → List Byte → Result) : Result :=
  if lengthOk s then withBytes (requestBytes s) fun r => k r.1 r.2 else bad

end Sys2Proof.Machine
end

