-- ==== Sys2Proof/Machine/Wire.lean ====
section
/-! DEFINITION. The pure functions of the wire: the escape set, checksum and hex digits, `Encode`, `Decode`, `Field`,
`View` and `Match` (30_encoding.md R100 to R106, 40_codec.md R125 and R129, 41_checksum.md R150 to R159). -/

namespace Sys2Proof.Machine

/-- `ESCSET` (00_scope.md R17). -/
def inEscSet (p : Params) (b : Byte) : Bool := b == p.escByte || b == p.startByte || b == p.endByte

/-- `Checksum(s)` (41_checksum.md R150): the exact sum, then mod 256. -/
def checksum (bs : List Byte) : Byte := BitVec.ofNat 8 (bs.map BitVec.toNat).sum

/-- `HEX(v)` (30_encoding.md R106). -/
def hexDigit (v : BitVec 4) : Byte :=
  if v.toNat < 10 then BitVec.ofNat 8 (0x30 + v.toNat) else BitVec.ofNat 8 (0x61 + (v.toNat - 10))

/-- The trailer `END_BYTE, HEX(s[7:4]), HEX(s[3:0])` (R100, R106). -/
def trailer (p : Params) (sum : Byte) : List Byte :=
  [p.endByte, hexDigit (sum.extractLsb' 4 4), hexDigit (sum.extractLsb' 0 4)]

/-- One logical byte as the encoder writes it (R101 in TEXT, R103 in BINARY). -/
def encodeUnit (p : Params) (mode : Mode) (b : Byte) : List Byte :=
  match mode with
  | .text => if inEscSet p b then [p.escByte, b ^^^ p.escXor] else [b]
  | .binary => [b]

/-- The body of a frame (R101, R103). -/
def encodeBody (p : Params) (mode : Mode) (payload : List Byte) : List Byte :=
  payload.flatMap (encodeUnit p mode)

/-- `Encode(mode, P)` for `P = b0 :: payload` (40_codec.md R125): the frame. Its checksum is `checksum payload`, over the
logical bytes (90_conflicts.md C1). -/
def encodeFrame (p : Params) (mode : Mode) (b0 : Byte) (payload : List Byte) : List Byte :=
  b0 :: (encodeBody p mode payload ++ trailer p (checksum payload))

/-- The overflow test after each unit of `Decode` (40_codec.md R135). -/
def fitsOr (p : Params) (out : List Byte) (k : Except ErrCode (List Byte)) : Except ErrCode (List Byte) :=
  if p.cap < out.length then .error .decodeOverflow else k

/-- The loop of `Decode` (R129): `out` is the output so far and `prev` its last byte. -/
def decodeLoop (p : Params) (mode : Mode) (rle : Bool) : List Byte → Byte → List Byte → Except ErrCode (List Byte)
  | out, _, [] => .ok out
  | out, _, [c] =>
    if mode = .text ∧ c = p.escByte then .error .danglingEscape
    else if mode = .text ∧ rle = true ∧ c = p.rptByte then .error .danglingRepeat
    else fitsOr p (out ++ [c]) (.ok (out ++ [c]))
  | out, prev, c :: c2 :: rest =>
    if mode = .text ∧ c = p.escByte then
      fitsOr p (out ++ [c2 ^^^ p.escXor]) (decodeLoop p mode rle (out ++ [c2 ^^^ p.escXor]) (c2 ^^^ p.escXor) rest)
    else if mode = .text ∧ rle = true ∧ c = p.rptByte then
      if c2.toNat < p.rptBias then .error .badRepeatCount
      else
        fitsOr p (out ++ List.replicate (c2.toNat - p.rptBias) prev)
          (decodeLoop p mode rle (out ++ List.replicate (c2.toNat - p.rptBias) prev) prev rest)
    else fitsOr p (out ++ [c]) (decodeLoop p mode rle (out ++ [c]) c (c2 :: rest))

/-- `Decode(mode, rle, W)` for `W = w0 :: rest` (40_codec.md R129): byte 0 is copied verbatim. -/
def decodeWire (p : Params) (mode : Mode) (rle : Bool) (w0 : Byte) (rest : List Byte) : Except ErrCode (List Byte) :=
  decodeLoop p mode rle [w0] w0 rest

/-- `HEXVAL(c)` (41_checksum.md R152). -/
def hexVal (c : Byte) : Option Nat :=
  if 0x30 ≤ c.toNat ∧ c.toNat ≤ 0x39 then some (c.toNat - 0x30)
  else if 0x61 ≤ c.toNat ∧ c.toNat ≤ 0x66 then some (c.toNat - 0x61 + 10)
  else if 0x41 ≤ c.toNat ∧ c.toNat ≤ 0x46 then some (c.toNat - 0x41 + 10)
  else none

/-- `Field(d1, d0)` (R152): the value where both digits are valid. -/
def field (d1 d0 : Byte) : Option Byte :=
  (hexVal d1).bind fun h => (hexVal d0).map fun l => BitVec.ofNat 8 (16 * h + l)

/-- What RX_FIELD shows of the parsed digits (10_state.md R54): bit 8 is VALID. -/
def fieldWord : Option Byte → Word
  | some fv => 0x100#32 + zext32 fv
  | none => 0

/-- `Match(valid, fv, sumv)` (41_checksum.md R159). -/
def digitsMatch (f : Option Byte) (sum : Byte) : Bool := f == some sum

/-- The reply view (R156): where the payload lies, its checksum, and the parsed digits. -/
structure ReplyView where
  off : Nat
  len : Nat
  sum : Byte
  field : Option Byte
deriving DecidableEq, Repr

/-- The least index that holds `b`. -/
def firstIndex (b : Byte) : List Byte → Option Nat
  | [] => none
  | c :: cs => if c = b then some 0 else (firstIndex b cs).map (· + 1)

/-- The bytes `D[off .. off+len-1]`. -/
def slice (d : List Byte) (off len : Nat) : List Byte := (d.drop off).take len

/-- `View(D)` (R156); `none` is its only error, BAD_FRAME. -/
def view (p : Params) (d : List Byte) : Option ReplyView :=
  match firstIndex p.startByte d with
  | none => none
  | some k =>
    if d.length < 3 ∨ d[d.length - 3]? ≠ some p.endByte ∨ d.length - 3 < k + 1 then none
    else
      let len := d.length - 4 - k
      some
        { off := k + 1
          len := len
          sum := checksum (slice d (k + 1) len)
          field := field (d.getD (d.length - 2) 0) (d.getD (d.length - 1) 0) }

/-- The registers that show the view's checksum and digits (R158, 42_transport.md R186). -/
def showSums (v : ReplyView) (s : State) : State :=
  { s with rxSum := zext32 v.sum, rxField := fieldWord v.field }

/-- The registers that show where the view's payload lies (R158, R186). -/
def showView (v : ReplyView) (s : State) : State :=
  { s with rplOff := lengthWord v.off, rplLen := lengthWord v.len }

end Sys2Proof.Machine
end

