-- ==== Sys2Proof/Machine/Checksum.lean ====
section
/-! DEFINITION. The commands CHECKSUM and VERIFY (41_checksum.md). -/

namespace Sys2Proof.Machine

/-- CHECKSUM (41_checksum.md R154): the length check, then `PB[1..PLEN-1]`; PB[0] is not read. MODE is ignored. -/
def execChecksum (_ignored : Mode) (s0 : State) : Result :=
  whenIdle s0 <|
    let s := beginCommand s0
    if lengthOk s then
      withBytes (payloadBytes s) fun payload => .next (finish .none (storeSum (checksum payload) s))
    else .next (finish .badLength s)

/-- VERIFY (R158): the view of DB and the comparison, whatever VERIFY_EN is (92 D40). MODE is ignored. -/
def execVerify (_ignored : Mode) (s0 : State) : Result :=
  whenIdle s0 <|
    let s := clearView (beginCommand s0)
    withBytes (decodedBytes s) fun d =>
      match view s.cfg d with
      | none => .next (finish .badFrame s)
      | some v =>
        let s := showSums v s
        if digitsMatch v.field v.sum then .next (finish .none (markMatch (showView v s)))
        else .next (finish .checksumMismatch s)

end Sys2Proof.Machine
end

