-- ==== Sys2Proof/Machine/Codec.lean ====
section
/-! DEFINITION. The codec commands ENCODE.T, ENCODE.B, DECODE.T and DECODE.B (40_codec.md). -/

namespace Sys2Proof.Machine

/-- The encode part that ENCODE and SENDRECV share (40_codec.md R122, R124): the overflow test comes before any write. -/
def encodeInto (mode : Mode) (b0 : Byte) (payload : List Byte) (s : State) (overflow : Result) (k : State → Result) :
    Result :=
  let frame := encodeFrame s.cfg mode b0 payload
  if s.cfg.cap < frame.length then overflow else k (storeFrame frame (checksum payload) s)

/-- ENCODE in either mode (R122, R126). -/
def encodeCommand (mode : Mode) (s0 : State) : Result :=
  whenIdle s0 <|
    let s := beginCommand s0
    withRequest s (.next (finish .badLength s)) fun b0 payload =>
      encodeInto mode b0 payload s (.next (finish .txOverflow s)) fun s => .next (finish .none s)

/-- A DECODE command that fails (R130): DB_LEN is 0, the bytes of DB stay. -/
def failDecode (code : ErrCode) (s : State) : State := finish code { s with dbLen := 0 }

/-- DECODE in either mode (R130, R136): the wire bytes are in PB. -/
def decodeCommand (mode : Mode) (s0 : State) : Result :=
  whenIdle s0 <|
    let s := clearView (beginCommand s0)
    withRequest s (.next (failDecode .badLength s)) fun w0 rest =>
      match decodeWire s.cfg mode s.rleEn w0 rest with
      | .error e => .next (failDecode e s)
      | .ok out => .next (finish .none (storeDecoded out s))

/-- ENCODE.T (40_codec.md R122). -/
def execEncodeT (s : State) : Result := encodeCommand .text s

/-- ENCODE.B (40_codec.md R126). -/
def execEncodeB (s : State) : Result := encodeCommand .binary s

/-- DECODE.T (40_codec.md R130). -/
def execDecodeT (s : State) : Result := decodeCommand .text s

/-- DECODE.B (40_codec.md R136). -/
def execDecodeB (s : State) : Result := decodeCommand .binary s

end Sys2Proof.Machine
end

