-- ==== Sys2Proof/Machine/Control.lean ====
section
/-! DEFINITION. CLEAR, the reserved command words, the writes of CTRL, PLEN and the buffers, and RESET (43_control.md,
70_reset_and_hazards.md). -/

namespace Sys2Proof.Machine

/-- The flags CLEAR clears (43_control.md R215). -/
def clearFlags (s : State) : State :=
  { s with
    done := false, err := false, errcode := .none, hostViol := false, ackSeen := false, chkOk := false
    rxComplete := false }

/-- CLEAR (43_control.md R215): it does not set DONE, and while busy it is refused. MODE is ignored. -/
def execClear (_ignored : Mode) (s : State) : Result := whenIdle s (.next (clearFlags s))

/-- A CMD write of a reserved word (43_control.md R216). -/
def reservedCommand (s : State) : Result := whenIdle s (.next (finish .badCommand (beginCommand s)))

/-- `RegWrite` to CTRL while idle (R210): bits 31:3 of the value are ignored. -/
def writeCtrl (v : Word) (s : State) : State :=
  { s with verifyEn := v.getLsbD 0, rleEn := v.getLsbD 1, irqEn := v.getLsbD 2 }

/-- `RegWrite` to PLEN while idle (R211). -/
def writePlen (v : Word) (s : State) : State := { s with plen := v }

/-- A byte the host writes into PB (R214). -/
def writePayload (i : Nat) (b : Byte) (s : State) : State := { s with pb := Memory.write s.pb i b }

/-- `BufWrite(id, i, b)` (R214, R212): only PB below CAP is writable, every other write is refused. -/
def bufWrite (id i : Nat) (b : Byte) (s : State) : Result :=
  whenIdle s <|
    match bufAt id with
    | some .pb => if i < s.cfg.cap then .next (writePayload i b s) else .next (refuseHost s)
    | some .txb => .next (refuseHost s)
    | some .rxb => .next (refuseHost s)
    | some .db => .next (refuseHost s)
    | none => .next (refuseHost s)

/-- The host port returns a value to the host (log 8). -/
def answerRead (v : Word) (s : State) : State := { s with readData := v }

/-- A read of a buffer that does not exist takes a free value. DESIGN CHOICE (log 9): each such read takes a fresh one, so two
successive reads of the same id and index need not agree; whether the `idempotent` of 20_memory.md R79 binds a buffer that
does not exist is open, and a fresh byte also allows the repeated one. Safe. -/
def answerFree (s : State) : State := answerRead (zext32 (Config.freeByte s.draws)) (countDraw s)

/-- `RegRead(off)` (20_memory.md R72). -/
def regRead (off : Nat) (s : State) : Result := .next (answerRead (regReadValue off s) s)

/-- `BufRead(id, i)` (20_memory.md R73, 43_control.md R217): 0 at or beyond CAP, `fault UNINIT` on an unwritten byte. -/
def bufRead (id i : Nat) (s : State) : Result :=
  if s.cfg.cap ≤ i then .next (answerRead 0 s)
  else
    match bufAt id with
    | some b => withBytes (Memory.read (buffer b s) i) fun v => .next (answerRead (zext32 v) s)
    | none => .next (answerFree s)

/-- RESET (70_reset_and_hazards.md R260, R262, R263): the FCT's state goes to its reset values, with no completion; the
parameters, the Link's record and the environment are not the FCT's to reset (log 14). -/
def platformReset (s : State) : State :=
  { State.resetWith s.cfg with txLog := s.txLog, pending := s.pending, draws := s.draws, readData := s.readData }

end Sys2Proof.Machine
end

