-- ==== Sys2Proof/Machine/Transport.lean ====
section
/-! DEFINITION. The serial transport: the start of SENDRECV and the SEND, RECV, CHECK and DECODE steps (42_transport.md). -/

namespace Sys2Proof.Machine

/-- What the start step of SENDRECV sets before its checks (42_transport.md R173). -/
def beginTransaction (mode : Mode) (s : State) : State :=
  { clearView (beginCommand s) with
    ackSeen := false, rxComplete := false, attempts := 0, dbLen := 0, xmode := mode }

/-- The start step of SENDRECV in either mode (R173): encode PB once, into TXB, and go to SEND. -/
def startTransaction (mode : Mode) (s0 : State) : Result :=
  whenIdle s0 <|
    let s := beginTransaction mode s0
    withRequest s (.next (failTransaction .badLength s)) fun b0 payload =>
      encodeInto mode b0 payload s (.next (failTransaction .txOverflow s)) fun s =>
        .next (enterSend s)

/-- SENDRECV.T (42_transport.md R172). -/
def execSendrecvT (s : State) : Result := startTransaction .text s

/-- SENDRECV.B (42_transport.md R172). -/
def execSendrecvB (s : State) : Result := startTransaction .binary s

/-- What the start of an attempt sets (R180): each attempt receives afresh. -/
def beginAttempt (s : State) : State :=
  { s with attempts := s.attempts + 1, rxLen := 0, ackSeen := false, rxComplete := false }

/-- `LinkSend(frame)` with the Link's answer: one entry of the TxLog (R176, R177). -/
def linkSend (frame : List Byte) (o : TxOutcome) (s : State) : State := { s with txLog := s.txLog ++ [(frame, o)] }

/-- The SEND step (R180, R181): the retained frame goes to the link whole. -/
def sendStep (o : TxOutcome) (s0 : State) : Result :=
  withBytes (frameBytes s0) fun frame =>
    let s := linkSend frame o (beginAttempt s0)
    match o with
    | .txok => .next (goTo .recv s)
    | .txerr _ => .next (failTransaction .txIoError s)

/-- A chunk that fits is stored at RX_LEN; the first byte of an attempt says whether it is acknowledged (R182). -/
def storeChunk (p : Params) (c0 : Byte) (c : List Byte) (s : State) : State :=
  { s with
    rxb := Memory.writeRange s.rxb s.rxLen.toNat (c0 :: c)
    rxLen := lengthWord (s.rxLen.toNat + (c0 :: c).length)
    ackSeen := if s.rxLen.toNat = 0 then c0 == p.ackByte else s.ackSeen }

/-- The receive phase ends on the terminator (R182, R183). -/
def completeReceive (s : State) : State :=
  { s with rxComplete := true, state := if s.ackSeen then .decode else .check }

/-- The terminator test at the end of a chunk (R183): END_BYTE third from last. -/
def testTerminator (s : State) : Result :=
  if s.rxLen.toNat < 3 then .next s
  else
    withBytes (Memory.read s.rxb (s.rxLen.toNat - 3)) fun b =>
      if b = s.cfg.endByte then .next (completeReceive s) else .next s

/-- The RECV step on `RX(c)` (R182): the overflow test comes before any byte is stored (60_exceptions.md R237). -/
def recvChunk (c0 : Byte) (c : List Byte) (s : State) : Result :=
  if s.cfg.cap < s.rxLen.toNat + (c0 :: c).length then .next (failTransaction .rxOverflow s)
  else testTerminator (storeChunk s.cfg c0 c s)

/-- The RECV step on RXTIMEOUT (R184): only an attempt without an ack is retried. -/
def recvTimeout (s : State) : Result :=
  if s.ackSeen then .next (failTransaction .replyTimeout s) else .next (goTo .check s)

/-- The RECV step on RXERROR (R184). -/
def recvError (s : State) : Result := .next (failTransaction .rxIoError s)

/-- The CHECK step (R187): rewrite the same frame, or declare the link unstable. -/
def checkStep (s : State) : Result :=
  if s.attempts.toNat < s.cfg.maxAttempts then .next (goTo .send s)
  else .next (failTransaction .ackNotObtained s)

/-- The view and verify part of the DECODE step (R186), for the decoded bytes `d`. -/
def viewReply (d : List Byte) (s : State) : Result :=
  match view s.cfg d with
  | none => .next (failTransaction .badFrame s)
  | some v =>
    let s := showSums v s
    if s.verifyEn then
      if digitsMatch v.field v.sum then .next (finish .none (markMatch (showView v s)))
      else .next (failTransaction .checksumMismatch s)
    else .next (finish .none (showView v s))

/-- The DECODE step (R185, R186): decode RXB in the request's mode, then view and verify. -/
def decodeStep (s : State) : Result :=
  withBytes (replyBytes s) fun w =>
    match w with
    | [] => .fault .emptyReply
    | w0 :: rest =>
      match decodeWire s.cfg s.xmode s.rleEn w0 rest with
      | .error e => .next (failTransaction e s)
      | .ok out => viewReply out (storeDecoded out s)

/-- One step of the FCT (R170): the step of its state, if it has one; IDLE and RECV have none (log 6). -/
def fctStep (o : TxOutcome) (s : State) : Result :=
  match s.state with
  | .idle => .next s
  | .send => sendStep o s
  | .recv => .next s
  | .check => checkStep s
  | .decode => decodeStep s

/-- One receive event of the Link: consumed in RECV, discarded in every other state (R179). -/
def linkEvent (e : RxEvent) (s : State) : Result :=
  if s.state = .recv then
    match e with
    | .rx c0 c => recvChunk c0 c s
    | .rxTimeout => recvTimeout s
    | .rxError => recvError s
  else .next s

/-- The bytes that went out on the wire (20_memory.md R70, R75), from the Link's record: the whole frame after TXOK, the
prefix the Link chose after TXERR (42_transport.md R176). -/
def wireBytes (log : List (List Byte × TxOutcome)) : List Byte :=
  log.flatMap fun e =>
    match e.2 with
    | .txok => e.1
    | .txerr sent => e.1.take sent

end Sys2Proof.Machine
end

