-- ==== Sys2Proof/Machine/Dispatch.lean ====
section
/-! DEFINITION. The dispatch from a command to its meaning (43_control.md R213). -/

namespace Sys2Proof.Machine

def exec (i : Instr) (s : State) : Host.Outcome State Fault Refusal :=
  match i with
  | .encodeT => Sys2Proof.Machine.execEncodeT s
  | .encodeB => Sys2Proof.Machine.execEncodeB s
  | .decodeT => Sys2Proof.Machine.execDecodeT s
  | .decodeB => Sys2Proof.Machine.execDecodeB s
  | .checksum m => Sys2Proof.Machine.execChecksum m s
  | .verify m => Sys2Proof.Machine.execVerify m s
  | .sendrecvT => Sys2Proof.Machine.execSendrecvT s
  | .sendrecvB => Sys2Proof.Machine.execSendrecvB s
  | .clear m => Sys2Proof.Machine.execClear m s

end Sys2Proof.Machine
end

