-- ==== Sys2Proof/Machine/Agents.lean ====
section
/-! DEFINITION. The steps of the agents: the host's port accesses, the FCT's own steps, the Link's events and RESET
(00_scope.md R8, 20_memory.md R72 and R73, 43_control.md). -/

namespace Sys2Proof.Machine

/-- `RegWrite` to CMD (43_control.md R213): the command the word encodes, or R216 for a reserved word. -/
def cmdWrite (w : Word) (s : State) : Result :=
  match decodeCmd w with
  | .ok i => exec i s
  | .error _ => reservedCommand s

/-- `RegWrite(off, v)` (20_memory.md R72): every offset but CTRL, PLEN and CMD is ignored and sets no flag, also while
busy (43_control.md R212). -/
def regWrite (off : Nat) (v : Word) (s : State) : Result :=
  match regAt off with
  | some .ctrl => whenIdle s (.next (writeCtrl v s))
  | some .plen => whenIdle s (.next (writePlen v s))
  | some .cmd => cmdWrite v s
  | _ => .next s

/-- One access of the host (20_memory.md R72, R73). -/
def hostAccess (a : HostAccess) (s : State) : Result :=
  match a with
  | .regRead off => regRead off s
  | .regWrite off v => regWrite off v s
  | .bufRead id i => bufRead id i s
  | .bufWrite id i b => bufWrite id i b s

/-- One step of one agent (00_scope.md R8). -/
def runEvent (e : Event) (s : State) : Result :=
  match e with
  | .host a => hostAccess a s
  | .fct o => fctStep o s
  | .link r => linkEvent r s
  | .reset => .next (platformReset s)

/-- The event that is next, and the state that has taken it from the environment: the first pending event, or a free one
(log 5). -/
def takeEvent (s : State) : Event × State :=
  match s.pending with
  | [] => (Config.freeEvent s.draws, countDraw s)
  | e :: rest => (e, withPending rest s)

end Sys2Proof.Machine
end

