-- ==== Sys2Proof/Machine/Step.lean ====
section
/-! DEFINITION. One step of the machine: one step of one agent, in the order the environment chose (20_memory.md R80,
60_exceptions.md R238). -/

namespace Sys2Proof.Machine

/-- One step: take the next event and run it. -/
def step (s : State) : Host.Outcome State Fault Refusal := runEvent (takeEvent s).1 (takeEvent s).2

/-- The state whose next event is the host's write of the given word to CMD: the FCT fetches nothing (10_state.md R59), and
a command reaches it as that write (log 16). -/
def State.withFetchWord (s : State) (nbits w : Nat) : State :=
  { s with pending := .host (.regWrite 0x04 (tableWord nbits w)) :: s.pending }

end Sys2Proof.Machine
end

