-- ==== Sys2Proof/Machine/HostProgram.lean ====
section
/-! DEFINITION. The notation of host programs and its meaning (30_encoding.md R112, R113): a program drives the machine
through the same accesses and events as `step` does, and keeps the host's own variables, which are no state of the FCT
(10_state.md R59; log 17). -/

namespace Sys2Proof.Machine

/-- The statements of a host program (R112). `linkRx` and `linkTx` are its LINK lines. -/
inductive Stmt where
  | wr (r : Reg) (v : Word)
  | rr (r : Reg) (x : String)
  | wb (b : BufId) (i : Nat) (v : Byte)
  | rb (b : BufId) (i : Nat) (x : String)
  | cmd (i : Instr)
  | label (l : String)
  | bz (x : String) (mask : Word) (l : String)
  | bnz (x : String) (mask : Word) (l : String)
  | linkRx (e : RxEvent)
  | linkTx (o : TxOutcome)
deriving DecidableEq, Repr

/-- `LOADPB` (R113): the bytes from index 0, then PLEN. -/
def loadPb (bs : List Byte) : List Stmt :=
  bs.mapIdx (fun i b => .wb .pb i b) ++ [.wr .plen (lengthWord bs.length)]

/-- `WAITDONE` (R113): poll STATUS.DONE, with a fresh label. -/
def waitDone (fresh : String) : List Stmt := [.label fresh, .rr .status "s", .bz "s" 0x2 fresh]

/-- `XFER.T` and `XFER.B` (R113): load START_BYTE and the bytes, run the transaction, wait. -/
def xfer (mode : Mode) (p : Params) (bs : List Byte) (fresh : String) : List Stmt :=
  loadPb (p.startByte :: bs) ++
    (.cmd (match mode with | .text => .sendrecvT | .binary => .sendrecvB) :: waitDone fresh)

/-- What a running host program keeps: its place and its variables, the latest assignment first. -/
structure HostState where
  pc : Nat
  vars : List (String × Word)
deriving DecidableEq, Repr

/-- What one statement leads to. -/
inductive ProgramOutcome where
  /-- The program goes on. -/
  | running (h : HostState) (s : State)
  /-- The program has run past its last statement. -/
  | ended (h : HostState) (s : State)
  /-- The machine has stopped with a fault. -/
  | fault (f : Fault)
  /-- The machine has refused a command. -/
  | refused (r : Refusal)
  /-- The program names a variable it has not read or a label it does not have (log 17). -/
  | unboundName
deriving DecidableEq, Repr

/-- The place of a label. -/
def labelAt (prog : List Stmt) (l : String) : Option Nat := prog.findIdx? fun st => decide (st = .label l)

/-- The value of a host variable. -/
def HostState.lookup (h : HostState) (x : String) : Option Word :=
  (h.vars.find? fun e => e.1 == x).map Prod.snd

/-- The CHECK and DECODE steps run as soon as they are enabled (95_test_vectors.md Part 3). -/
def settle (s : State) : Result :=
  match s.state with
  | .idle => .next s
  | .send => .next s
  | .recv => .next s
  | .check => checkStep s
  | .decode => decodeStep s

/-- Go on after a statement that steps the machine: `k` is what the host keeps. -/
def afterStep (r : Result) (k : State → HostState) : ProgramOutcome :=
  match r with
  | .fault f => .fault f
  | .refused q => .refused q
  | .next s =>
    match settle s with
    | .fault f => .fault f
    | .refused q => .refused q
    | .next t => .running (k t) t

/-- A branch to `l` where `taken` holds of the masked value. -/
def branch (prog : List Stmt) (h : HostState) (s : State) (x l : String) (taken : Word → Bool) : ProgramOutcome :=
  match h.lookup x, labelAt prog l with
  | some v, some target => .running { h with pc := if taken v then target else h.pc + 1 } s
  | _, _ => .unboundName

/-- One statement of a host program (R112). -/
def programStep (prog : List Stmt) (h : HostState) (s : State) : ProgramOutcome :=
  match prog[h.pc]? with
  | none => .ended h s
  | some (.wr r v) => afterStep (regWrite r.offset v s) fun _ => { h with pc := h.pc + 1 }
  | some (.rr r x) =>
    afterStep (regRead r.offset s) fun t => { pc := h.pc + 1, vars := (x, t.readData) :: h.vars }
  | some (.wb b i v) => afterStep (bufWrite b.id i v s) fun _ => { h with pc := h.pc + 1 }
  | some (.rb b i x) =>
    afterStep (bufRead b.id i s) fun t => { pc := h.pc + 1, vars := (x, t.readData) :: h.vars }
  | some (.cmd i) => afterStep (regWrite Reg.cmd.offset (encode i) s) fun _ => { h with pc := h.pc + 1 }
  | some (.label _) => .running { h with pc := h.pc + 1 } s
  | some (.bz x mask l) => branch prog h s x l fun v => v &&& mask == 0
  | some (.bnz x mask l) => branch prog h s x l fun v => v &&& mask != 0
  | some (.linkRx e) => afterStep (linkEvent e s) fun _ => { h with pc := h.pc + 1 }
  | some (.linkTx o) => afterStep (fctStep o s) fun _ => { h with pc := h.pc + 1 }

/-- At most `n` statements of a host program. -/
def programRun (prog : List Stmt) : Nat → HostState → State → ProgramOutcome
  | 0, h, s => .running h s
  | n + 1, h, s =>
    match programStep prog h s with
    | .running h' s' => programRun prog n h' s'
    | o => o

end Sys2Proof.Machine
end

