-- ==== Sys2Proof/Safety.lean ====
section
/-! DEFINITION. The terms claims about runs are stated in: the machine's invariant (10_state.md R61), the FCT's part of a
state, transactions, and the work a transaction has left. -/

namespace Sys2Proof.Machine

/-- The FCT's own state (10_state.md R30), with the Link's record and the model's account of the environment blanked: two
states with equal `fctPart` differ in nothing of the FCT. -/
def fctPart (s : State) : State := { s with txLog := [], pending := [], draws := 0, readData := 0 }

/-- The command of each pair that a mode selects (30_encoding.md R92). -/
def encodeOf : Mode → Instr
  | .text => .encodeT
  | .binary => .encodeB

/-- The command of each pair that a mode selects (R92). -/
def decodeOf : Mode → Instr
  | .text => .decodeT
  | .binary => .decodeB

/-- The command of each pair that a mode selects (R92). -/
def sendrecvOf : Mode → Instr
  | .text => .sendrecvT
  | .binary => .sendrecvB

/-- The length check of 40_codec.md R121 passes. -/
abbrev goodLength (s : State) : Prop := s.plen ≠ 0 ∧ s.plen.toNat ≤ s.cfg.cap

/-- Every byte below `n` is written (R55). -/
abbrev writtenBelow (m : Memory) (n : Nat) : Prop := ∀ i < n, (Memory.read m i).isSome

/-- What holds in every reachable state: the constraints of 00_scope.md R10, the canonical form of the buffers, the
invariants of 10_state.md R61, and what the transport's states imply. -/
structure Inv (s : State) : Prop where
  params : s.cfg.wf = true
  canonical : ∀ b, (buffer b s).wf
  inCap : ∀ b, (buffer b s).within s.cfg.cap
  busyIff : s.busy = true ↔ s.state ≠ .idle
  errIff : s.err = true ↔ s.errcode ≠ .none
  doneIdle : s.done = true → s.busy = false
  attemptsLe : s.attempts.toNat ≤ s.cfg.maxAttempts
  sendLeft : s.state = .send → s.attempts.toNat < s.cfg.maxAttempts
  txLenLe : s.txLen.toNat ≤ s.cfg.cap
  rxLenLe : s.rxLen.toNat ≤ s.cfg.cap
  dbLenLe : s.dbLen.toNat ≤ s.cfg.cap
  viewIn : 0 < s.rplLen.toNat → s.rplOff.toNat + s.rplLen.toNat ≤ s.dbLen.toNat
  rplOffLe : s.rplOff.toNat ≤ s.cfg.cap
  txWritten : writtenBelow s.txb s.txLen.toNat
  rxWritten : writtenBelow s.rxb s.rxLen.toNat
  dbWritten : writtenBelow s.db s.dbLen.toNat
  complete : s.rxComplete = true → 3 ≤ s.rxLen.toNat ∧ Memory.read s.rxb (s.rxLen.toNat - 3) = some s.cfg.endByte
  recvOpen : s.state = .recv → s.rxComplete = false
  decodeDone : s.state = .decode → s.rxComplete = true ∧ s.ackSeen = true
  checkNoAck : s.state = .check → s.ackSeen = false
  txSumByte : s.txSum.toNat < 2 ^ 8
  rxSumByte : s.rxSum.toNat < 2 ^ 8
  /-- While a transaction runs there is no reply yet and no error (42_transport.md R173, 70_reset_and_hazards.md R281). -/
  busyNoReply : s.busy = true → s.dbLen = 0 ∧ s.rplOff = 0 ∧ s.rplLen = 0 ∧ s.rxSum = 0 ∧ s.rxField = 0 ∧
    s.chkOk = false ∧ s.errcode = .none
  fieldForm : s.rxField = 0 ∨ 2 ^ 8 ≤ s.rxField.toNat ∧ s.rxField.toNat < 2 ^ 9

/-- The event the next step runs. -/
def nextEvent (s : State) : Event := (takeEvent s).1

/-- A run of steps inside one transaction: every step starts while BUSY = 1 and is no RESET (42_transport.md R195,
70_reset_and_hazards.md R262). The last state may be the completed one. -/
inductive TransactionRun (s : State) : State → Prop where
  | refl : TransactionRun s s
  | step {t u : State} : TransactionRun s t → t.busy = true → nextEvent t ≠ .reset → step t = .next u → TransactionRun s u

/-- How many steps that make progress a transaction can still take: FCT steps, and receive events consumed in RECV
(42_transport.md R191). Each attempt not yet made counts `CAP + 4`. -/
def workLeft (s : State) : Nat :=
  match s.state with
  | .idle => 0
  | .send => (s.cfg.maxAttempts - s.attempts.toNat) * (s.cfg.cap + 4)
  | .recv => (s.cfg.maxAttempts - s.attempts.toNat) * (s.cfg.cap + 4) + (s.cfg.cap - s.rxLen.toNat) + 2
  | .check => (s.cfg.maxAttempts - s.attempts.toNat) * (s.cfg.cap + 4) + 1
  | .decode => 1

/-- The events that move a transaction on: an FCT step outside RECV, a receive event in RECV. -/
def movesOn (e : Event) (s : State) : Bool :=
  match e, s.state with
  | .fct _, .send => true
  | .fct _, .check => true
  | .fct _, .decode => true
  | .link _, .recv => true
  | _, _ => false

/-- The Link's receive events one after another, as long as the FCT stays in RECV: the state in which RECV is left, or in
which the events end. -/
def receiveAll : List RxEvent → State → Result
  | [], s => .next s
  | e :: es, s =>
    if s.state = .recv then
      match linkEvent e s with
      | .next t => receiveAll es t
      | .fault f => .fault f
      | .refused r => .refused r
    else .next s

end Sys2Proof.Machine
end

