-- ==== Sys2Proof/Certificates/Slice0/Obligations.lean ====
section
/-! DEFINITION. What is to be proved about the machine: one `Obligations.<Name> : Prop` each, with the rule it formalises.
Nothing here rests on the value of a free value of Config or of a field the model added (`draws`, `readData`). -/

open Sys2Proof Sys2Proof.Machine

/-! ## The CMD word -/

/-- 30_encoding.md R92: the words of the table decode to their commands, and every other OP is reserved. -/
def Obligations.CmdWordsOfTheTable : Prop :=
  decodeCmd 0x00000001 = .ok .encodeT ∧ decodeCmd 0x00000011 = .ok .encodeB ∧
  decodeCmd 0x00000002 = .ok .decodeT ∧ decodeCmd 0x00000012 = .ok .decodeB ∧
  decodeCmd 0x00000003 = .ok (.checksum .text) ∧ decodeCmd 0x00000013 = .ok (.checksum .binary) ∧
  decodeCmd 0x00000004 = .ok (.verify .text) ∧ decodeCmd 0x00000014 = .ok (.verify .binary) ∧
  decodeCmd 0x00000005 = .ok .sendrecvT ∧ decodeCmd 0x00000015 = .ok .sendrecvB ∧
  decodeCmd 0x00000006 = .ok (.clear .text) ∧ decodeCmd 0x00000016 = .ok (.clear .binary) ∧
  ∀ m op, op.toNat = 0 ∨ 7 ≤ op.toNat → decodeCmd (cmdWord op m) = .error (.opcode op)

/-- 30_encoding.md R91, R92: decoding a command's word gives the command back, and a word that decodes is its command's word.
That a command has one word is the model's choice (log 12): R92 gives CHECKSUM, VERIFY and CLEAR two words each, and the
syntax keeps the ignored MODE bit, so that the two words are two terms of one meaning. -/
def Obligations.CommandsAndWordsRoundTrip : Prop :=
  (∀ i : Instr, i.wf = true → decodeCmd (encode i) = .ok i) ∧
  (∀ (w : Word) (i : Instr), decodeCmd w = .ok i → encode i = w)

/-- 30_encoding.md R94, 43_control.md R216: a CMD write of a reserved word while idle completes at once with BAD_COMMAND
(0x30) and changes nothing but the completion record; every other word is a command. -/
def Obligations.ReservedWordsCompleteWithBadCommand : Prop :=
  ErrCode.badCommand.code = 0x30 ∧
  ∀ w : Word,
    (w.toNat % 16 = 0 ∨ 7 ≤ w.toNat % 16 ∨ 32 ≤ w.toNat →
      ∀ s : State, s.busy = false →
        regWrite 0x04 w s =
          .next { s with busy := false, state := .idle, done := true, err := true, errcode := .badCommand }) ∧
    (¬(w.toNat % 16 = 0 ∨ 7 ≤ w.toNat % 16 ∨ 32 ≤ w.toNat) → ∃ i, decodeCmd w = .ok i)

/-! ## A step -/

/-- A step whose next event is the host's write of a command's word to CMD runs that command, at the state that has taken
the event from the environment's list (the model's convention, log 5 and log 16). -/
def Obligations.StepRunsDecodedCommand : Prop :=
  (∀ (s : State) (w : Word) (i : Instr) (rest : List Event),
    s.pending = .host (.regWrite 0x04 w) :: rest → decodeCmd w = .ok i → step s = exec i { s with pending := rest }) ∧
  (∀ (s : State) (n : Nat) (i : Instr), decodeTableWord 32 n = some i → step (s.withFetchWord 32 n) = exec i s)

/-- The agents step one at a time in the order the environment chose (20_memory.md R80): the first pending event runs, and
with none pending a free one does, whichever it is (the model's convention, log 5). -/
def Obligations.StepTakesEventsInOrder : Prop :=
  (∀ (s : State) (e : Event) (rest : List Event), s.pending = e :: rest → step s = runEvent e { s with pending := rest }) ∧
  (∀ s : State, s.pending = [] → ∃ e : Event, step s = runEvent e { s with draws := s.draws + 1 })

/-! ## The host ports -/

/-- 10_state.md R62 and 20_memory.md R72: the register port reads each mapped offset's register and 0 elsewhere, and
ignores a write to every offset but CTRL, CMD and PLEN. -/
def Obligations.RegisterPortMap : Prop :=
  ∀ s : State,
    (regReadValue 0x00 s = ctrlWord s ∧ regReadValue 0x04 s = 0 ∧ regReadValue 0x08 s = statusWord s ∧
      regReadValue 0x0C s = s.errcode.code.setWidth 32 ∧ regReadValue 0x10 s = s.plen ∧ regReadValue 0x14 s = s.txLen ∧
      regReadValue 0x18 s = s.rxLen ∧ regReadValue 0x1C s = s.dbLen ∧ regReadValue 0x20 s = s.rplOff ∧
      regReadValue 0x24 s = s.rplLen ∧ regReadValue 0x28 s = s.txSum ∧ regReadValue 0x2C s = s.rxSum ∧
      regReadValue 0x30 s = s.rxField ∧ regReadValue 0x34 s = s.attempts ∧
      regReadValue 0x38 s = BitVec.ofNat 32 s.cfg.cap ∧ regReadValue 0x3C s = BitVec.ofNat 32 s.cfg.maxAttempts) ∧
    (∀ off, off % 4 ≠ 0 ∨ 0x3C < off → regReadValue off s = 0) ∧
    (∀ off, regRead off s = .next { s with readData := regReadValue off s }) ∧
    (∀ off v, off ≠ 0x00 → off ≠ 0x04 → off ≠ 0x10 → regWrite off v s = .next s)

/-- 10_state.md R38, R46: the bits of STATUS, the state codes, and the reserved bits, which read 0. -/
def Obligations.StatusWordLayout : Prop :=
  (Phase.idle.code = 0 ∧ Phase.send.code = 1 ∧ Phase.recv.code = 2 ∧ Phase.check.code = 3 ∧ Phase.decode.code = 4) ∧
  ∀ s : State,
    (statusWord s).getLsbD 0 = s.busy ∧ (statusWord s).getLsbD 1 = s.done ∧ (statusWord s).getLsbD 2 = s.err ∧
    (statusWord s).getLsbD 3 = s.ackSeen ∧ (statusWord s).getLsbD 4 = s.chkOk ∧ (statusWord s).getLsbD 5 = s.hostViol ∧
    (statusWord s).getLsbD 6 = s.rxComplete ∧ (statusWord s).getLsbD 7 = false ∧
    (statusWord s).extractLsb' 8 3 = BitVec.ofNat 3 s.state.code ∧ ∀ k, 11 ≤ k → (statusWord s).getLsbD k = false

/-- 43_control.md R210: a write of CTRL while idle sets the three fields and nothing else; CTRL then reads the three bits,
and the interrupt output follows. -/
def Obligations.CtrlWriteSetsThreeBits : Prop :=
  ∀ (s : State) (v : Word), s.busy = false →
    ∃ t, regWrite 0x00 v s = .next t ∧
      t = { s with verifyEn := v.getLsbD 0, rleEn := v.getLsbD 1, irqEn := v.getLsbD 2 } ∧
      regReadValue 0x00 t = v &&& 7 ∧ irq t = (v.getLsbD 2 && s.done)

/-- 43_control.md R211: a write of PLEN while idle stores all 32 bits, unchecked. -/
def Obligations.PlenWriteStoresTheWord : Prop :=
  ∀ (s : State) (v : Word), s.busy = false →
    ∃ t, regWrite 0x10 v s = .next t ∧ t = { s with plen := v } ∧ regReadValue 0x10 t = v

/-- 43_control.md R212: while busy, writes of CTRL, PLEN, CMD and every BufWrite are refused with HOST_VIOL; other offsets
are ignored with no flag; reads are answered. -/
def Obligations.BusyRefusesHostWrites : Prop :=
  ∀ s : State, s.busy = true →
    (∀ v, regWrite 0x00 v s = .next { s with hostViol := true }) ∧
    (∀ v, regWrite 0x10 v s = .next { s with hostViol := true }) ∧
    (∀ w, regWrite 0x04 w s = .next { s with hostViol := true }) ∧
    (∀ i : Instr, exec i s = .next { s with hostViol := true }) ∧
    (∀ id i b, bufWrite id i b s = .next { s with hostViol := true }) ∧
    (∀ off v, off ≠ 0x00 → off ≠ 0x04 → off ≠ 0x10 → regWrite off v s = .next s) ∧
    (∀ off, ∃ t, regRead off s = .next t ∧ t.readData = regReadValue off s) ∧
    (∀ (b : BufId) i v, i < s.cfg.cap → Memory.read (buffer b s) i = some v →
      ∃ t, bufRead b.id i s = .next t ∧ t.readData = v.setWidth 32)

/-- 43_control.md R214: while idle, a BufWrite of PB below CAP writes that byte and no other; every other BufWrite is
ignored with HOST_VIOL. -/
def Obligations.BufWriteReachesOnlyPayload : Prop :=
  ∀ (s : State) (id i : Nat) (b : Byte), s.busy = false →
    (id = 0 → i < s.cfg.cap →
      ∃ t, bufWrite id i b s = .next t ∧ t = { s with pb := t.pb } ∧ Memory.read t.pb i = some b ∧
        ∀ a, a ≠ i → Memory.read t.pb a = Memory.read s.pb a) ∧
    (id ≠ 0 ∨ s.cfg.cap ≤ i → bufWrite id i b s = .next { s with hostViol := true })

/-- 20_memory.md R73, 10_state.md R55: BufRead of a buffer returns a written byte, faults UNINIT on an unwritten one, and
returns 0 at or beyond CAP; only what the port returns changes. -/
def Obligations.BufReadReturnsWrittenBytes : Prop :=
  ∀ (s : State) (b : BufId) (i : Nat),
    (s.cfg.cap ≤ i → bufRead b.id i s = .next { s with readData := 0 }) ∧
    (i < s.cfg.cap → ∀ v, Memory.read (buffer b s) i = some v →
      bufRead b.id i s = .next { s with readData := v.setWidth 32 }) ∧
    (i < s.cfg.cap → Memory.read (buffer b s) i = none → bufRead b.id i s = .fault .uninit)

/-- 20_memory.md R79, 43_control.md R217: no read changes anything of the FCT, of the Link's record or of what is pending. -/
def Obligations.ReadsHaveNoSideEffect : Prop :=
  ∀ (s t : State) (off id i : Nat), regRead off s = .next t ∨ bufRead id i s = .next t →
    fctPart t = fctPart s ∧ t.txLog = s.txLog ∧ t.pending = s.pending

/-! ## Completion -/

/-- 60_exceptions.md R233, R234 and 42_transport.md R189: what a command's start and its completion write. -/
def Obligations.CompletionRecord : Prop :=
  ∀ (s : State) (c : ErrCode),
    beginCommand s = { s with done := false, err := false, errcode := .none } ∧
    ((finish c s).busy = false ∧ (finish c s).state = .idle ∧ (finish c s).done = true ∧
      regReadValue 0x0C (finish c s) = c.code.setWidth 32 ∧ ((finish c s).err = true ↔ c ≠ .none) ∧
      finish c s = { s with busy := false, state := .idle, done := true, err := (finish c s).err, errcode := c }) ∧
    failTransaction c s = { finish c s with dbLen := 0, rplOff := 0, rplLen := 0, chkOk := false }

/-- 60_exceptions.md R230, R231: the codes and their classes. -/
def Obligations.ErrorCodeTable : Prop :=
  ErrCode.none.code = 0x00 ∧ ErrCode.txIoError.code = 0x10 ∧ ErrCode.rxIoError.code = 0x11 ∧
  ErrCode.txOverflow.code = 0x12 ∧ ErrCode.rxOverflow.code = 0x13 ∧ ErrCode.ackNotObtained.code = 0x14 ∧
  ErrCode.replyTimeout.code = 0x15 ∧ ErrCode.badFrame.code = 0x20 ∧ ErrCode.checksumMismatch.code = 0x21 ∧
  ErrCode.danglingEscape.code = 0x22 ∧ ErrCode.danglingRepeat.code = 0x23 ∧ ErrCode.badRepeatCount.code = 0x24 ∧
  ErrCode.decodeOverflow.code = 0x25 ∧ ErrCode.badCommand.code = 0x30 ∧ ErrCode.badLength.code = 0x31 ∧
  ∀ e : ErrCode,
    (e.errClass = some .transport ↔ e.code.toNat / 16 = 1) ∧ (e.errClass = some .protocol ↔ e.code.toNat / 16 = 2) ∧
    (e.errClass = some .request ↔ e.code.toNat / 16 = 3) ∧ (e.errClass = none ↔ e = .none)

/-- 60_exceptions.md R240, R241: the interrupt output is IRQ_EN and DONE as the registers show them; a completed command
raises it where it is enabled, and CLEAR and the start of a transaction lower it. -/
def Obligations.InterruptFollowsDone : Prop :=
  (∀ s : State, irq s = ((regReadValue 0x00 s).getLsbD 2 && (regReadValue 0x08 s).getLsbD 1)) ∧
  ∀ (i : Instr) (s t : State), s.busy = false → exec i s = .next t →
    (t.busy = true → irq t = false) ∧ (∀ m, i = .clear m → irq t = false) ∧
    ((∀ m, i ≠ .clear m) → t.busy = false → irq t = s.irqEn)

/-! ## The codec commands -/

/-- 30_encoding.md R93, 40_codec.md R121: the operand of ENCODE, DECODE and SENDRECV is `PB[0]` and `PB[1..PLEN-1]`, that of
CHECKSUM is the second alone, and each is there exactly when its bytes are written. -/
def Obligations.OperandsAreThePayloadBytes : Prop :=
  ∀ (s : State) (b0 : Byte) (bs : List Byte),
    (payloadBytes s = some bs ↔
      bs.length = s.plen.toNat - 1 ∧ ∀ j, j < bs.length → Memory.read s.pb (1 + j) = bs[j]?) ∧
    (requestBytes s = some (b0, bs) ↔ Memory.read s.pb 0 = some b0 ∧ payloadBytes s = some bs)

/-- 40_codec.md R121, R122, R124, R126: ENCODE.T and ENCODE.B while idle. A bad PLEN, an unwritten byte, a frame longer than
CAP, and else the frame in TXB. -/
def Obligations.EncodeCommandResult : Prop :=
  ∀ (m : Mode) (s : State), s.busy = false →
    (¬goodLength s → exec (encodeOf m) s = .next (finish .badLength s)) ∧
    (goodLength s → requestBytes s = none → exec (encodeOf m) s = .fault .uninit) ∧
    (goodLength s → ∀ b0 bs, requestBytes s = some (b0, bs) →
      (s.cfg.cap < (encodeFrame s.cfg m b0 bs).length → exec (encodeOf m) s = .next (finish .txOverflow s)) ∧
      ((encodeFrame s.cfg m b0 bs).length ≤ s.cfg.cap →
        exec (encodeOf m) s =
          .next (finish .none
            { s with
              txb := Memory.writeRange s.txb 0 (encodeFrame s.cfg m b0 bs)
              txLen := BitVec.ofNat 32 (encodeFrame s.cfg m b0 bs).length
              txSum := (checksum bs).setWidth 32 })))

/-- The frame of ENCODE: the completion record and TXB, TX_LEN, TX_SUM; no byte of TXB beyond the frame; nothing of the
three on a failure; only HOST_VIOL while busy. -/
def Obligations.EncodeCommandFrame : Prop :=
  ∀ (m : Mode) (s t : State), exec (encodeOf m) s = .next t →
    t = { s with
          busy := t.busy, state := t.state, done := t.done, err := t.err, errcode := t.errcode, hostViol := t.hostViol
          txb := t.txb, txLen := t.txLen, txSum := t.txSum } ∧
    (s.busy = true → t = { s with hostViol := true }) ∧
    (s.busy = false → t.hostViol = s.hostViol) ∧
    (s.busy = false → t.errcode ≠ .none → t.txb = s.txb ∧ t.txLen = s.txLen ∧ t.txSum = s.txSum) ∧
    (∀ b0 bs a, requestBytes s = some (b0, bs) → (encodeFrame s.cfg m b0 bs).length ≤ a →
      Memory.read t.txb a = Memory.read s.txb a)

/-- 40_codec.md R130, R136: DECODE.T and DECODE.B while idle. A bad PLEN, an unwritten byte, a decoding error, and else the
output in DB. -/
def Obligations.DecodeCommandResult : Prop :=
  ∀ (m : Mode) (s : State), s.busy = false →
    let u : State := { s with chkOk := false, rplOff := 0, rplLen := 0, rxSum := 0, rxField := 0 }
    (¬goodLength s → exec (decodeOf m) s = .next (finish .badLength { u with dbLen := 0 })) ∧
    (goodLength s → requestBytes s = none → exec (decodeOf m) s = .fault .uninit) ∧
    (goodLength s → ∀ w0 rest, requestBytes s = some (w0, rest) →
      (∀ e, decodeWire s.cfg m s.rleEn w0 rest = .error e →
        exec (decodeOf m) s = .next (finish e { u with dbLen := 0 })) ∧
      (∀ out, decodeWire s.cfg m s.rleEn w0 rest = .ok out →
        exec (decodeOf m) s =
          .next (finish .none
            { u with db := Memory.writeRange s.db 0 out, dbLen := BitVec.ofNat 32 out.length })))

/-- The frame of DECODE: the completion record, CHK_OK, the view registers, DB and DB_LEN; no byte of DB beyond the output;
no byte of DB on a failure; only HOST_VIOL while busy. -/
def Obligations.DecodeCommandFrame : Prop :=
  ∀ (m : Mode) (s t : State), exec (decodeOf m) s = .next t →
    t = { s with
          busy := t.busy, state := t.state, done := t.done, err := t.err, errcode := t.errcode, hostViol := t.hostViol
          chkOk := t.chkOk, rplOff := t.rplOff, rplLen := t.rplLen, rxSum := t.rxSum, rxField := t.rxField
          db := t.db, dbLen := t.dbLen } ∧
    (s.busy = true → t = { s with hostViol := true }) ∧
    (s.busy = false → t.hostViol = s.hostViol) ∧
    (s.busy = false → t.errcode ≠ .none → t.db = s.db) ∧
    (∀ w0 rest out a, requestBytes s = some (w0, rest) → decodeWire s.cfg m s.rleEn w0 rest = .ok out → out.length ≤ a →
      Memory.read t.db a = Memory.read s.db a)

/-! ## CHECKSUM, VERIFY, CLEAR -/

/-- 41_checksum.md R154: CHECKSUM while idle, in either MODE. PB[0] is not read. -/
def Obligations.ChecksumCommandResult : Prop :=
  ∀ (m : Mode) (s : State), s.busy = false →
    (¬goodLength s → exec (.checksum m) s = .next (finish .badLength s)) ∧
    (goodLength s → payloadBytes s = none → exec (.checksum m) s = .fault .uninit) ∧
    (goodLength s → ∀ bs, payloadBytes s = some bs →
      exec (.checksum m) s = .next (finish .none { s with txSum := (checksum bs).setWidth 32 })) ∧
    (s.plen = 1 → 1 ≤ s.cfg.cap → exec (.checksum m) s = .next (finish .none { s with txSum := 0 }))

/-- 41_checksum.md R158: VERIFY while idle, in either MODE and whatever VERIFY_EN is. -/
def Obligations.VerifyCommandResult : Prop :=
  ∀ (m : Mode) (s : State), s.busy = false →
    let u : State := { s with chkOk := false, rplOff := 0, rplLen := 0, rxSum := 0, rxField := 0 }
    (decodedBytes s = none → exec (.verify m) s = .fault .uninit) ∧
    (∀ d, decodedBytes s = some d →
      (view s.cfg d = none → exec (.verify m) s = .next (finish .badFrame u)) ∧
      (∀ v, view s.cfg d = some v →
        (v.field ≠ some v.sum →
          exec (.verify m) s =
            .next (finish .checksumMismatch { u with rxSum := v.sum.setWidth 32, rxField := fieldWord v.field })) ∧
        (v.field = some v.sum →
          exec (.verify m) s =
            .next (finish .none
              { u with
                rxSum := v.sum.setWidth 32, rxField := 0x100 + v.sum.setWidth 32
                rplOff := BitVec.ofNat 32 v.off, rplLen := BitVec.ofNat 32 v.len, chkOk := true }))))

/-- 43_control.md R215: CLEAR in either MODE. While idle it clears seven fields and nothing else, so that ERRCODE and STATUS
read 0 and the interrupt output drops; while busy it is refused. -/
def Obligations.ClearCommandResult : Prop :=
  decodeCmd 0x00000006 = .ok (.clear .text) ∧ decodeCmd 0x00000016 = .ok (.clear .binary) ∧
  ∀ (m : Mode) (s : State),
    let t : State :=
      { s with
        done := false, err := false, errcode := .none, hostViol := false, ackSeen := false, chkOk := false
        rxComplete := false }
    (s.busy = false → exec (.clear m) s = .next t) ∧
    regReadValue 0x0C t = 0 ∧ irq t = false ∧ (s.busy = false → s.state = .idle → regReadValue 0x08 t = 0) ∧
    (s.busy = true → exec (.clear m) s = .next { s with hostViol := true })

/-- The frame of the commands that store nothing: every buffer is unchanged, and so is every register but the completion
record, HOST_VIOL and what the command writes; while busy only HOST_VIOL changes. -/
def Obligations.RegisterOnlyCommandsFrame : Prop :=
  ∀ (m : Mode) (s t : State),
    (exec (.checksum m) s = .next t →
      t = { s with
            busy := t.busy, state := t.state, done := t.done, err := t.err, errcode := t.errcode, hostViol := t.hostViol
            txSum := t.txSum } ∧
      (s.busy = false → t.hostViol = s.hostViol) ∧ (t.errcode ≠ .none → t.txSum = s.txSum)) ∧
    (exec (.verify m) s = .next t →
      t = { s with
            busy := t.busy, state := t.state, done := t.done, err := t.err, errcode := t.errcode, hostViol := t.hostViol
            chkOk := t.chkOk, rplOff := t.rplOff, rplLen := t.rplLen, rxSum := t.rxSum, rxField := t.rxField } ∧
      (s.busy = false → t.hostViol = s.hostViol)) ∧
    (exec (.clear m) s = .next t →
      t = { s with
            done := t.done, err := t.err, errcode := t.errcode, hostViol := t.hostViol, ackSeen := t.ackSeen
            chkOk := t.chkOk, rxComplete := t.rxComplete }) ∧
    (s.busy = true →
      (exec (.checksum m) s = .next t ∨ exec (.verify m) s = .next t ∨ exec (.clear m) s = .next t) →
        t = { s with hostViol := true }) ∧
    ((exec (.checksum m) s = .next t ∨ exec (.verify m) s = .next t ∨ exec (.clear m) s = .next t) →
      ∀ b a, Memory.read (buffer b t) a = Memory.read (buffer b s) a)

/-! ## The transport -/

/-- 42_transport.md R173: the start step of SENDRECV.T and SENDRECV.B while idle. A failure completes the command with no
link traffic; a success leaves the frame in TXB and the transaction in SEND. -/
def Obligations.SendrecvStartResult : Prop :=
  ∀ (m : Mode) (s : State), s.busy = false →
    let u : State :=
      { s with
        done := false, err := false, errcode := .none, ackSeen := false, chkOk := false, rxComplete := false
        attempts := 0, dbLen := 0, rplOff := 0, rplLen := 0, rxSum := 0, rxField := 0, xmode := m }
    (¬goodLength s → exec (sendrecvOf m) s = .next (failTransaction .badLength u)) ∧
    (goodLength s → requestBytes s = none → exec (sendrecvOf m) s = .fault .uninit) ∧
    (goodLength s → ∀ b0 bs, requestBytes s = some (b0, bs) →
      (s.cfg.cap < (encodeFrame s.cfg m b0 bs).length →
        exec (sendrecvOf m) s = .next (failTransaction .txOverflow u)) ∧
      ((encodeFrame s.cfg m b0 bs).length ≤ s.cfg.cap →
        exec (sendrecvOf m) s =
          .next { u with
                  busy := true, state := .send
                  txb := Memory.writeRange s.txb 0 (encodeFrame s.cfg m b0 bs)
                  txLen := BitVec.ofNat 32 (encodeFrame s.cfg m b0 bs).length
                  txSum := (checksum bs).setWidth 32 }))

/-- The frame of the start of SENDRECV: PB, RXB, the bytes of DB, PLEN, CTRL, RX_LEN and the Link's record are unchanged, no
byte of TXB beyond the frame is, and only HOST_VIOL changes while busy. -/
def Obligations.SendrecvStartFrame : Prop :=
  ∀ (m : Mode) (s t : State), exec (sendrecvOf m) s = .next t →
    t = { s with
          busy := t.busy, state := t.state, done := t.done, err := t.err, errcode := t.errcode, hostViol := t.hostViol
          ackSeen := t.ackSeen, chkOk := t.chkOk, rxComplete := t.rxComplete, attempts := t.attempts, dbLen := t.dbLen
          rplOff := t.rplOff, rplLen := t.rplLen, rxSum := t.rxSum, rxField := t.rxField, xmode := t.xmode
          txb := t.txb, txLen := t.txLen, txSum := t.txSum } ∧
    (s.busy = true → t = { s with hostViol := true }) ∧
    (s.busy = false → t.hostViol = s.hostViol) ∧
    (s.busy = false → t.errcode ≠ .none → t.txb = s.txb ∧ t.txLen = s.txLen ∧ t.txSum = s.txSum) ∧
    (∀ b0 bs a, requestBytes s = some (b0, bs) → (encodeFrame s.cfg m b0 bs).length ≤ a →
      Memory.read t.txb a = Memory.read s.txb a)

/-- 42_transport.md R180, R181: the SEND step with each answer of the Link. -/
def Obligations.SendStepResult : Prop :=
  ErrCode.txIoError.errClass = some .transport ∧
  ∀ (s : State) (f : List Byte), s.state = .send → frameBytes s = some f →
    fctStep .txok s =
      .next { s with
              attempts := s.attempts + 1, rxLen := 0, ackSeen := false, rxComplete := false
              txLog := s.txLog ++ [(f, .txok)], state := .recv } ∧
    ∀ n, fctStep (.txerr n) s =
      .next (failTransaction .txIoError
        { s with
          attempts := s.attempts + 1, rxLen := 0, ackSeen := false, rxComplete := false
          txLog := s.txLog ++ [(f, .txerr n)] })

/-- 42_transport.md R182, R183: the RECV step on a chunk. -/
def Obligations.RecvChunkResult : Prop :=
  ∀ (s : State) (c0 : Byte) (c : List Byte), s.cfg.wf = true → s.state = .recv →
    let n := s.rxLen.toNat + (c0 :: c).length
    let stored := Memory.writeRange s.rxb s.rxLen.toNat (c0 :: c)
    let ack := if s.rxLen = 0 then decide (c0 = s.cfg.ackByte) else s.ackSeen
    (s.cfg.cap < n → linkEvent (.rx c0 c) s = .next (failTransaction .rxOverflow s)) ∧
    (n ≤ s.cfg.cap → 3 ≤ n → Memory.read stored (n - 3) = some s.cfg.endByte →
      linkEvent (.rx c0 c) s =
        .next { s with
                rxb := stored, rxLen := BitVec.ofNat 32 n, ackSeen := ack, rxComplete := true
                state := if ack then .decode else .check }) ∧
    (n ≤ s.cfg.cap → n < 3 ∨ (∃ b, Memory.read stored (n - 3) = some b ∧ b ≠ s.cfg.endByte) →
      linkEvent (.rx c0 c) s = .next { s with rxb := stored, rxLen := BitVec.ofNat 32 n, ackSeen := ack })

/-- 42_transport.md R184: RXTIMEOUT and RXERROR in RECV. -/
def Obligations.RecvTimeoutAndErrorResult : Prop :=
  ∀ s : State, s.state = .recv →
    (s.ackSeen = true → linkEvent .rxTimeout s = .next (failTransaction .replyTimeout s)) ∧
    (s.ackSeen = false → linkEvent .rxTimeout s = .next { s with state := .check }) ∧
    linkEvent .rxError s = .next (failTransaction .rxIoError s)

/-- 42_transport.md R179: a receive event outside RECV changes nothing. -/
def Obligations.ReceiveOutsideRecvIsDiscarded : Prop :=
  ∀ (s : State) (e : RxEvent), s.state ≠ .recv → runEvent (.link e) s = .next s

/-- 42_transport.md R187: the CHECK step rewrites or declares the link unstable. -/
def Obligations.CheckStepRetriesOrFails : Prop :=
  ∀ (s : State) (o : TxOutcome), s.state = .check →
    (s.attempts.toNat < s.cfg.maxAttempts → fctStep o s = .next { s with state := .send }) ∧
    (s.cfg.maxAttempts ≤ s.attempts.toNat → fctStep o s = .next (failTransaction .ackNotObtained s))

/-- 42_transport.md R185, R186, R188: the DECODE step, in the request's mode. -/
def Obligations.DecodeStepResult : Prop :=
  ∀ (s : State) (o : TxOutcome) (w0 : Byte) (rest : List Byte), s.state = .decode → replyBytes s = some (w0 :: rest) →
    (∀ e, decodeWire s.cfg s.xmode s.rleEn w0 rest = .error e → fctStep o s = .next (failTransaction e s)) ∧
    (∀ out, decodeWire s.cfg s.xmode s.rleEn w0 rest = .ok out →
      let u : State := { s with db := Memory.writeRange s.db 0 out, dbLen := BitVec.ofNat 32 out.length }
      (view s.cfg out = none → fctStep o s = .next (failTransaction .badFrame u)) ∧
      (∀ v, view s.cfg out = some v →
        let x : State := { u with rxSum := v.sum.setWidth 32, rxField := fieldWord v.field }
        (s.verifyEn = true → v.field ≠ some v.sum → fctStep o s = .next (failTransaction .checksumMismatch x)) ∧
        (s.verifyEn = true → v.field = some v.sum →
          fctStep o s =
            .next (finish .none
              { x with chkOk := true, rplOff := BitVec.ofNat 32 v.off, rplLen := BitVec.ofNat 32 v.len })) ∧
        (s.verifyEn = false →
          fctStep o s =
            .next (finish .none { x with rplOff := BitVec.ofNat 32 v.off, rplLen := BitVec.ofNat 32 v.len }))))

/-- 42_transport.md R189: a step that ends a running transaction with an error offers no reply and keeps what R189 keeps. The
attempt's own registers are those of the SEND step where that step fails. RX_SUM and RX_FIELD are new only where the DECODE
step computed them before CHECKSUM_MISMATCH, DB only where it decoded before BAD_FRAME or CHECKSUM_MISMATCH
(70_reset_and_hazards.md R280), and no byte of DB is ever erased. -/
def Obligations.FailedTransactionOffersNoReply : Prop :=
  ∀ s t : State, Inv s → s.busy = true → nextEvent s ≠ .reset → step s = .next t → t.busy = false →
    t.errcode ≠ .none →
    t.done = true ∧ t.err = true ∧ t.dbLen = 0 ∧ t.rplOff = 0 ∧ t.rplLen = 0 ∧ t.chkOk = false ∧
    t.txb = s.txb ∧ t.txLen = s.txLen ∧ t.txSum = s.txSum ∧ t.rxb = s.rxb ∧
    (s.state ≠ .send →
      t.rxLen = s.rxLen ∧ t.attempts = s.attempts ∧ t.ackSeen = s.ackSeen ∧ t.rxComplete = s.rxComplete) ∧
    (s.state ≠ .decode → t.rxSum = s.rxSum ∧ t.rxField = s.rxField ∧ t.db = s.db) ∧
    (t.errcode ≠ .checksumMismatch → t.rxSum = s.rxSum ∧ t.rxField = s.rxField) ∧
    (t.errcode ≠ .checksumMismatch → t.errcode ≠ .badFrame → t.db = s.db) ∧
    ∀ a, (Memory.read s.db a).isSome = true → (Memory.read t.db a).isSome = true

/-- 42_transport.md R171: no step but these changes the transport's state, and each has the event, the condition and the
completion code of the table. -/
def Obligations.TransportTransitions : Prop :=
  ∀ s t : State, Inv s → nextEvent s ≠ .reset → step s = .next t → t.state ≠ s.state →
    (s.state = .idle ∧ t.state = .send ∧ t.busy = true ∧
      ∃ m, nextEvent s = .host (.regWrite 0x04 (encode (sendrecvOf m)))) ∨
    (s.state = .send ∧ t.state = .recv ∧ nextEvent s = .fct .txok ∧ t.attempts = s.attempts + 1 ∧ t.rxLen = 0) ∨
    (s.state = .send ∧ t.state = .idle ∧ (∃ n, nextEvent s = .fct (.txerr n)) ∧ t.errcode = .txIoError) ∨
    (s.state = .recv ∧ t.state = .decode ∧ (∃ c0 c, nextEvent s = .link (.rx c0 c)) ∧ t.rxComplete = true ∧
      t.ackSeen = true) ∨
    (s.state = .recv ∧ t.state = .check ∧ (∃ c0 c, nextEvent s = .link (.rx c0 c)) ∧ t.rxComplete = true ∧
      t.ackSeen = false) ∨
    (s.state = .recv ∧ t.state = .check ∧ nextEvent s = .link .rxTimeout ∧ s.ackSeen = false) ∨
    (s.state = .recv ∧ t.state = .idle ∧ nextEvent s = .link .rxTimeout ∧ s.ackSeen = true ∧ t.errcode = .replyTimeout) ∨
    (s.state = .recv ∧ t.state = .idle ∧ nextEvent s = .link .rxError ∧ t.errcode = .rxIoError) ∨
    (s.state = .recv ∧ t.state = .idle ∧ t.errcode = .rxOverflow ∧
      ∃ c0 c, nextEvent s = .link (.rx c0 c) ∧ s.cfg.cap < s.rxLen.toNat + (c0 :: c).length) ∨
    (s.state = .check ∧ t.state = .send ∧ (∃ o, nextEvent s = .fct o) ∧ s.attempts.toNat < s.cfg.maxAttempts) ∨
    (s.state = .check ∧ t.state = .idle ∧ (∃ o, nextEvent s = .fct o) ∧ s.attempts.toNat = s.cfg.maxAttempts ∧
      t.errcode = .ackNotObtained) ∨
    (s.state = .decode ∧ t.state = .idle ∧ (∃ o, nextEvent s = .fct o) ∧
      t.errcode ∈ [ErrCode.none, .danglingEscape, .danglingRepeat, .badRepeatCount, .decodeOverflow, .badFrame,
        .checksumMismatch])

/-- 42_transport.md R190, 10_state.md R33: from the state a successful start step leaves, every LinkSend of the transaction
sends the same frame, there are exactly ATTEMPTS of them, and at most MAX_ATTEMPTS; a start step sends nothing. -/
def Obligations.RewritesSendTheSameFrame : Prop :=
  (∀ (m : Mode) (s t : State), exec (sendrecvOf m) s = .next t → t.txLog = s.txLog) ∧
  ∀ s u : State, Inv s → s.state = .send → s.attempts = 0 → TransactionRun s u →
    ∃ (f : List Byte) (os : List TxOutcome), frameBytes s = some f ∧
      u.txLog = s.txLog ++ os.map (fun o => (f, o)) ∧ os.length = u.attempts.toNat ∧ os.length ≤ s.cfg.maxAttempts

/-- 42_transport.md R191 to R193: while a transaction runs, each FCT step and each receive event consumed in RECV is
answered and leaves less work, and no other event but RESET changes the work left; so a transaction ends unless the Link
stays silent for ever. -/
def Obligations.TransactionMakesProgress : Prop :=
  (∀ (s : State) (e : Event), Inv s → movesOn e s = true → ∃ t, runEvent e s = .next t ∧ workLeft t < workLeft s) ∧
  (∀ (s t : State) (e : Event), Inv s → s.busy = true → movesOn e s = false → e ≠ .reset → runEvent e s = .next t →
    workLeft t = workLeft s) ∧
  (∀ s : State, Inv s → s.busy = true → 0 < workLeft s)

/-- 42_transport.md R191: in every attempt RECV is left at the latest on the (CAP + 1)-th receive event consumed in it. -/
def Obligations.ReceivePhaseIsBounded : Prop :=
  ∀ (s : State) (es : List RxEvent), Inv s → s.state = .recv → s.cfg.cap < es.length →
    ∃ t, receiveAll es s = .next t ∧ t.state ≠ .recv

/-- 42_transport.md R192: while busy no host access changes anything of the transaction; SEND, CHECK and DECODE steps are
always enabled in their states; in RECV the FCT has no step (a step offered there answers the state itself: log 6), so that
only the Link ends the wait. -/
def Obligations.HostCannotEndTransaction : Prop :=
  (∀ (s t : State) (a : HostAccess), s.busy = true → hostAccess a s = .next t →
    t = { s with hostViol := t.hostViol, readData := t.readData, draws := t.draws }) ∧
  (∀ (s : State) (o : TxOutcome), Inv s → s.state = .send ∨ s.state = .check ∨ s.state = .decode →
    ∃ t, fctStep o s = .next t) ∧
  (∀ (s : State) (o : TxOutcome), s.state = .recv → fctStep o s = .next s)

/-- 42_transport.md R194: the FCT transmits nothing but TXB[0..TX_LEN-1], in a SEND step, and no step of the FCT or the Link
changes TXB. -/
def Obligations.OnlySendTransmits : Prop :=
  ∀ s t : State, step s = .next t →
    (t.txLog = s.txLog ∨
      ∃ o f, nextEvent s = .fct o ∧ s.state = .send ∧ frameBytes s = some f ∧ t.txLog = s.txLog ++ [(f, o)]) ∧
    ((∃ o, nextEvent s = .fct o) ∨ (∃ e, nextEvent s = .link e) → t.txb = s.txb ∧ t.txLen = s.txLen)

/-! ## The whole machine -/

/-- 70_reset_and_hazards.md R261: the power-on state meets the invariant, and so does the reset state of every machine with
parameters that meet 00_scope.md R10. -/
def Obligations.ResetEstablishesInvariant : Prop :=
  Inv State.reset ∧ ∀ p : Params, p.wf = true → Inv (State.resetWith p)

/-- 10_state.md R61: every step, of any agent, keeps the invariant. -/
def Obligations.StepKeepsInvariant : Prop :=
  ∀ s t : State, Inv s → step s = .next t → Inv t

/-- 10_state.md R55, 60_exceptions.md R239: under the invariant a step stops only where the host reads an unwritten byte of a
buffer, or starts a command that reads an unwritten byte of PB: ENCODE, DECODE and SENDRECV read PB[0..PLEN-1], CHECKSUM
PB[1..PLEN-1] (40_codec.md R121). Nothing is ever refused. -/
def Obligations.OnlyUnwrittenBytesFault : Prop :=
  ∀ s : State, Inv s →
    (∀ r, step s ≠ .refused r) ∧
    ∀ f, step s = .fault f →
      f = .uninit ∧
      ((∃ b i, nextEvent s = .host (.bufRead (BufId.id b) i) ∧ i < s.cfg.cap ∧ Memory.read (buffer b s) i = none) ∨
        (∃ w i a, nextEvent s = .host (.regWrite 0x04 w) ∧ decodeCmd w = .ok i ∧ s.busy = false ∧ goodLength s ∧
          a < s.plen.toNat ∧ Memory.read s.pb a = none ∧
          ((∃ m, i = encodeOf m ∨ i = decodeOf m ∨ i = sendrecvOf m) ∨ (∃ m, i = .checksum m) ∧ 1 ≤ a)))

/-- 10_state.md R44: HOST_VIOL is set by every refused host access and by nothing else, and only CLEAR and reset clear it;
its reset value is 0. -/
def Obligations.HostViolIsSticky : Prop :=
  State.reset.hostViol = false ∧
  (∀ (s : State) (off : Nat) (v : Word), s.busy = true → off = 0x00 ∨ off = 0x04 ∨ off = 0x10 →
    regWrite off v s = .next { s with hostViol := true }) ∧
  (∀ (s : State) (id i : Nat) (b : Byte), s.busy = true ∨ id ≠ 0 ∨ s.cfg.cap ≤ i →
    bufWrite id i b s = .next { s with hostViol := true }) ∧
  ∀ s t : State, step s = .next t →
    (s.hostViol = true → t.hostViol = false →
      nextEvent s = .reset ∨ ∃ m, s.busy = false ∧ nextEvent s = .host (.regWrite 0x04 (encode (.clear m)))) ∧
    (s.hostViol = false → t.hostViol = true →
      (∃ off v, s.busy = true ∧ (off = 0x00 ∨ off = 0x04 ∨ off = 0x10) ∧ nextEvent s = .host (.regWrite off v)) ∨
        (∃ id i b, (s.busy = true ∨ id ≠ 0 ∨ s.cfg.cap ≤ i) ∧ nextEvent s = .host (.bufWrite id i b)))

/-- 10_state.md R57: CAPREG and MAXATT read the parameters' values at reset, and no step changes them. -/
def Obligations.ParametersAreHardwired : Prop :=
  (∀ p : Params, p.wf = true →
    (regReadValue 0x38 (State.resetWith p)).toNat = p.cap ∧
    (regReadValue 0x3C (State.resetWith p)).toNat = p.maxAttempts) ∧
  ∀ s t : State, step s = .next t →
    t.cfg = s.cfg ∧ regReadValue 0x38 t = BitVec.ofNat 32 s.cfg.cap ∧
    regReadValue 0x3C t = BitVec.ofNat 32 s.cfg.maxAttempts

/-- 20_memory.md R82: once DONE is 1, no FCT or Link step changes anything, and a host access that is no CMD write changes
none of the results. That an FCT step offered in IDLE answers the state itself is the model's stutter (log 6: by R170 the FCT
has no step there). -/
def Obligations.CompletedResultsAreStable : Prop :=
  ∀ s : State, Inv s → s.done = true →
    (∀ o, runEvent (.fct o) s = .next s) ∧ (∀ e, runEvent (.link e) s = .next s) ∧
    ∀ a t, (∀ w, a ≠ .regWrite 0x04 w) → runEvent (.host a) s = .next t →
      t = { s with
            pb := t.pb, verifyEn := t.verifyEn, rleEn := t.rleEn, irqEn := t.irqEn, plen := t.plen
            hostViol := t.hostViol, readData := t.readData, draws := t.draws }

/-- 43_control.md R218: no command, FCT step or Link event writes CTRL, PLEN or PB, and no host access but a CMD write writes
TXB, RXB, DB, XMODE, a read-only register or a field of STATUS, HOST_VIOL apart. -/
def Obligations.AgentsWriteOnlyTheirState : Prop :=
  (∀ (s t : State) (i : Instr) (o : TxOutcome) (e : RxEvent),
    exec i s = .next t ∨ fctStep o s = .next t ∨ linkEvent e s = .next t →
      t.pb = s.pb ∧ t.plen = s.plen ∧ t.verifyEn = s.verifyEn ∧ t.rleEn = s.rleEn ∧ t.irqEn = s.irqEn) ∧
  (∀ (s t : State) (a : HostAccess), (∀ w, a ≠ .regWrite 0x04 w) → hostAccess a s = .next t →
    t.txb = s.txb ∧ t.rxb = s.rxb ∧ t.db = s.db ∧ t.xmode = s.xmode ∧
    t.busy = s.busy ∧ t.done = s.done ∧ t.err = s.err ∧ t.ackSeen = s.ackSeen ∧ t.chkOk = s.chkOk ∧
    t.rxComplete = s.rxComplete ∧ t.state = s.state ∧
    ∀ off, off ≠ 0x00 → off ≠ 0x08 → off ≠ 0x10 → regReadValue off t = regReadValue off s)

/-- 70_reset_and_hazards.md R260, R262: RESET in any state sets every register to its reset value, every buffer byte to
unwritten and XMODE to 0, with no completion and no interrupt; the parameters and the TxLog stay, and receive events that
come next are discarded. -/
def Obligations.ResetAbandonsEverything : Prop :=
  ∀ s : State, ∃ t, runEvent .reset s = .next t ∧
    t.cfg = s.cfg ∧ t.txLog = s.txLog ∧ irq t = false ∧ t.xmode = .text ∧ t.state = .idle ∧
    (∀ b a, Memory.read (buffer b t) a = none) ∧ (∀ e, linkEvent e t = .next t) ∧
    regReadValue 0x00 t = 1 ∧ regReadValue 0x38 t = BitVec.ofNat 32 s.cfg.cap ∧
    regReadValue 0x3C t = BitVec.ofNat 32 s.cfg.maxAttempts ∧
    ∀ off, off ≠ 0x00 → off ≠ 0x38 → off ≠ 0x3C → regReadValue off t = 0

/-- 70_reset_and_hazards.md R265: what each command, a reserved word and a BufRead do straight after reset. -/
def Obligations.CommandsRightAfterReset : Prop :=
  ∀ p : Params, 4 ≤ p.cap →
    (∀ m : Mode, ∀ i ∈ [encodeOf m, decodeOf m, .checksum m, sendrecvOf m],
      ∃ t, exec i (State.resetWith p) = .next t ∧ t.done = true ∧ t.errcode = .badLength ∧ t.txLog = []) ∧
    (∀ m : Mode, ∃ t, exec (.verify m) (State.resetWith p) = .next t ∧ t.done = true ∧ t.errcode = .badFrame) ∧
    (∀ m : Mode, exec (.clear m) (State.resetWith p) = .next (State.resetWith p)) ∧
    (∀ w r, decodeCmd w = .error r →
      ∃ t, regWrite 0x04 w (State.resetWith p) = .next t ∧ t.done = true ∧ t.errcode = .badCommand) ∧
    (∀ b i, i < p.cap → bufRead (BufId.id b) i (State.resetWith p) = .fault .uninit)

/-! ## The wire -/

/-- 40_codec.md R138: what `Encode` writes, `Decode` reads back with the trailer appended: in BINARY for either RLE_EN, in
TEXT with RLE_EN = 0 for every payload, and in TEXT with RLE_EN = 1 for a payload without RPT_BYTE. -/
def Obligations.WireRoundTrip : Prop :=
  ∀ (p : Params) (m : Mode) (rle : Bool) (b0 : Byte) (bs rest : List Byte), p.wf = true →
    encodeFrame p m b0 bs = b0 :: rest → (b0 :: rest).length ≤ p.cap →
    (m = .binary ∨ rle = false ∨ p.rptByte ∉ bs) →
      decodeWire p m rle b0 rest = .ok (b0 :: (bs ++ trailer p (checksum bs)))

/-- 40_codec.md R123: the length of a frame, for `P = b0 :: bs` of length `n`. -/
def Obligations.EncodedFrameLength : Prop :=
  ∀ (p : Params) (b0 : Byte) (bs : List Byte),
    let n := (b0 :: bs).length
    let text := (encodeFrame p .text b0 bs).length
    text = 1 + bs.countP (fun b => !inEscSet p b) + 2 * bs.countP (inEscSet p) + 3 ∧
    (encodeFrame p .binary b0 bs).length = n + 3 ∧ n + 3 ≤ text ∧ text ≤ 2 * n + 2

/-- 41_checksum.md R151: the last three bytes of every frame that ENCODE or SENDRECV writes to TXB. -/
def Obligations.EncodedFrameTrailer : Prop :=
  ∀ (m : Mode) (s t : State) (b0 : Byte) (bs : List Byte), s.cfg.wf = true → s.busy = false → goodLength s →
    requestBytes s = some (b0, bs) →
    (exec (encodeOf m) s = .next t ∧ t.errcode = .none) ∨ (exec (sendrecvOf m) s = .next t ∧ t.busy = true) →
      4 ≤ t.txLen.toNat ∧
      Memory.read t.txb (t.txLen.toNat - 3) = some s.cfg.endByte ∧
      Memory.read t.txb (t.txLen.toNat - 2) = some (hexDigit ((checksum bs).extractLsb' 4 4)) ∧
      Memory.read t.txb (t.txLen.toNat - 1) = some (hexDigit ((checksum bs).extractLsb' 0 4))

/-- 40_codec.md R135, R136, R140: BINARY decoding is the identity; without run-length decoding the output is no longer than
the input, so that DECODE_OVERFLOW cannot occur; no output is longer than CAP. -/
def Obligations.DecodedLengthBounds : Prop :=
  ∀ (p : Params) (w0 : Byte) (rest : List Byte), (w0 :: rest).length ≤ p.cap →
    (∀ rle, decodeWire p .binary rle w0 rest = .ok (w0 :: rest)) ∧
    (∀ out, decodeWire p .text false w0 rest = .ok out → out.length ≤ (w0 :: rest).length) ∧
    (∀ e, decodeWire p .text false w0 rest = .error e → e = .danglingEscape) ∧
    (∀ m rle out, decodeWire p m rle w0 rest = .ok out → out.length ≤ p.cap)

/-- 40_codec.md R129, R131 to R135: TEXT decoding unit by unit, at every place of the input. After any input that decodes to
`out`, whose last byte is `prev`: a literal, an escape unit (whatever its second byte, R132), a repeat unit (of whichever unit
produced `prev`, R133), and the errors; an error inside the input is the result whatever follows (60_exceptions.md R237). -/
def Obligations.EscapeAndRepeatUnits : Prop :=
  ∀ (p : Params) (rle : Bool) (w0 : Byte), p.wf = true →
    decodeWire p .text rle w0 [] = .ok [w0] ∧
    (∀ pre out, decodeWire p .text rle w0 pre = .ok out → ∃ prev, out.getLast? = some prev ∧
      (∀ c, c ≠ p.escByte → rle = false ∨ c ≠ p.rptByte →
        decodeWire p .text rle w0 (pre ++ [c]) =
          if p.cap < out.length + 1 then .error .decodeOverflow else .ok (out ++ [c])) ∧
      (∀ c2, decodeWire p .text rle w0 (pre ++ [p.escByte, c2]) =
        if p.cap < out.length + 1 then .error .decodeOverflow else .ok (out ++ [c2 ^^^ p.escXor])) ∧
      decodeWire p .text rle w0 (pre ++ [p.escByte]) = .error .danglingEscape ∧
      (rle = true → decodeWire p .text rle w0 (pre ++ [p.rptByte]) = .error .danglingRepeat) ∧
      (∀ n, rle = true → n.toNat < p.rptBias →
        decodeWire p .text rle w0 (pre ++ [p.rptByte, n]) = .error .badRepeatCount) ∧
      (∀ n, rle = true → p.rptBias ≤ n.toNat →
        decodeWire p .text rle w0 (pre ++ [p.rptByte, n]) =
          if p.cap < out.length + (n.toNat - p.rptBias) then .error .decodeOverflow
          else .ok (out ++ List.replicate (n.toNat - p.rptBias) prev))) ∧
    (∀ pre rest e, decodeWire p .text rle w0 pre = .error e → e = .badRepeatCount ∨ e = .decodeOverflow →
      decodeWire p .text rle w0 (pre ++ rest) = .error e)

/-- 41_checksum.md R150: the sum mod 256, with no seed and no carry out. -/
def Obligations.ChecksumIsTheSum : Prop :=
  ∀ a b : List Byte,
    (checksum a).toNat = (a.map BitVec.toNat).sum % 256 ∧ checksum [] = 0 ∧
    checksum (a ++ b) = checksum a + checksum b

/-- 41_checksum.md R152, 30_encoding.md R106: which bytes are digits and what they are worth, and that every other byte is
invalid; the digits written for a checksum are lowercase and parse to it, and uppercase digits parse too. -/
def Obligations.ChecksumDigitsParse : Prop :=
  (∀ c : Byte, hexVal c =
    if 0x30 ≤ c.toNat ∧ c.toNat ≤ 0x39 then some (c.toNat - 48)
    else if 0x61 ≤ c.toNat ∧ c.toNat ≤ 0x66 then some (c.toNat - 87)
    else if 0x41 ≤ c.toNat ∧ c.toNat ≤ 0x46 then some (c.toNat - 55)
    else none) ∧
  (∀ c : Byte, field (hexDigit (c.extractLsb' 4 4)) (hexDigit (c.extractLsb' 0 4)) = some c) ∧
  (∀ d1 d0 v, field d1 d0 = some v ↔
    ∃ h l, hexVal d1 = some h ∧ hexVal d0 = some l ∧ v = BitVec.ofNat 8 (16 * h + l)) ∧
  (∀ v : BitVec 4,
    (hexDigit v).toNat = if v.toNat < 10 then 0x30 + v.toNat else 0x61 + (v.toNat - 10)) ∧
  field 0x39 0x41 = some 0x9A

/-- 41_checksum.md R156, R157: the view is the bytes between the first START and the END third from last; its digits are the
last two bytes; where there is no such shape there is no view. -/
def Obligations.ViewIsBetweenStartAndEnd : Prop :=
  ∀ (p : Params) (d : List Byte),
    (∀ v, view p d = some v →
      1 ≤ v.off ∧ d[v.off - 1]? = some p.startByte ∧ (∀ j, j < v.off - 1 → d[j]? ≠ some p.startByte) ∧
      v.off + v.len + 3 = d.length ∧ d[d.length - 3]? = some p.endByte ∧
      v.sum = checksum ((d.drop v.off).take v.len) ∧
      ∃ d1 d0, d[d.length - 2]? = some d1 ∧ d[d.length - 1]? = some d0 ∧ v.field = field d1 d0) ∧
    (view p d = none ↔
      ¬∃ k, d[k]? = some p.startByte ∧ (∀ j, j < k → d[j]? ≠ some p.startByte) ∧ k + 4 ≤ d.length ∧
        d[d.length - 3]? = some p.endByte)

/-! ## Host programs -/

/-- 30_encoding.md R113: `LOADPB` on an idle machine puts the bytes into PB from index 0 and their number into PLEN, and
leaves every other byte of PB. -/
def Obligations.LoadPbLoadsThePayload : Prop :=
  ∀ (s : State) (bs : List Byte), s.busy = false → s.state = .idle → bs.length ≤ s.cfg.cap → s.cfg.cap ≤ 2 ^ 31 →
    ∃ t, programRun (loadPb bs) (bs.length + 1) { pc := 0, vars := [] } s =
        .running { pc := bs.length + 1, vars := [] } t ∧
      t = { s with pb := t.pb, plen := t.plen } ∧ t.plen.toNat = bs.length ∧
      (∀ i, i < bs.length → Memory.read t.pb i = bs[i]?) ∧ ∀ i, bs.length ≤ i → Memory.read t.pb i = Memory.read s.pb i

/-! ## Beside RESET -/

/-- 70_reset_and_hazards.md R263: RESET reaches neither the Link nor its pending bytes. In the model that is the Link's record
and the environment's account, its pending events among them (the model's own fields: log 5, log 8, log 14). -/
def Obligations.ResetKeepsTheEnvironment : Prop :=
  ∀ s : State, ∃ t, runEvent .reset s = .next t ∧
    t.txLog = s.txLog ∧ t.pending = s.pending ∧ t.draws = s.draws ∧ t.readData = s.readData
end

