-- ==== Sys2Proof/Laws/Memory.lean ====
section
/-! SUPPORT. The laws of a byte buffer: read after write, range reads and writes, and that every write keeps the canonical
form. -/

namespace Sys2Proof.Machine.Memory

theorem read_write (m : Memory) (a i : Nat) (b : Byte) :
    read (write m a b) i = if i = a then some b else read m i := by
  induction m with
  | nil => simp [write, read]
  | cons c m ih =>
    obtain ⟨k, v⟩ := c
    simp only [write]
    split
    · simp [read]
    · split
      · rename_i h; subst h; simp only [read]; split <;> simp_all
      · simp only [read, ih]; split <;> rename_i hne
        · subst hne; rw [if_neg (by omega)]
        · rfl

@[simp] theorem read_write_same (m : Memory) (a : Nat) (b : Byte) : read (write m a b) a = some b := by
  simp [read_write]

theorem read_write_other {a i : Nat} (m : Memory) (b : Byte) (h : i ≠ a) : read (write m a b) i = read m i := by
  simp [read_write, h]

theorem mem_write {m : Memory} {a : Nat} {b : Byte} {c : Host.Cell} (h : c ∈ write m a b) : c = (a, b) ∨ c ∈ m := by
  induction m with
  | nil => simpa [write] using h
  | cons d m ih =>
    obtain ⟨k, v⟩ := d
    simp only [write] at h
    split at h
    · simpa using h
    · split at h
      · simp only [List.mem_cons] at h ⊢; tauto
      · simp only [List.mem_cons] at h ⊢
        rcases h with h | h
        · tauto
        · have := ih h; tauto

theorem write_wf {m : Memory} (a : Nat) (b : Byte) (h : m.wf) : (write m a b).wf := by
  induction m with
  | nil => simp [write, wf]
  | cons c m ih =>
    obtain ⟨k, v⟩ := c
    have hc := List.pairwise_cons.mp h
    simp only [write]
    split
    · rename_i hlt
      refine List.pairwise_cons.mpr ⟨fun d hd => ?_, h⟩
      rcases List.mem_cons.mp hd with rfl | hd
      · exact hlt
      · exact Nat.lt_trans hlt (hc.1 d hd)
    · split
      · rename_i he; subst he; exact List.pairwise_cons.mpr ⟨hc.1, hc.2⟩
      · refine List.pairwise_cons.mpr ⟨fun d hd => ?_, ih hc.2⟩
        rcases mem_write hd with rfl | hd
        · simp only; omega
        · exact hc.1 d hd

theorem write_within {m : Memory} {n a : Nat} (b : Byte) (h : m.within n) (ha : a < n) : (write m a b).within n := by
  intro c hc
  rcases mem_write hc with rfl | hc
  · exact ha
  · exact h c hc

/-- Only the bytes written to read differently. -/
theorem read_writeRange (m : Memory) (a i : Nat) (bs : List Byte) :
    read (writeRange m a bs) i = if a ≤ i ∧ i < a + bs.length then bs[i - a]? else read m i := by
  induction bs generalizing m a with
  | nil => simp only [writeRange, List.length_nil]; rw [if_neg (by omega)]
  | cons b bs ih =>
    simp only [writeRange, ih, List.length_cons]
    by_cases h : i = a
    · subst h; rw [if_neg (by omega), if_pos (by omega)]; simp
    · by_cases h2 : a + 1 ≤ i ∧ i < a + 1 + bs.length
      · rw [if_pos h2, if_pos (by omega)]
        obtain ⟨j, rfl⟩ : ∃ j, i = a + 1 + j := ⟨i - (a + 1), by omega⟩
        rw [show a + 1 + j - (a + 1) = j from by omega, show a + 1 + j - a = j + 1 from by omega]
        simp
      · rw [if_neg h2, if_neg (by omega), read_write_other _ _ h]

theorem read_writeRange_outside {m : Memory} {a i : Nat} {bs : List Byte} (h : i < a ∨ a + bs.length ≤ i) :
    read (writeRange m a bs) i = read m i := by
  rw [read_writeRange, if_neg (by omega)]

theorem writeRange_wf {m : Memory} (a : Nat) (bs : List Byte) (h : m.wf) : (writeRange m a bs).wf := by
  induction bs generalizing m a with
  | nil => exact h
  | cons b bs ih => exact ih (a + 1) (write_wf a b h)

theorem writeRange_within {m : Memory} {n a : Nat} {bs : List Byte} (h : m.within n) (ha : a + bs.length ≤ n) :
    (writeRange m a bs).within n := by
  induction bs generalizing m a with
  | nil => exact h
  | cons b bs ih =>
    simp only [List.length_cons] at ha
    exact ih (write_within b h (by omega)) (by omega)

theorem readRange_length {m : Memory} {i n : Nat} {bs : List Byte} (h : readRange m i n = some bs) : bs.length = n := by
  induction n generalizing i bs with
  | zero => simp [readRange] at h; simp [← h]
  | succ n ih =>
    simp only [readRange, Option.bind_eq_some_iff, Option.map_eq_some_iff] at h
    obtain ⟨b, -, cs, hcs, rfl⟩ := h
    simp [ih hcs]

/-- A range reads as `bs` exactly when each of its bytes does. -/
theorem readRange_eq_some {m : Memory} {i n : Nat} {bs : List Byte} :
    readRange m i n = some bs ↔ bs.length = n ∧ ∀ j < n, read m (i + j) = bs[j]? := by
  induction n generalizing i bs with
  | zero => cases bs <;> simp [readRange]
  | succ n ih =>
    simp only [readRange, Option.bind_eq_some_iff, Option.map_eq_some_iff]
    constructor
    · rintro ⟨b, hb, cs, hcs, rfl⟩
      obtain ⟨hl, hr⟩ := ih.mp hcs
      refine ⟨by simp [hl], fun j hj => ?_⟩
      cases j with
      | zero => simpa using hb
      | succ j =>
        rw [show i + (j + 1) = i + 1 + j from by omega, hr j (by omega)]
        simp
    · rintro ⟨hl, hr⟩
      cases bs with
      | nil => simp at hl
      | cons b cs =>
        refine ⟨b, by simpa using hr 0 (by omega), cs, ih.mpr ⟨by simpa using hl, fun j hj => ?_⟩, rfl⟩
        have := hr (j + 1) (by omega)
        rw [show i + 1 + j = i + (j + 1) from by omega, this]
        simp

/-- A range of written bytes reads as some list. -/
theorem readRange_isSome {m : Memory} {i n : Nat} :
    (readRange m i n).isSome ↔ ∀ j < n, (read m (i + j)).isSome := by
  induction n generalizing i with
  | zero => simp [readRange]
  | succ n ih =>
    simp only [readRange, Option.isSome_bind, Option.any_eq_true, Option.isSome_map]
    constructor
    · rintro ⟨b, hb, hr⟩ j hj
      cases j with
      | zero => simp [hb]
      | succ j =>
        rw [show i + (j + 1) = i + 1 + j from by omega]
        exact (ih.mp hr) j (by omega)
    · intro h
      obtain ⟨b, hb⟩ := Option.isSome_iff_exists.mp (by simpa using h 0 (by omega))
      refine ⟨b, hb, ih.mpr fun j hj => ?_⟩
      rw [show i + 1 + j = i + (j + 1) from by omega]
      exact h (j + 1) (by omega)

/-- A range reads back what was written to it. -/
theorem readRange_writeRange (m : Memory) (i : Nat) (bs : List Byte) :
    readRange (writeRange m i bs) i bs.length = some bs := by
  rw [readRange_eq_some]
  refine ⟨rfl, fun j hj => ?_⟩
  rw [read_writeRange, if_pos (by omega), show i + j - i = j from by omega]

end Sys2Proof.Machine.Memory
end

