-- ==== Sys2Proof/Laws/State.lean ====
section
/-! SUPPORT. One lemma per field and named update of the state, so that no proof unfolds a record update. -/

namespace Sys2Proof.Machine

section beginCommand
variable (s : State)

@[simp] theorem beginCommand_cfg : (beginCommand s).cfg = s.cfg := rfl
@[simp] theorem beginCommand_pb : (beginCommand s).pb = s.pb := rfl
@[simp] theorem beginCommand_txb : (beginCommand s).txb = s.txb := rfl
@[simp] theorem beginCommand_rxb : (beginCommand s).rxb = s.rxb := rfl
@[simp] theorem beginCommand_db : (beginCommand s).db = s.db := rfl
@[simp] theorem beginCommand_verifyEn : (beginCommand s).verifyEn = s.verifyEn := rfl
@[simp] theorem beginCommand_rleEn : (beginCommand s).rleEn = s.rleEn := rfl
@[simp] theorem beginCommand_irqEn : (beginCommand s).irqEn = s.irqEn := rfl
@[simp] theorem beginCommand_busy : (beginCommand s).busy = s.busy := rfl
@[simp] theorem beginCommand_done : (beginCommand s).done = false := rfl
@[simp] theorem beginCommand_err : (beginCommand s).err = false := rfl
@[simp] theorem beginCommand_ackSeen : (beginCommand s).ackSeen = s.ackSeen := rfl
@[simp] theorem beginCommand_chkOk : (beginCommand s).chkOk = s.chkOk := rfl
@[simp] theorem beginCommand_hostViol : (beginCommand s).hostViol = s.hostViol := rfl
@[simp] theorem beginCommand_rxComplete : (beginCommand s).rxComplete = s.rxComplete := rfl
@[simp] theorem beginCommand_state : (beginCommand s).state = s.state := rfl
@[simp] theorem beginCommand_errcode : (beginCommand s).errcode = .none := rfl
@[simp] theorem beginCommand_plen : (beginCommand s).plen = s.plen := rfl
@[simp] theorem beginCommand_txLen : (beginCommand s).txLen = s.txLen := rfl
@[simp] theorem beginCommand_rxLen : (beginCommand s).rxLen = s.rxLen := rfl
@[simp] theorem beginCommand_dbLen : (beginCommand s).dbLen = s.dbLen := rfl
@[simp] theorem beginCommand_rplOff : (beginCommand s).rplOff = s.rplOff := rfl
@[simp] theorem beginCommand_rplLen : (beginCommand s).rplLen = s.rplLen := rfl
@[simp] theorem beginCommand_txSum : (beginCommand s).txSum = s.txSum := rfl
@[simp] theorem beginCommand_rxSum : (beginCommand s).rxSum = s.rxSum := rfl
@[simp] theorem beginCommand_rxField : (beginCommand s).rxField = s.rxField := rfl
@[simp] theorem beginCommand_attempts : (beginCommand s).attempts = s.attempts := rfl
@[simp] theorem beginCommand_xmode : (beginCommand s).xmode = s.xmode := rfl
@[simp] theorem beginCommand_txLog : (beginCommand s).txLog = s.txLog := rfl
@[simp] theorem beginCommand_pending : (beginCommand s).pending = s.pending := rfl
@[simp] theorem beginCommand_draws : (beginCommand s).draws = s.draws := rfl
@[simp] theorem beginCommand_readData : (beginCommand s).readData = s.readData := rfl

end beginCommand

section finish
variable (c : ErrCode) (s : State)

@[simp] theorem finish_cfg : (finish c s).cfg = s.cfg := rfl
@[simp] theorem finish_pb : (finish c s).pb = s.pb := rfl
@[simp] theorem finish_txb : (finish c s).txb = s.txb := rfl
@[simp] theorem finish_rxb : (finish c s).rxb = s.rxb := rfl
@[simp] theorem finish_db : (finish c s).db = s.db := rfl
@[simp] theorem finish_verifyEn : (finish c s).verifyEn = s.verifyEn := rfl
@[simp] theorem finish_rleEn : (finish c s).rleEn = s.rleEn := rfl
@[simp] theorem finish_irqEn : (finish c s).irqEn = s.irqEn := rfl
@[simp] theorem finish_busy : (finish c s).busy = false := rfl
@[simp] theorem finish_done : (finish c s).done = true := rfl
@[simp] theorem finish_err : (finish c s).err = decide (c ≠ .none) := rfl
@[simp] theorem finish_ackSeen : (finish c s).ackSeen = s.ackSeen := rfl
@[simp] theorem finish_chkOk : (finish c s).chkOk = s.chkOk := rfl
@[simp] theorem finish_hostViol : (finish c s).hostViol = s.hostViol := rfl
@[simp] theorem finish_rxComplete : (finish c s).rxComplete = s.rxComplete := rfl
@[simp] theorem finish_state : (finish c s).state = .idle := rfl
@[simp] theorem finish_errcode : (finish c s).errcode = c := rfl
@[simp] theorem finish_plen : (finish c s).plen = s.plen := rfl
@[simp] theorem finish_txLen : (finish c s).txLen = s.txLen := rfl
@[simp] theorem finish_rxLen : (finish c s).rxLen = s.rxLen := rfl
@[simp] theorem finish_dbLen : (finish c s).dbLen = s.dbLen := rfl
@[simp] theorem finish_rplOff : (finish c s).rplOff = s.rplOff := rfl
@[simp] theorem finish_rplLen : (finish c s).rplLen = s.rplLen := rfl
@[simp] theorem finish_txSum : (finish c s).txSum = s.txSum := rfl
@[simp] theorem finish_rxSum : (finish c s).rxSum = s.rxSum := rfl
@[simp] theorem finish_rxField : (finish c s).rxField = s.rxField := rfl
@[simp] theorem finish_attempts : (finish c s).attempts = s.attempts := rfl
@[simp] theorem finish_xmode : (finish c s).xmode = s.xmode := rfl
@[simp] theorem finish_txLog : (finish c s).txLog = s.txLog := rfl
@[simp] theorem finish_pending : (finish c s).pending = s.pending := rfl
@[simp] theorem finish_draws : (finish c s).draws = s.draws := rfl
@[simp] theorem finish_readData : (finish c s).readData = s.readData := rfl

end finish

section failTransaction
variable (c : ErrCode) (s : State)

@[simp] theorem failTransaction_cfg : (failTransaction c s).cfg = s.cfg := rfl
@[simp] theorem failTransaction_pb : (failTransaction c s).pb = s.pb := rfl
@[simp] theorem failTransaction_txb : (failTransaction c s).txb = s.txb := rfl
@[simp] theorem failTransaction_rxb : (failTransaction c s).rxb = s.rxb := rfl
@[simp] theorem failTransaction_db : (failTransaction c s).db = s.db := rfl
@[simp] theorem failTransaction_verifyEn : (failTransaction c s).verifyEn = s.verifyEn := rfl
@[simp] theorem failTransaction_rleEn : (failTransaction c s).rleEn = s.rleEn := rfl
@[simp] theorem failTransaction_irqEn : (failTransaction c s).irqEn = s.irqEn := rfl
@[simp] theorem failTransaction_busy : (failTransaction c s).busy = false := rfl
@[simp] theorem failTransaction_done : (failTransaction c s).done = true := rfl
@[simp] theorem failTransaction_err : (failTransaction c s).err = decide (c ≠ .none) := rfl
@[simp] theorem failTransaction_ackSeen : (failTransaction c s).ackSeen = s.ackSeen := rfl
@[simp] theorem failTransaction_chkOk : (failTransaction c s).chkOk = false := rfl
@[simp] theorem failTransaction_hostViol : (failTransaction c s).hostViol = s.hostViol := rfl
@[simp] theorem failTransaction_rxComplete : (failTransaction c s).rxComplete = s.rxComplete := rfl
@[simp] theorem failTransaction_state : (failTransaction c s).state = .idle := rfl
@[simp] theorem failTransaction_errcode : (failTransaction c s).errcode = c := rfl
@[simp] theorem failTransaction_plen : (failTransaction c s).plen = s.plen := rfl
@[simp] theorem failTransaction_txLen : (failTransaction c s).txLen = s.txLen := rfl
@[simp] theorem failTransaction_rxLen : (failTransaction c s).rxLen = s.rxLen := rfl
@[simp] theorem failTransaction_dbLen : (failTransaction c s).dbLen = 0 := rfl
@[simp] theorem failTransaction_rplOff : (failTransaction c s).rplOff = 0 := rfl
@[simp] theorem failTransaction_rplLen : (failTransaction c s).rplLen = 0 := rfl
@[simp] theorem failTransaction_txSum : (failTransaction c s).txSum = s.txSum := rfl
@[simp] theorem failTransaction_rxSum : (failTransaction c s).rxSum = s.rxSum := rfl
@[simp] theorem failTransaction_rxField : (failTransaction c s).rxField = s.rxField := rfl
@[simp] theorem failTransaction_attempts : (failTransaction c s).attempts = s.attempts := rfl
@[simp] theorem failTransaction_xmode : (failTransaction c s).xmode = s.xmode := rfl
@[simp] theorem failTransaction_txLog : (failTransaction c s).txLog = s.txLog := rfl
@[simp] theorem failTransaction_pending : (failTransaction c s).pending = s.pending := rfl
@[simp] theorem failTransaction_draws : (failTransaction c s).draws = s.draws := rfl
@[simp] theorem failTransaction_readData : (failTransaction c s).readData = s.readData := rfl

end failTransaction

section failDecode
variable (c : ErrCode) (s : State)

@[simp] theorem failDecode_cfg : (failDecode c s).cfg = s.cfg := rfl
@[simp] theorem failDecode_pb : (failDecode c s).pb = s.pb := rfl
@[simp] theorem failDecode_txb : (failDecode c s).txb = s.txb := rfl
@[simp] theorem failDecode_rxb : (failDecode c s).rxb = s.rxb := rfl
@[simp] theorem failDecode_db : (failDecode c s).db = s.db := rfl
@[simp] theorem failDecode_verifyEn : (failDecode c s).verifyEn = s.verifyEn := rfl
@[simp] theorem failDecode_rleEn : (failDecode c s).rleEn = s.rleEn := rfl
@[simp] theorem failDecode_irqEn : (failDecode c s).irqEn = s.irqEn := rfl
@[simp] theorem failDecode_busy : (failDecode c s).busy = false := rfl
@[simp] theorem failDecode_done : (failDecode c s).done = true := rfl
@[simp] theorem failDecode_err : (failDecode c s).err = decide (c ≠ .none) := rfl
@[simp] theorem failDecode_ackSeen : (failDecode c s).ackSeen = s.ackSeen := rfl
@[simp] theorem failDecode_chkOk : (failDecode c s).chkOk = s.chkOk := rfl
@[simp] theorem failDecode_hostViol : (failDecode c s).hostViol = s.hostViol := rfl
@[simp] theorem failDecode_rxComplete : (failDecode c s).rxComplete = s.rxComplete := rfl
@[simp] theorem failDecode_state : (failDecode c s).state = .idle := rfl
@[simp] theorem failDecode_errcode : (failDecode c s).errcode = c := rfl
@[simp] theorem failDecode_plen : (failDecode c s).plen = s.plen := rfl
@[simp] theorem failDecode_txLen : (failDecode c s).txLen = s.txLen := rfl
@[simp] theorem failDecode_rxLen : (failDecode c s).rxLen = s.rxLen := rfl
@[simp] theorem failDecode_dbLen : (failDecode c s).dbLen = 0 := rfl
@[simp] theorem failDecode_rplOff : (failDecode c s).rplOff = s.rplOff := rfl
@[simp] theorem failDecode_rplLen : (failDecode c s).rplLen = s.rplLen := rfl
@[simp] theorem failDecode_txSum : (failDecode c s).txSum = s.txSum := rfl
@[simp] theorem failDecode_rxSum : (failDecode c s).rxSum = s.rxSum := rfl
@[simp] theorem failDecode_rxField : (failDecode c s).rxField = s.rxField := rfl
@[simp] theorem failDecode_attempts : (failDecode c s).attempts = s.attempts := rfl
@[simp] theorem failDecode_xmode : (failDecode c s).xmode = s.xmode := rfl
@[simp] theorem failDecode_txLog : (failDecode c s).txLog = s.txLog := rfl
@[simp] theorem failDecode_pending : (failDecode c s).pending = s.pending := rfl
@[simp] theorem failDecode_draws : (failDecode c s).draws = s.draws := rfl
@[simp] theorem failDecode_readData : (failDecode c s).readData = s.readData := rfl

end failDecode

section clearView
variable (s : State)

@[simp] theorem clearView_cfg : (clearView s).cfg = s.cfg := rfl
@[simp] theorem clearView_pb : (clearView s).pb = s.pb := rfl
@[simp] theorem clearView_txb : (clearView s).txb = s.txb := rfl
@[simp] theorem clearView_rxb : (clearView s).rxb = s.rxb := rfl
@[simp] theorem clearView_db : (clearView s).db = s.db := rfl
@[simp] theorem clearView_verifyEn : (clearView s).verifyEn = s.verifyEn := rfl
@[simp] theorem clearView_rleEn : (clearView s).rleEn = s.rleEn := rfl
@[simp] theorem clearView_irqEn : (clearView s).irqEn = s.irqEn := rfl
@[simp] theorem clearView_busy : (clearView s).busy = s.busy := rfl
@[simp] theorem clearView_done : (clearView s).done = s.done := rfl
@[simp] theorem clearView_err : (clearView s).err = s.err := rfl
@[simp] theorem clearView_ackSeen : (clearView s).ackSeen = s.ackSeen := rfl
@[simp] theorem clearView_chkOk : (clearView s).chkOk = false := rfl
@[simp] theorem clearView_hostViol : (clearView s).hostViol = s.hostViol := rfl
@[simp] theorem clearView_rxComplete : (clearView s).rxComplete = s.rxComplete := rfl
@[simp] theorem clearView_state : (clearView s).state = s.state := rfl
@[simp] theorem clearView_errcode : (clearView s).errcode = s.errcode := rfl
@[simp] theorem clearView_plen : (clearView s).plen = s.plen := rfl
@[simp] theorem clearView_txLen : (clearView s).txLen = s.txLen := rfl
@[simp] theorem clearView_rxLen : (clearView s).rxLen = s.rxLen := rfl
@[simp] theorem clearView_dbLen : (clearView s).dbLen = s.dbLen := rfl
@[simp] theorem clearView_rplOff : (clearView s).rplOff = 0 := rfl
@[simp] theorem clearView_rplLen : (clearView s).rplLen = 0 := rfl
@[simp] theorem clearView_txSum : (clearView s).txSum = s.txSum := rfl
@[simp] theorem clearView_rxSum : (clearView s).rxSum = 0 := rfl
@[simp] theorem clearView_rxField : (clearView s).rxField = 0 := rfl
@[simp] theorem clearView_attempts : (clearView s).attempts = s.attempts := rfl
@[simp] theorem clearView_xmode : (clearView s).xmode = s.xmode := rfl
@[simp] theorem clearView_txLog : (clearView s).txLog = s.txLog := rfl
@[simp] theorem clearView_pending : (clearView s).pending = s.pending := rfl
@[simp] theorem clearView_draws : (clearView s).draws = s.draws := rfl
@[simp] theorem clearView_readData : (clearView s).readData = s.readData := rfl

end clearView

section refuseHost
variable (s : State)

@[simp] theorem refuseHost_cfg : (refuseHost s).cfg = s.cfg := rfl
@[simp] theorem refuseHost_pb : (refuseHost s).pb = s.pb := rfl
@[simp] theorem refuseHost_txb : (refuseHost s).txb = s.txb := rfl
@[simp] theorem refuseHost_rxb : (refuseHost s).rxb = s.rxb := rfl
@[simp] theorem refuseHost_db : (refuseHost s).db = s.db := rfl
@[simp] theorem refuseHost_verifyEn : (refuseHost s).verifyEn = s.verifyEn := rfl
@[simp] theorem refuseHost_rleEn : (refuseHost s).rleEn = s.rleEn := rfl
@[simp] theorem refuseHost_irqEn : (refuseHost s).irqEn = s.irqEn := rfl
@[simp] theorem refuseHost_busy : (refuseHost s).busy = s.busy := rfl
@[simp] theorem refuseHost_done : (refuseHost s).done = s.done := rfl
@[simp] theorem refuseHost_err : (refuseHost s).err = s.err := rfl
@[simp] theorem refuseHost_ackSeen : (refuseHost s).ackSeen = s.ackSeen := rfl
@[simp] theorem refuseHost_chkOk : (refuseHost s).chkOk = s.chkOk := rfl
@[simp] theorem refuseHost_hostViol : (refuseHost s).hostViol = true := rfl
@[simp] theorem refuseHost_rxComplete : (refuseHost s).rxComplete = s.rxComplete := rfl
@[simp] theorem refuseHost_state : (refuseHost s).state = s.state := rfl
@[simp] theorem refuseHost_errcode : (refuseHost s).errcode = s.errcode := rfl
@[simp] theorem refuseHost_plen : (refuseHost s).plen = s.plen := rfl
@[simp] theorem refuseHost_txLen : (refuseHost s).txLen = s.txLen := rfl
@[simp] theorem refuseHost_rxLen : (refuseHost s).rxLen = s.rxLen := rfl
@[simp] theorem refuseHost_dbLen : (refuseHost s).dbLen = s.dbLen := rfl
@[simp] theorem refuseHost_rplOff : (refuseHost s).rplOff = s.rplOff := rfl
@[simp] theorem refuseHost_rplLen : (refuseHost s).rplLen = s.rplLen := rfl
@[simp] theorem refuseHost_txSum : (refuseHost s).txSum = s.txSum := rfl
@[simp] theorem refuseHost_rxSum : (refuseHost s).rxSum = s.rxSum := rfl
@[simp] theorem refuseHost_rxField : (refuseHost s).rxField = s.rxField := rfl
@[simp] theorem refuseHost_attempts : (refuseHost s).attempts = s.attempts := rfl
@[simp] theorem refuseHost_xmode : (refuseHost s).xmode = s.xmode := rfl
@[simp] theorem refuseHost_txLog : (refuseHost s).txLog = s.txLog := rfl
@[simp] theorem refuseHost_pending : (refuseHost s).pending = s.pending := rfl
@[simp] theorem refuseHost_draws : (refuseHost s).draws = s.draws := rfl
@[simp] theorem refuseHost_readData : (refuseHost s).readData = s.readData := rfl

end refuseHost

section storeFrame
variable (f : List Byte) (c : Byte) (s : State)

@[simp] theorem storeFrame_cfg : (storeFrame f c s).cfg = s.cfg := rfl
@[simp] theorem storeFrame_pb : (storeFrame f c s).pb = s.pb := rfl
@[simp] theorem storeFrame_txb : (storeFrame f c s).txb = Memory.writeRange s.txb 0 f := rfl
@[simp] theorem storeFrame_rxb : (storeFrame f c s).rxb = s.rxb := rfl
@[simp] theorem storeFrame_db : (storeFrame f c s).db = s.db := rfl
@[simp] theorem storeFrame_verifyEn : (storeFrame f c s).verifyEn = s.verifyEn := rfl
@[simp] theorem storeFrame_rleEn : (storeFrame f c s).rleEn = s.rleEn := rfl
@[simp] theorem storeFrame_irqEn : (storeFrame f c s).irqEn = s.irqEn := rfl
@[simp] theorem storeFrame_busy : (storeFrame f c s).busy = s.busy := rfl
@[simp] theorem storeFrame_done : (storeFrame f c s).done = s.done := rfl
@[simp] theorem storeFrame_err : (storeFrame f c s).err = s.err := rfl
@[simp] theorem storeFrame_ackSeen : (storeFrame f c s).ackSeen = s.ackSeen := rfl
@[simp] theorem storeFrame_chkOk : (storeFrame f c s).chkOk = s.chkOk := rfl
@[simp] theorem storeFrame_hostViol : (storeFrame f c s).hostViol = s.hostViol := rfl
@[simp] theorem storeFrame_rxComplete : (storeFrame f c s).rxComplete = s.rxComplete := rfl
@[simp] theorem storeFrame_state : (storeFrame f c s).state = s.state := rfl
@[simp] theorem storeFrame_errcode : (storeFrame f c s).errcode = s.errcode := rfl
@[simp] theorem storeFrame_plen : (storeFrame f c s).plen = s.plen := rfl
@[simp] theorem storeFrame_txLen : (storeFrame f c s).txLen = lengthWord f.length := rfl
@[simp] theorem storeFrame_rxLen : (storeFrame f c s).rxLen = s.rxLen := rfl
@[simp] theorem storeFrame_dbLen : (storeFrame f c s).dbLen = s.dbLen := rfl
@[simp] theorem storeFrame_rplOff : (storeFrame f c s).rplOff = s.rplOff := rfl
@[simp] theorem storeFrame_rplLen : (storeFrame f c s).rplLen = s.rplLen := rfl
@[simp] theorem storeFrame_txSum : (storeFrame f c s).txSum = zext32 c := rfl
@[simp] theorem storeFrame_rxSum : (storeFrame f c s).rxSum = s.rxSum := rfl
@[simp] theorem storeFrame_rxField : (storeFrame f c s).rxField = s.rxField := rfl
@[simp] theorem storeFrame_attempts : (storeFrame f c s).attempts = s.attempts := rfl
@[simp] theorem storeFrame_xmode : (storeFrame f c s).xmode = s.xmode := rfl
@[simp] theorem storeFrame_txLog : (storeFrame f c s).txLog = s.txLog := rfl
@[simp] theorem storeFrame_pending : (storeFrame f c s).pending = s.pending := rfl
@[simp] theorem storeFrame_draws : (storeFrame f c s).draws = s.draws := rfl
@[simp] theorem storeFrame_readData : (storeFrame f c s).readData = s.readData := rfl

end storeFrame

section storeDecoded
variable (d : List Byte) (s : State)

@[simp] theorem storeDecoded_cfg : (storeDecoded d s).cfg = s.cfg := rfl
@[simp] theorem storeDecoded_pb : (storeDecoded d s).pb = s.pb := rfl
@[simp] theorem storeDecoded_txb : (storeDecoded d s).txb = s.txb := rfl
@[simp] theorem storeDecoded_rxb : (storeDecoded d s).rxb = s.rxb := rfl
@[simp] theorem storeDecoded_db : (storeDecoded d s).db = Memory.writeRange s.db 0 d := rfl
@[simp] theorem storeDecoded_verifyEn : (storeDecoded d s).verifyEn = s.verifyEn := rfl
@[simp] theorem storeDecoded_rleEn : (storeDecoded d s).rleEn = s.rleEn := rfl
@[simp] theorem storeDecoded_irqEn : (storeDecoded d s).irqEn = s.irqEn := rfl
@[simp] theorem storeDecoded_busy : (storeDecoded d s).busy = s.busy := rfl
@[simp] theorem storeDecoded_done : (storeDecoded d s).done = s.done := rfl
@[simp] theorem storeDecoded_err : (storeDecoded d s).err = s.err := rfl
@[simp] theorem storeDecoded_ackSeen : (storeDecoded d s).ackSeen = s.ackSeen := rfl
@[simp] theorem storeDecoded_chkOk : (storeDecoded d s).chkOk = s.chkOk := rfl
@[simp] theorem storeDecoded_hostViol : (storeDecoded d s).hostViol = s.hostViol := rfl
@[simp] theorem storeDecoded_rxComplete : (storeDecoded d s).rxComplete = s.rxComplete := rfl
@[simp] theorem storeDecoded_state : (storeDecoded d s).state = s.state := rfl
@[simp] theorem storeDecoded_errcode : (storeDecoded d s).errcode = s.errcode := rfl
@[simp] theorem storeDecoded_plen : (storeDecoded d s).plen = s.plen := rfl
@[simp] theorem storeDecoded_txLen : (storeDecoded d s).txLen = s.txLen := rfl
@[simp] theorem storeDecoded_rxLen : (storeDecoded d s).rxLen = s.rxLen := rfl
@[simp] theorem storeDecoded_dbLen : (storeDecoded d s).dbLen = lengthWord d.length := rfl
@[simp] theorem storeDecoded_rplOff : (storeDecoded d s).rplOff = s.rplOff := rfl
@[simp] theorem storeDecoded_rplLen : (storeDecoded d s).rplLen = s.rplLen := rfl
@[simp] theorem storeDecoded_txSum : (storeDecoded d s).txSum = s.txSum := rfl
@[simp] theorem storeDecoded_rxSum : (storeDecoded d s).rxSum = s.rxSum := rfl
@[simp] theorem storeDecoded_rxField : (storeDecoded d s).rxField = s.rxField := rfl
@[simp] theorem storeDecoded_attempts : (storeDecoded d s).attempts = s.attempts := rfl
@[simp] theorem storeDecoded_xmode : (storeDecoded d s).xmode = s.xmode := rfl
@[simp] theorem storeDecoded_txLog : (storeDecoded d s).txLog = s.txLog := rfl
@[simp] theorem storeDecoded_pending : (storeDecoded d s).pending = s.pending := rfl
@[simp] theorem storeDecoded_draws : (storeDecoded d s).draws = s.draws := rfl
@[simp] theorem storeDecoded_readData : (storeDecoded d s).readData = s.readData := rfl

end storeDecoded

section showSums
variable (v : ReplyView) (s : State)

@[simp] theorem showSums_cfg : (showSums v s).cfg = s.cfg := rfl
@[simp] theorem showSums_pb : (showSums v s).pb = s.pb := rfl
@[simp] theorem showSums_txb : (showSums v s).txb = s.txb := rfl
@[simp] theorem showSums_rxb : (showSums v s).rxb = s.rxb := rfl
@[simp] theorem showSums_db : (showSums v s).db = s.db := rfl
@[simp] theorem showSums_verifyEn : (showSums v s).verifyEn = s.verifyEn := rfl
@[simp] theorem showSums_rleEn : (showSums v s).rleEn = s.rleEn := rfl
@[simp] theorem showSums_irqEn : (showSums v s).irqEn = s.irqEn := rfl
@[simp] theorem showSums_busy : (showSums v s).busy = s.busy := rfl
@[simp] theorem showSums_done : (showSums v s).done = s.done := rfl
@[simp] theorem showSums_err : (showSums v s).err = s.err := rfl
@[simp] theorem showSums_ackSeen : (showSums v s).ackSeen = s.ackSeen := rfl
@[simp] theorem showSums_chkOk : (showSums v s).chkOk = s.chkOk := rfl
@[simp] theorem showSums_hostViol : (showSums v s).hostViol = s.hostViol := rfl
@[simp] theorem showSums_rxComplete : (showSums v s).rxComplete = s.rxComplete := rfl
@[simp] theorem showSums_state : (showSums v s).state = s.state := rfl
@[simp] theorem showSums_errcode : (showSums v s).errcode = s.errcode := rfl
@[simp] theorem showSums_plen : (showSums v s).plen = s.plen := rfl
@[simp] theorem showSums_txLen : (showSums v s).txLen = s.txLen := rfl
@[simp] theorem showSums_rxLen : (showSums v s).rxLen = s.rxLen := rfl
@[simp] theorem showSums_dbLen : (showSums v s).dbLen = s.dbLen := rfl
@[simp] theorem showSums_rplOff : (showSums v s).rplOff = s.rplOff := rfl
@[simp] theorem showSums_rplLen : (showSums v s).rplLen = s.rplLen := rfl
@[simp] theorem showSums_txSum : (showSums v s).txSum = s.txSum := rfl
@[simp] theorem showSums_rxSum : (showSums v s).rxSum = zext32 v.sum := rfl
@[simp] theorem showSums_rxField : (showSums v s).rxField = fieldWord v.field := rfl
@[simp] theorem showSums_attempts : (showSums v s).attempts = s.attempts := rfl
@[simp] theorem showSums_xmode : (showSums v s).xmode = s.xmode := rfl
@[simp] theorem showSums_txLog : (showSums v s).txLog = s.txLog := rfl
@[simp] theorem showSums_pending : (showSums v s).pending = s.pending := rfl
@[simp] theorem showSums_draws : (showSums v s).draws = s.draws := rfl
@[simp] theorem showSums_readData : (showSums v s).readData = s.readData := rfl

end showSums

section showView
variable (v : ReplyView) (s : State)

@[simp] theorem showView_cfg : (showView v s).cfg = s.cfg := rfl
@[simp] theorem showView_pb : (showView v s).pb = s.pb := rfl
@[simp] theorem showView_txb : (showView v s).txb = s.txb := rfl
@[simp] theorem showView_rxb : (showView v s).rxb = s.rxb := rfl
@[simp] theorem showView_db : (showView v s).db = s.db := rfl
@[simp] theorem showView_verifyEn : (showView v s).verifyEn = s.verifyEn := rfl
@[simp] theorem showView_rleEn : (showView v s).rleEn = s.rleEn := rfl
@[simp] theorem showView_irqEn : (showView v s).irqEn = s.irqEn := rfl
@[simp] theorem showView_busy : (showView v s).busy = s.busy := rfl
@[simp] theorem showView_done : (showView v s).done = s.done := rfl
@[simp] theorem showView_err : (showView v s).err = s.err := rfl
@[simp] theorem showView_ackSeen : (showView v s).ackSeen = s.ackSeen := rfl
@[simp] theorem showView_chkOk : (showView v s).chkOk = s.chkOk := rfl
@[simp] theorem showView_hostViol : (showView v s).hostViol = s.hostViol := rfl
@[simp] theorem showView_rxComplete : (showView v s).rxComplete = s.rxComplete := rfl
@[simp] theorem showView_state : (showView v s).state = s.state := rfl
@[simp] theorem showView_errcode : (showView v s).errcode = s.errcode := rfl
@[simp] theorem showView_plen : (showView v s).plen = s.plen := rfl
@[simp] theorem showView_txLen : (showView v s).txLen = s.txLen := rfl
@[simp] theorem showView_rxLen : (showView v s).rxLen = s.rxLen := rfl
@[simp] theorem showView_dbLen : (showView v s).dbLen = s.dbLen := rfl
@[simp] theorem showView_rplOff : (showView v s).rplOff = lengthWord v.off := rfl
@[simp] theorem showView_rplLen : (showView v s).rplLen = lengthWord v.len := rfl
@[simp] theorem showView_txSum : (showView v s).txSum = s.txSum := rfl
@[simp] theorem showView_rxSum : (showView v s).rxSum = s.rxSum := rfl
@[simp] theorem showView_rxField : (showView v s).rxField = s.rxField := rfl
@[simp] theorem showView_attempts : (showView v s).attempts = s.attempts := rfl
@[simp] theorem showView_xmode : (showView v s).xmode = s.xmode := rfl
@[simp] theorem showView_txLog : (showView v s).txLog = s.txLog := rfl
@[simp] theorem showView_pending : (showView v s).pending = s.pending := rfl
@[simp] theorem showView_draws : (showView v s).draws = s.draws := rfl
@[simp] theorem showView_readData : (showView v s).readData = s.readData := rfl

end showView

section beginTransaction
variable (m : Mode) (s : State)

@[simp] theorem beginTransaction_cfg : (beginTransaction m s).cfg = s.cfg := rfl
@[simp] theorem beginTransaction_pb : (beginTransaction m s).pb = s.pb := rfl
@[simp] theorem beginTransaction_txb : (beginTransaction m s).txb = s.txb := rfl
@[simp] theorem beginTransaction_rxb : (beginTransaction m s).rxb = s.rxb := rfl
@[simp] theorem beginTransaction_db : (beginTransaction m s).db = s.db := rfl
@[simp] theorem beginTransaction_verifyEn : (beginTransaction m s).verifyEn = s.verifyEn := rfl
@[simp] theorem beginTransaction_rleEn : (beginTransaction m s).rleEn = s.rleEn := rfl
@[simp] theorem beginTransaction_irqEn : (beginTransaction m s).irqEn = s.irqEn := rfl
@[simp] theorem beginTransaction_busy : (beginTransaction m s).busy = s.busy := rfl
@[simp] theorem beginTransaction_done : (beginTransaction m s).done = false := rfl
@[simp] theorem beginTransaction_err : (beginTransaction m s).err = false := rfl
@[simp] theorem beginTransaction_ackSeen : (beginTransaction m s).ackSeen = false := rfl
@[simp] theorem beginTransaction_chkOk : (beginTransaction m s).chkOk = false := rfl
@[simp] theorem beginTransaction_hostViol : (beginTransaction m s).hostViol = s.hostViol := rfl
@[simp] theorem beginTransaction_rxComplete : (beginTransaction m s).rxComplete = false := rfl
@[simp] theorem beginTransaction_state : (beginTransaction m s).state = s.state := rfl
@[simp] theorem beginTransaction_errcode : (beginTransaction m s).errcode = .none := rfl
@[simp] theorem beginTransaction_plen : (beginTransaction m s).plen = s.plen := rfl
@[simp] theorem beginTransaction_txLen : (beginTransaction m s).txLen = s.txLen := rfl
@[simp] theorem beginTransaction_rxLen : (beginTransaction m s).rxLen = s.rxLen := rfl
@[simp] theorem beginTransaction_dbLen : (beginTransaction m s).dbLen = 0 := rfl
@[simp] theorem beginTransaction_rplOff : (beginTransaction m s).rplOff = 0 := rfl
@[simp] theorem beginTransaction_rplLen : (beginTransaction m s).rplLen = 0 := rfl
@[simp] theorem beginTransaction_txSum : (beginTransaction m s).txSum = s.txSum := rfl
@[simp] theorem beginTransaction_rxSum : (beginTransaction m s).rxSum = 0 := rfl
@[simp] theorem beginTransaction_rxField : (beginTransaction m s).rxField = 0 := rfl
@[simp] theorem beginTransaction_attempts : (beginTransaction m s).attempts = 0 := rfl
@[simp] theorem beginTransaction_xmode : (beginTransaction m s).xmode = m := rfl
@[simp] theorem beginTransaction_txLog : (beginTransaction m s).txLog = s.txLog := rfl
@[simp] theorem beginTransaction_pending : (beginTransaction m s).pending = s.pending := rfl
@[simp] theorem beginTransaction_draws : (beginTransaction m s).draws = s.draws := rfl
@[simp] theorem beginTransaction_readData : (beginTransaction m s).readData = s.readData := rfl

end beginTransaction

section beginAttempt
variable (s : State)

@[simp] theorem beginAttempt_cfg : (beginAttempt s).cfg = s.cfg := rfl
@[simp] theorem beginAttempt_pb : (beginAttempt s).pb = s.pb := rfl
@[simp] theorem beginAttempt_txb : (beginAttempt s).txb = s.txb := rfl
@[simp] theorem beginAttempt_rxb : (beginAttempt s).rxb = s.rxb := rfl
@[simp] theorem beginAttempt_db : (beginAttempt s).db = s.db := rfl
@[simp] theorem beginAttempt_verifyEn : (beginAttempt s).verifyEn = s.verifyEn := rfl
@[simp] theorem beginAttempt_rleEn : (beginAttempt s).rleEn = s.rleEn := rfl
@[simp] theorem beginAttempt_irqEn : (beginAttempt s).irqEn = s.irqEn := rfl
@[simp] theorem beginAttempt_busy : (beginAttempt s).busy = s.busy := rfl
@[simp] theorem beginAttempt_done : (beginAttempt s).done = s.done := rfl
@[simp] theorem beginAttempt_err : (beginAttempt s).err = s.err := rfl
@[simp] theorem beginAttempt_ackSeen : (beginAttempt s).ackSeen = false := rfl
@[simp] theorem beginAttempt_chkOk : (beginAttempt s).chkOk = s.chkOk := rfl
@[simp] theorem beginAttempt_hostViol : (beginAttempt s).hostViol = s.hostViol := rfl
@[simp] theorem beginAttempt_rxComplete : (beginAttempt s).rxComplete = false := rfl
@[simp] theorem beginAttempt_state : (beginAttempt s).state = s.state := rfl
@[simp] theorem beginAttempt_errcode : (beginAttempt s).errcode = s.errcode := rfl
@[simp] theorem beginAttempt_plen : (beginAttempt s).plen = s.plen := rfl
@[simp] theorem beginAttempt_txLen : (beginAttempt s).txLen = s.txLen := rfl
@[simp] theorem beginAttempt_rxLen : (beginAttempt s).rxLen = 0 := rfl
@[simp] theorem beginAttempt_dbLen : (beginAttempt s).dbLen = s.dbLen := rfl
@[simp] theorem beginAttempt_rplOff : (beginAttempt s).rplOff = s.rplOff := rfl
@[simp] theorem beginAttempt_rplLen : (beginAttempt s).rplLen = s.rplLen := rfl
@[simp] theorem beginAttempt_txSum : (beginAttempt s).txSum = s.txSum := rfl
@[simp] theorem beginAttempt_rxSum : (beginAttempt s).rxSum = s.rxSum := rfl
@[simp] theorem beginAttempt_rxField : (beginAttempt s).rxField = s.rxField := rfl
@[simp] theorem beginAttempt_attempts : (beginAttempt s).attempts = s.attempts + 1 := rfl
@[simp] theorem beginAttempt_xmode : (beginAttempt s).xmode = s.xmode := rfl
@[simp] theorem beginAttempt_txLog : (beginAttempt s).txLog = s.txLog := rfl
@[simp] theorem beginAttempt_pending : (beginAttempt s).pending = s.pending := rfl
@[simp] theorem beginAttempt_draws : (beginAttempt s).draws = s.draws := rfl
@[simp] theorem beginAttempt_readData : (beginAttempt s).readData = s.readData := rfl

end beginAttempt

section linkSend
variable (f : List Byte) (o : TxOutcome) (s : State)

@[simp] theorem linkSend_cfg : (linkSend f o s).cfg = s.cfg := rfl
@[simp] theorem linkSend_pb : (linkSend f o s).pb = s.pb := rfl
@[simp] theorem linkSend_txb : (linkSend f o s).txb = s.txb := rfl
@[simp] theorem linkSend_rxb : (linkSend f o s).rxb = s.rxb := rfl
@[simp] theorem linkSend_db : (linkSend f o s).db = s.db := rfl
@[simp] theorem linkSend_verifyEn : (linkSend f o s).verifyEn = s.verifyEn := rfl
@[simp] theorem linkSend_rleEn : (linkSend f o s).rleEn = s.rleEn := rfl
@[simp] theorem linkSend_irqEn : (linkSend f o s).irqEn = s.irqEn := rfl
@[simp] theorem linkSend_busy : (linkSend f o s).busy = s.busy := rfl
@[simp] theorem linkSend_done : (linkSend f o s).done = s.done := rfl
@[simp] theorem linkSend_err : (linkSend f o s).err = s.err := rfl
@[simp] theorem linkSend_ackSeen : (linkSend f o s).ackSeen = s.ackSeen := rfl
@[simp] theorem linkSend_chkOk : (linkSend f o s).chkOk = s.chkOk := rfl
@[simp] theorem linkSend_hostViol : (linkSend f o s).hostViol = s.hostViol := rfl
@[simp] theorem linkSend_rxComplete : (linkSend f o s).rxComplete = s.rxComplete := rfl
@[simp] theorem linkSend_state : (linkSend f o s).state = s.state := rfl
@[simp] theorem linkSend_errcode : (linkSend f o s).errcode = s.errcode := rfl
@[simp] theorem linkSend_plen : (linkSend f o s).plen = s.plen := rfl
@[simp] theorem linkSend_txLen : (linkSend f o s).txLen = s.txLen := rfl
@[simp] theorem linkSend_rxLen : (linkSend f o s).rxLen = s.rxLen := rfl
@[simp] theorem linkSend_dbLen : (linkSend f o s).dbLen = s.dbLen := rfl
@[simp] theorem linkSend_rplOff : (linkSend f o s).rplOff = s.rplOff := rfl
@[simp] theorem linkSend_rplLen : (linkSend f o s).rplLen = s.rplLen := rfl
@[simp] theorem linkSend_txSum : (linkSend f o s).txSum = s.txSum := rfl
@[simp] theorem linkSend_rxSum : (linkSend f o s).rxSum = s.rxSum := rfl
@[simp] theorem linkSend_rxField : (linkSend f o s).rxField = s.rxField := rfl
@[simp] theorem linkSend_attempts : (linkSend f o s).attempts = s.attempts := rfl
@[simp] theorem linkSend_xmode : (linkSend f o s).xmode = s.xmode := rfl
@[simp] theorem linkSend_txLog : (linkSend f o s).txLog = s.txLog ++ [(f, o)] := rfl
@[simp] theorem linkSend_pending : (linkSend f o s).pending = s.pending := rfl
@[simp] theorem linkSend_draws : (linkSend f o s).draws = s.draws := rfl
@[simp] theorem linkSend_readData : (linkSend f o s).readData = s.readData := rfl

end linkSend

section storeChunk
variable (p : Params) (b : Byte) (c : List Byte) (s : State)

@[simp] theorem storeChunk_cfg : (storeChunk p b c s).cfg = s.cfg := rfl
@[simp] theorem storeChunk_pb : (storeChunk p b c s).pb = s.pb := rfl
@[simp] theorem storeChunk_txb : (storeChunk p b c s).txb = s.txb := rfl
@[simp] theorem storeChunk_rxb : (storeChunk p b c s).rxb = Memory.writeRange s.rxb s.rxLen.toNat (b :: c) := rfl
@[simp] theorem storeChunk_db : (storeChunk p b c s).db = s.db := rfl
@[simp] theorem storeChunk_verifyEn : (storeChunk p b c s).verifyEn = s.verifyEn := rfl
@[simp] theorem storeChunk_rleEn : (storeChunk p b c s).rleEn = s.rleEn := rfl
@[simp] theorem storeChunk_irqEn : (storeChunk p b c s).irqEn = s.irqEn := rfl
@[simp] theorem storeChunk_busy : (storeChunk p b c s).busy = s.busy := rfl
@[simp] theorem storeChunk_done : (storeChunk p b c s).done = s.done := rfl
@[simp] theorem storeChunk_err : (storeChunk p b c s).err = s.err := rfl
@[simp] theorem storeChunk_ackSeen : (storeChunk p b c s).ackSeen = if s.rxLen.toNat = 0 then b == p.ackByte else s.ackSeen := rfl
@[simp] theorem storeChunk_chkOk : (storeChunk p b c s).chkOk = s.chkOk := rfl
@[simp] theorem storeChunk_hostViol : (storeChunk p b c s).hostViol = s.hostViol := rfl
@[simp] theorem storeChunk_rxComplete : (storeChunk p b c s).rxComplete = s.rxComplete := rfl
@[simp] theorem storeChunk_state : (storeChunk p b c s).state = s.state := rfl
@[simp] theorem storeChunk_errcode : (storeChunk p b c s).errcode = s.errcode := rfl
@[simp] theorem storeChunk_plen : (storeChunk p b c s).plen = s.plen := rfl
@[simp] theorem storeChunk_txLen : (storeChunk p b c s).txLen = s.txLen := rfl
@[simp] theorem storeChunk_rxLen : (storeChunk p b c s).rxLen = lengthWord (s.rxLen.toNat + (b :: c).length) := rfl
@[simp] theorem storeChunk_dbLen : (storeChunk p b c s).dbLen = s.dbLen := rfl
@[simp] theorem storeChunk_rplOff : (storeChunk p b c s).rplOff = s.rplOff := rfl
@[simp] theorem storeChunk_rplLen : (storeChunk p b c s).rplLen = s.rplLen := rfl
@[simp] theorem storeChunk_txSum : (storeChunk p b c s).txSum = s.txSum := rfl
@[simp] theorem storeChunk_rxSum : (storeChunk p b c s).rxSum = s.rxSum := rfl
@[simp] theorem storeChunk_rxField : (storeChunk p b c s).rxField = s.rxField := rfl
@[simp] theorem storeChunk_attempts : (storeChunk p b c s).attempts = s.attempts := rfl
@[simp] theorem storeChunk_xmode : (storeChunk p b c s).xmode = s.xmode := rfl
@[simp] theorem storeChunk_txLog : (storeChunk p b c s).txLog = s.txLog := rfl
@[simp] theorem storeChunk_pending : (storeChunk p b c s).pending = s.pending := rfl
@[simp] theorem storeChunk_draws : (storeChunk p b c s).draws = s.draws := rfl
@[simp] theorem storeChunk_readData : (storeChunk p b c s).readData = s.readData := rfl

end storeChunk

section completeReceive
variable (s : State)

@[simp] theorem completeReceive_cfg : (completeReceive s).cfg = s.cfg := rfl
@[simp] theorem completeReceive_pb : (completeReceive s).pb = s.pb := rfl
@[simp] theorem completeReceive_txb : (completeReceive s).txb = s.txb := rfl
@[simp] theorem completeReceive_rxb : (completeReceive s).rxb = s.rxb := rfl
@[simp] theorem completeReceive_db : (completeReceive s).db = s.db := rfl
@[simp] theorem completeReceive_verifyEn : (completeReceive s).verifyEn = s.verifyEn := rfl
@[simp] theorem completeReceive_rleEn : (completeReceive s).rleEn = s.rleEn := rfl
@[simp] theorem completeReceive_irqEn : (completeReceive s).irqEn = s.irqEn := rfl
@[simp] theorem completeReceive_busy : (completeReceive s).busy = s.busy := rfl
@[simp] theorem completeReceive_done : (completeReceive s).done = s.done := rfl
@[simp] theorem completeReceive_err : (completeReceive s).err = s.err := rfl
@[simp] theorem completeReceive_ackSeen : (completeReceive s).ackSeen = s.ackSeen := rfl
@[simp] theorem completeReceive_chkOk : (completeReceive s).chkOk = s.chkOk := rfl
@[simp] theorem completeReceive_hostViol : (completeReceive s).hostViol = s.hostViol := rfl
@[simp] theorem completeReceive_rxComplete : (completeReceive s).rxComplete = true := rfl
@[simp] theorem completeReceive_state : (completeReceive s).state = if s.ackSeen then .decode else .check := rfl
@[simp] theorem completeReceive_errcode : (completeReceive s).errcode = s.errcode := rfl
@[simp] theorem completeReceive_plen : (completeReceive s).plen = s.plen := rfl
@[simp] theorem completeReceive_txLen : (completeReceive s).txLen = s.txLen := rfl
@[simp] theorem completeReceive_rxLen : (completeReceive s).rxLen = s.rxLen := rfl
@[simp] theorem completeReceive_dbLen : (completeReceive s).dbLen = s.dbLen := rfl
@[simp] theorem completeReceive_rplOff : (completeReceive s).rplOff = s.rplOff := rfl
@[simp] theorem completeReceive_rplLen : (completeReceive s).rplLen = s.rplLen := rfl
@[simp] theorem completeReceive_txSum : (completeReceive s).txSum = s.txSum := rfl
@[simp] theorem completeReceive_rxSum : (completeReceive s).rxSum = s.rxSum := rfl
@[simp] theorem completeReceive_rxField : (completeReceive s).rxField = s.rxField := rfl
@[simp] theorem completeReceive_attempts : (completeReceive s).attempts = s.attempts := rfl
@[simp] theorem completeReceive_xmode : (completeReceive s).xmode = s.xmode := rfl
@[simp] theorem completeReceive_txLog : (completeReceive s).txLog = s.txLog := rfl
@[simp] theorem completeReceive_pending : (completeReceive s).pending = s.pending := rfl
@[simp] theorem completeReceive_draws : (completeReceive s).draws = s.draws := rfl
@[simp] theorem completeReceive_readData : (completeReceive s).readData = s.readData := rfl

end completeReceive

section clearFlags
variable (s : State)

@[simp] theorem clearFlags_cfg : (clearFlags s).cfg = s.cfg := rfl
@[simp] theorem clearFlags_pb : (clearFlags s).pb = s.pb := rfl
@[simp] theorem clearFlags_txb : (clearFlags s).txb = s.txb := rfl
@[simp] theorem clearFlags_rxb : (clearFlags s).rxb = s.rxb := rfl
@[simp] theorem clearFlags_db : (clearFlags s).db = s.db := rfl
@[simp] theorem clearFlags_verifyEn : (clearFlags s).verifyEn = s.verifyEn := rfl
@[simp] theorem clearFlags_rleEn : (clearFlags s).rleEn = s.rleEn := rfl
@[simp] theorem clearFlags_irqEn : (clearFlags s).irqEn = s.irqEn := rfl
@[simp] theorem clearFlags_busy : (clearFlags s).busy = s.busy := rfl
@[simp] theorem clearFlags_done : (clearFlags s).done = false := rfl
@[simp] theorem clearFlags_err : (clearFlags s).err = false := rfl
@[simp] theorem clearFlags_ackSeen : (clearFlags s).ackSeen = false := rfl
@[simp] theorem clearFlags_chkOk : (clearFlags s).chkOk = false := rfl
@[simp] theorem clearFlags_hostViol : (clearFlags s).hostViol = false := rfl
@[simp] theorem clearFlags_rxComplete : (clearFlags s).rxComplete = false := rfl
@[simp] theorem clearFlags_state : (clearFlags s).state = s.state := rfl
@[simp] theorem clearFlags_errcode : (clearFlags s).errcode = .none := rfl
@[simp] theorem clearFlags_plen : (clearFlags s).plen = s.plen := rfl
@[simp] theorem clearFlags_txLen : (clearFlags s).txLen = s.txLen := rfl
@[simp] theorem clearFlags_rxLen : (clearFlags s).rxLen = s.rxLen := rfl
@[simp] theorem clearFlags_dbLen : (clearFlags s).dbLen = s.dbLen := rfl
@[simp] theorem clearFlags_rplOff : (clearFlags s).rplOff = s.rplOff := rfl
@[simp] theorem clearFlags_rplLen : (clearFlags s).rplLen = s.rplLen := rfl
@[simp] theorem clearFlags_txSum : (clearFlags s).txSum = s.txSum := rfl
@[simp] theorem clearFlags_rxSum : (clearFlags s).rxSum = s.rxSum := rfl
@[simp] theorem clearFlags_rxField : (clearFlags s).rxField = s.rxField := rfl
@[simp] theorem clearFlags_attempts : (clearFlags s).attempts = s.attempts := rfl
@[simp] theorem clearFlags_xmode : (clearFlags s).xmode = s.xmode := rfl
@[simp] theorem clearFlags_txLog : (clearFlags s).txLog = s.txLog := rfl
@[simp] theorem clearFlags_pending : (clearFlags s).pending = s.pending := rfl
@[simp] theorem clearFlags_draws : (clearFlags s).draws = s.draws := rfl
@[simp] theorem clearFlags_readData : (clearFlags s).readData = s.readData := rfl

end clearFlags

section writeCtrl
variable (v : Word) (s : State)

@[simp] theorem writeCtrl_cfg : (writeCtrl v s).cfg = s.cfg := rfl
@[simp] theorem writeCtrl_pb : (writeCtrl v s).pb = s.pb := rfl
@[simp] theorem writeCtrl_txb : (writeCtrl v s).txb = s.txb := rfl
@[simp] theorem writeCtrl_rxb : (writeCtrl v s).rxb = s.rxb := rfl
@[simp] theorem writeCtrl_db : (writeCtrl v s).db = s.db := rfl
@[simp] theorem writeCtrl_verifyEn : (writeCtrl v s).verifyEn = v.getLsbD 0 := rfl
@[simp] theorem writeCtrl_rleEn : (writeCtrl v s).rleEn = v.getLsbD 1 := rfl
@[simp] theorem writeCtrl_irqEn : (writeCtrl v s).irqEn = v.getLsbD 2 := rfl
@[simp] theorem writeCtrl_busy : (writeCtrl v s).busy = s.busy := rfl
@[simp] theorem writeCtrl_done : (writeCtrl v s).done = s.done := rfl
@[simp] theorem writeCtrl_err : (writeCtrl v s).err = s.err := rfl
@[simp] theorem writeCtrl_ackSeen : (writeCtrl v s).ackSeen = s.ackSeen := rfl
@[simp] theorem writeCtrl_chkOk : (writeCtrl v s).chkOk = s.chkOk := rfl
@[simp] theorem writeCtrl_hostViol : (writeCtrl v s).hostViol = s.hostViol := rfl
@[simp] theorem writeCtrl_rxComplete : (writeCtrl v s).rxComplete = s.rxComplete := rfl
@[simp] theorem writeCtrl_state : (writeCtrl v s).state = s.state := rfl
@[simp] theorem writeCtrl_errcode : (writeCtrl v s).errcode = s.errcode := rfl
@[simp] theorem writeCtrl_plen : (writeCtrl v s).plen = s.plen := rfl
@[simp] theorem writeCtrl_txLen : (writeCtrl v s).txLen = s.txLen := rfl
@[simp] theorem writeCtrl_rxLen : (writeCtrl v s).rxLen = s.rxLen := rfl
@[simp] theorem writeCtrl_dbLen : (writeCtrl v s).dbLen = s.dbLen := rfl
@[simp] theorem writeCtrl_rplOff : (writeCtrl v s).rplOff = s.rplOff := rfl
@[simp] theorem writeCtrl_rplLen : (writeCtrl v s).rplLen = s.rplLen := rfl
@[simp] theorem writeCtrl_txSum : (writeCtrl v s).txSum = s.txSum := rfl
@[simp] theorem writeCtrl_rxSum : (writeCtrl v s).rxSum = s.rxSum := rfl
@[simp] theorem writeCtrl_rxField : (writeCtrl v s).rxField = s.rxField := rfl
@[simp] theorem writeCtrl_attempts : (writeCtrl v s).attempts = s.attempts := rfl
@[simp] theorem writeCtrl_xmode : (writeCtrl v s).xmode = s.xmode := rfl
@[simp] theorem writeCtrl_txLog : (writeCtrl v s).txLog = s.txLog := rfl
@[simp] theorem writeCtrl_pending : (writeCtrl v s).pending = s.pending := rfl
@[simp] theorem writeCtrl_draws : (writeCtrl v s).draws = s.draws := rfl
@[simp] theorem writeCtrl_readData : (writeCtrl v s).readData = s.readData := rfl

end writeCtrl

section writePlen
variable (v : Word) (s : State)

@[simp] theorem writePlen_cfg : (writePlen v s).cfg = s.cfg := rfl
@[simp] theorem writePlen_pb : (writePlen v s).pb = s.pb := rfl
@[simp] theorem writePlen_txb : (writePlen v s).txb = s.txb := rfl
@[simp] theorem writePlen_rxb : (writePlen v s).rxb = s.rxb := rfl
@[simp] theorem writePlen_db : (writePlen v s).db = s.db := rfl
@[simp] theorem writePlen_verifyEn : (writePlen v s).verifyEn = s.verifyEn := rfl
@[simp] theorem writePlen_rleEn : (writePlen v s).rleEn = s.rleEn := rfl
@[simp] theorem writePlen_irqEn : (writePlen v s).irqEn = s.irqEn := rfl
@[simp] theorem writePlen_busy : (writePlen v s).busy = s.busy := rfl
@[simp] theorem writePlen_done : (writePlen v s).done = s.done := rfl
@[simp] theorem writePlen_err : (writePlen v s).err = s.err := rfl
@[simp] theorem writePlen_ackSeen : (writePlen v s).ackSeen = s.ackSeen := rfl
@[simp] theorem writePlen_chkOk : (writePlen v s).chkOk = s.chkOk := rfl
@[simp] theorem writePlen_hostViol : (writePlen v s).hostViol = s.hostViol := rfl
@[simp] theorem writePlen_rxComplete : (writePlen v s).rxComplete = s.rxComplete := rfl
@[simp] theorem writePlen_state : (writePlen v s).state = s.state := rfl
@[simp] theorem writePlen_errcode : (writePlen v s).errcode = s.errcode := rfl
@[simp] theorem writePlen_plen : (writePlen v s).plen = v := rfl
@[simp] theorem writePlen_txLen : (writePlen v s).txLen = s.txLen := rfl
@[simp] theorem writePlen_rxLen : (writePlen v s).rxLen = s.rxLen := rfl
@[simp] theorem writePlen_dbLen : (writePlen v s).dbLen = s.dbLen := rfl
@[simp] theorem writePlen_rplOff : (writePlen v s).rplOff = s.rplOff := rfl
@[simp] theorem writePlen_rplLen : (writePlen v s).rplLen = s.rplLen := rfl
@[simp] theorem writePlen_txSum : (writePlen v s).txSum = s.txSum := rfl
@[simp] theorem writePlen_rxSum : (writePlen v s).rxSum = s.rxSum := rfl
@[simp] theorem writePlen_rxField : (writePlen v s).rxField = s.rxField := rfl
@[simp] theorem writePlen_attempts : (writePlen v s).attempts = s.attempts := rfl
@[simp] theorem writePlen_xmode : (writePlen v s).xmode = s.xmode := rfl
@[simp] theorem writePlen_txLog : (writePlen v s).txLog = s.txLog := rfl
@[simp] theorem writePlen_pending : (writePlen v s).pending = s.pending := rfl
@[simp] theorem writePlen_draws : (writePlen v s).draws = s.draws := rfl
@[simp] theorem writePlen_readData : (writePlen v s).readData = s.readData := rfl

end writePlen

section writePayload
variable (i : Nat) (b : Byte) (s : State)

@[simp] theorem writePayload_cfg : (writePayload i b s).cfg = s.cfg := rfl
@[simp] theorem writePayload_pb : (writePayload i b s).pb = Memory.write s.pb i b := rfl
@[simp] theorem writePayload_txb : (writePayload i b s).txb = s.txb := rfl
@[simp] theorem writePayload_rxb : (writePayload i b s).rxb = s.rxb := rfl
@[simp] theorem writePayload_db : (writePayload i b s).db = s.db := rfl
@[simp] theorem writePayload_verifyEn : (writePayload i b s).verifyEn = s.verifyEn := rfl
@[simp] theorem writePayload_rleEn : (writePayload i b s).rleEn = s.rleEn := rfl
@[simp] theorem writePayload_irqEn : (writePayload i b s).irqEn = s.irqEn := rfl
@[simp] theorem writePayload_busy : (writePayload i b s).busy = s.busy := rfl
@[simp] theorem writePayload_done : (writePayload i b s).done = s.done := rfl
@[simp] theorem writePayload_err : (writePayload i b s).err = s.err := rfl
@[simp] theorem writePayload_ackSeen : (writePayload i b s).ackSeen = s.ackSeen := rfl
@[simp] theorem writePayload_chkOk : (writePayload i b s).chkOk = s.chkOk := rfl
@[simp] theorem writePayload_hostViol : (writePayload i b s).hostViol = s.hostViol := rfl
@[simp] theorem writePayload_rxComplete : (writePayload i b s).rxComplete = s.rxComplete := rfl
@[simp] theorem writePayload_state : (writePayload i b s).state = s.state := rfl
@[simp] theorem writePayload_errcode : (writePayload i b s).errcode = s.errcode := rfl
@[simp] theorem writePayload_plen : (writePayload i b s).plen = s.plen := rfl
@[simp] theorem writePayload_txLen : (writePayload i b s).txLen = s.txLen := rfl
@[simp] theorem writePayload_rxLen : (writePayload i b s).rxLen = s.rxLen := rfl
@[simp] theorem writePayload_dbLen : (writePayload i b s).dbLen = s.dbLen := rfl
@[simp] theorem writePayload_rplOff : (writePayload i b s).rplOff = s.rplOff := rfl
@[simp] theorem writePayload_rplLen : (writePayload i b s).rplLen = s.rplLen := rfl
@[simp] theorem writePayload_txSum : (writePayload i b s).txSum = s.txSum := rfl
@[simp] theorem writePayload_rxSum : (writePayload i b s).rxSum = s.rxSum := rfl
@[simp] theorem writePayload_rxField : (writePayload i b s).rxField = s.rxField := rfl
@[simp] theorem writePayload_attempts : (writePayload i b s).attempts = s.attempts := rfl
@[simp] theorem writePayload_xmode : (writePayload i b s).xmode = s.xmode := rfl
@[simp] theorem writePayload_txLog : (writePayload i b s).txLog = s.txLog := rfl
@[simp] theorem writePayload_pending : (writePayload i b s).pending = s.pending := rfl
@[simp] theorem writePayload_draws : (writePayload i b s).draws = s.draws := rfl
@[simp] theorem writePayload_readData : (writePayload i b s).readData = s.readData := rfl

end writePayload

section answerRead
variable (v : Word) (s : State)

@[simp] theorem answerRead_cfg : (answerRead v s).cfg = s.cfg := rfl
@[simp] theorem answerRead_pb : (answerRead v s).pb = s.pb := rfl
@[simp] theorem answerRead_txb : (answerRead v s).txb = s.txb := rfl
@[simp] theorem answerRead_rxb : (answerRead v s).rxb = s.rxb := rfl
@[simp] theorem answerRead_db : (answerRead v s).db = s.db := rfl
@[simp] theorem answerRead_verifyEn : (answerRead v s).verifyEn = s.verifyEn := rfl
@[simp] theorem answerRead_rleEn : (answerRead v s).rleEn = s.rleEn := rfl
@[simp] theorem answerRead_irqEn : (answerRead v s).irqEn = s.irqEn := rfl
@[simp] theorem answerRead_busy : (answerRead v s).busy = s.busy := rfl
@[simp] theorem answerRead_done : (answerRead v s).done = s.done := rfl
@[simp] theorem answerRead_err : (answerRead v s).err = s.err := rfl
@[simp] theorem answerRead_ackSeen : (answerRead v s).ackSeen = s.ackSeen := rfl
@[simp] theorem answerRead_chkOk : (answerRead v s).chkOk = s.chkOk := rfl
@[simp] theorem answerRead_hostViol : (answerRead v s).hostViol = s.hostViol := rfl
@[simp] theorem answerRead_rxComplete : (answerRead v s).rxComplete = s.rxComplete := rfl
@[simp] theorem answerRead_state : (answerRead v s).state = s.state := rfl
@[simp] theorem answerRead_errcode : (answerRead v s).errcode = s.errcode := rfl
@[simp] theorem answerRead_plen : (answerRead v s).plen = s.plen := rfl
@[simp] theorem answerRead_txLen : (answerRead v s).txLen = s.txLen := rfl
@[simp] theorem answerRead_rxLen : (answerRead v s).rxLen = s.rxLen := rfl
@[simp] theorem answerRead_dbLen : (answerRead v s).dbLen = s.dbLen := rfl
@[simp] theorem answerRead_rplOff : (answerRead v s).rplOff = s.rplOff := rfl
@[simp] theorem answerRead_rplLen : (answerRead v s).rplLen = s.rplLen := rfl
@[simp] theorem answerRead_txSum : (answerRead v s).txSum = s.txSum := rfl
@[simp] theorem answerRead_rxSum : (answerRead v s).rxSum = s.rxSum := rfl
@[simp] theorem answerRead_rxField : (answerRead v s).rxField = s.rxField := rfl
@[simp] theorem answerRead_attempts : (answerRead v s).attempts = s.attempts := rfl
@[simp] theorem answerRead_xmode : (answerRead v s).xmode = s.xmode := rfl
@[simp] theorem answerRead_txLog : (answerRead v s).txLog = s.txLog := rfl
@[simp] theorem answerRead_pending : (answerRead v s).pending = s.pending := rfl
@[simp] theorem answerRead_draws : (answerRead v s).draws = s.draws := rfl
@[simp] theorem answerRead_readData : (answerRead v s).readData = v := rfl

end answerRead

section storeSum
variable (c : Byte) (s : State)

@[simp] theorem storeSum_cfg : (storeSum c s).cfg = s.cfg := rfl
@[simp] theorem storeSum_pb : (storeSum c s).pb = s.pb := rfl
@[simp] theorem storeSum_txb : (storeSum c s).txb = s.txb := rfl
@[simp] theorem storeSum_rxb : (storeSum c s).rxb = s.rxb := rfl
@[simp] theorem storeSum_db : (storeSum c s).db = s.db := rfl
@[simp] theorem storeSum_verifyEn : (storeSum c s).verifyEn = s.verifyEn := rfl
@[simp] theorem storeSum_rleEn : (storeSum c s).rleEn = s.rleEn := rfl
@[simp] theorem storeSum_irqEn : (storeSum c s).irqEn = s.irqEn := rfl
@[simp] theorem storeSum_busy : (storeSum c s).busy = s.busy := rfl
@[simp] theorem storeSum_done : (storeSum c s).done = s.done := rfl
@[simp] theorem storeSum_err : (storeSum c s).err = s.err := rfl
@[simp] theorem storeSum_ackSeen : (storeSum c s).ackSeen = s.ackSeen := rfl
@[simp] theorem storeSum_chkOk : (storeSum c s).chkOk = s.chkOk := rfl
@[simp] theorem storeSum_hostViol : (storeSum c s).hostViol = s.hostViol := rfl
@[simp] theorem storeSum_rxComplete : (storeSum c s).rxComplete = s.rxComplete := rfl
@[simp] theorem storeSum_state : (storeSum c s).state = s.state := rfl
@[simp] theorem storeSum_errcode : (storeSum c s).errcode = s.errcode := rfl
@[simp] theorem storeSum_plen : (storeSum c s).plen = s.plen := rfl
@[simp] theorem storeSum_txLen : (storeSum c s).txLen = s.txLen := rfl
@[simp] theorem storeSum_rxLen : (storeSum c s).rxLen = s.rxLen := rfl
@[simp] theorem storeSum_dbLen : (storeSum c s).dbLen = s.dbLen := rfl
@[simp] theorem storeSum_rplOff : (storeSum c s).rplOff = s.rplOff := rfl
@[simp] theorem storeSum_rplLen : (storeSum c s).rplLen = s.rplLen := rfl
@[simp] theorem storeSum_txSum : (storeSum c s).txSum = zext32 c := rfl
@[simp] theorem storeSum_rxSum : (storeSum c s).rxSum = s.rxSum := rfl
@[simp] theorem storeSum_rxField : (storeSum c s).rxField = s.rxField := rfl
@[simp] theorem storeSum_attempts : (storeSum c s).attempts = s.attempts := rfl
@[simp] theorem storeSum_xmode : (storeSum c s).xmode = s.xmode := rfl
@[simp] theorem storeSum_txLog : (storeSum c s).txLog = s.txLog := rfl
@[simp] theorem storeSum_pending : (storeSum c s).pending = s.pending := rfl
@[simp] theorem storeSum_draws : (storeSum c s).draws = s.draws := rfl
@[simp] theorem storeSum_readData : (storeSum c s).readData = s.readData := rfl

end storeSum

section markMatch
variable (s : State)

@[simp] theorem markMatch_cfg : (markMatch s).cfg = s.cfg := rfl
@[simp] theorem markMatch_pb : (markMatch s).pb = s.pb := rfl
@[simp] theorem markMatch_txb : (markMatch s).txb = s.txb := rfl
@[simp] theorem markMatch_rxb : (markMatch s).rxb = s.rxb := rfl
@[simp] theorem markMatch_db : (markMatch s).db = s.db := rfl
@[simp] theorem markMatch_verifyEn : (markMatch s).verifyEn = s.verifyEn := rfl
@[simp] theorem markMatch_rleEn : (markMatch s).rleEn = s.rleEn := rfl
@[simp] theorem markMatch_irqEn : (markMatch s).irqEn = s.irqEn := rfl
@[simp] theorem markMatch_busy : (markMatch s).busy = s.busy := rfl
@[simp] theorem markMatch_done : (markMatch s).done = s.done := rfl
@[simp] theorem markMatch_err : (markMatch s).err = s.err := rfl
@[simp] theorem markMatch_ackSeen : (markMatch s).ackSeen = s.ackSeen := rfl
@[simp] theorem markMatch_chkOk : (markMatch s).chkOk = true := rfl
@[simp] theorem markMatch_hostViol : (markMatch s).hostViol = s.hostViol := rfl
@[simp] theorem markMatch_rxComplete : (markMatch s).rxComplete = s.rxComplete := rfl
@[simp] theorem markMatch_state : (markMatch s).state = s.state := rfl
@[simp] theorem markMatch_errcode : (markMatch s).errcode = s.errcode := rfl
@[simp] theorem markMatch_plen : (markMatch s).plen = s.plen := rfl
@[simp] theorem markMatch_txLen : (markMatch s).txLen = s.txLen := rfl
@[simp] theorem markMatch_rxLen : (markMatch s).rxLen = s.rxLen := rfl
@[simp] theorem markMatch_dbLen : (markMatch s).dbLen = s.dbLen := rfl
@[simp] theorem markMatch_rplOff : (markMatch s).rplOff = s.rplOff := rfl
@[simp] theorem markMatch_rplLen : (markMatch s).rplLen = s.rplLen := rfl
@[simp] theorem markMatch_txSum : (markMatch s).txSum = s.txSum := rfl
@[simp] theorem markMatch_rxSum : (markMatch s).rxSum = s.rxSum := rfl
@[simp] theorem markMatch_rxField : (markMatch s).rxField = s.rxField := rfl
@[simp] theorem markMatch_attempts : (markMatch s).attempts = s.attempts := rfl
@[simp] theorem markMatch_xmode : (markMatch s).xmode = s.xmode := rfl
@[simp] theorem markMatch_txLog : (markMatch s).txLog = s.txLog := rfl
@[simp] theorem markMatch_pending : (markMatch s).pending = s.pending := rfl
@[simp] theorem markMatch_draws : (markMatch s).draws = s.draws := rfl
@[simp] theorem markMatch_readData : (markMatch s).readData = s.readData := rfl

end markMatch

section goTo
variable (p : Phase) (s : State)

@[simp] theorem goTo_cfg : (goTo p s).cfg = s.cfg := rfl
@[simp] theorem goTo_pb : (goTo p s).pb = s.pb := rfl
@[simp] theorem goTo_txb : (goTo p s).txb = s.txb := rfl
@[simp] theorem goTo_rxb : (goTo p s).rxb = s.rxb := rfl
@[simp] theorem goTo_db : (goTo p s).db = s.db := rfl
@[simp] theorem goTo_verifyEn : (goTo p s).verifyEn = s.verifyEn := rfl
@[simp] theorem goTo_rleEn : (goTo p s).rleEn = s.rleEn := rfl
@[simp] theorem goTo_irqEn : (goTo p s).irqEn = s.irqEn := rfl
@[simp] theorem goTo_busy : (goTo p s).busy = s.busy := rfl
@[simp] theorem goTo_done : (goTo p s).done = s.done := rfl
@[simp] theorem goTo_err : (goTo p s).err = s.err := rfl
@[simp] theorem goTo_ackSeen : (goTo p s).ackSeen = s.ackSeen := rfl
@[simp] theorem goTo_chkOk : (goTo p s).chkOk = s.chkOk := rfl
@[simp] theorem goTo_hostViol : (goTo p s).hostViol = s.hostViol := rfl
@[simp] theorem goTo_rxComplete : (goTo p s).rxComplete = s.rxComplete := rfl
@[simp] theorem goTo_state : (goTo p s).state = p := rfl
@[simp] theorem goTo_errcode : (goTo p s).errcode = s.errcode := rfl
@[simp] theorem goTo_plen : (goTo p s).plen = s.plen := rfl
@[simp] theorem goTo_txLen : (goTo p s).txLen = s.txLen := rfl
@[simp] theorem goTo_rxLen : (goTo p s).rxLen = s.rxLen := rfl
@[simp] theorem goTo_dbLen : (goTo p s).dbLen = s.dbLen := rfl
@[simp] theorem goTo_rplOff : (goTo p s).rplOff = s.rplOff := rfl
@[simp] theorem goTo_rplLen : (goTo p s).rplLen = s.rplLen := rfl
@[simp] theorem goTo_txSum : (goTo p s).txSum = s.txSum := rfl
@[simp] theorem goTo_rxSum : (goTo p s).rxSum = s.rxSum := rfl
@[simp] theorem goTo_rxField : (goTo p s).rxField = s.rxField := rfl
@[simp] theorem goTo_attempts : (goTo p s).attempts = s.attempts := rfl
@[simp] theorem goTo_xmode : (goTo p s).xmode = s.xmode := rfl
@[simp] theorem goTo_txLog : (goTo p s).txLog = s.txLog := rfl
@[simp] theorem goTo_pending : (goTo p s).pending = s.pending := rfl
@[simp] theorem goTo_draws : (goTo p s).draws = s.draws := rfl
@[simp] theorem goTo_readData : (goTo p s).readData = s.readData := rfl

end goTo

section enterSend
variable (s : State)

@[simp] theorem enterSend_cfg : (enterSend s).cfg = s.cfg := rfl
@[simp] theorem enterSend_pb : (enterSend s).pb = s.pb := rfl
@[simp] theorem enterSend_txb : (enterSend s).txb = s.txb := rfl
@[simp] theorem enterSend_rxb : (enterSend s).rxb = s.rxb := rfl
@[simp] theorem enterSend_db : (enterSend s).db = s.db := rfl
@[simp] theorem enterSend_verifyEn : (enterSend s).verifyEn = s.verifyEn := rfl
@[simp] theorem enterSend_rleEn : (enterSend s).rleEn = s.rleEn := rfl
@[simp] theorem enterSend_irqEn : (enterSend s).irqEn = s.irqEn := rfl
@[simp] theorem enterSend_busy : (enterSend s).busy = true := rfl
@[simp] theorem enterSend_done : (enterSend s).done = s.done := rfl
@[simp] theorem enterSend_err : (enterSend s).err = s.err := rfl
@[simp] theorem enterSend_ackSeen : (enterSend s).ackSeen = s.ackSeen := rfl
@[simp] theorem enterSend_chkOk : (enterSend s).chkOk = s.chkOk := rfl
@[simp] theorem enterSend_hostViol : (enterSend s).hostViol = s.hostViol := rfl
@[simp] theorem enterSend_rxComplete : (enterSend s).rxComplete = s.rxComplete := rfl
@[simp] theorem enterSend_state : (enterSend s).state = .send := rfl
@[simp] theorem enterSend_errcode : (enterSend s).errcode = s.errcode := rfl
@[simp] theorem enterSend_plen : (enterSend s).plen = s.plen := rfl
@[simp] theorem enterSend_txLen : (enterSend s).txLen = s.txLen := rfl
@[simp] theorem enterSend_rxLen : (enterSend s).rxLen = s.rxLen := rfl
@[simp] theorem enterSend_dbLen : (enterSend s).dbLen = s.dbLen := rfl
@[simp] theorem enterSend_rplOff : (enterSend s).rplOff = s.rplOff := rfl
@[simp] theorem enterSend_rplLen : (enterSend s).rplLen = s.rplLen := rfl
@[simp] theorem enterSend_txSum : (enterSend s).txSum = s.txSum := rfl
@[simp] theorem enterSend_rxSum : (enterSend s).rxSum = s.rxSum := rfl
@[simp] theorem enterSend_rxField : (enterSend s).rxField = s.rxField := rfl
@[simp] theorem enterSend_attempts : (enterSend s).attempts = s.attempts := rfl
@[simp] theorem enterSend_xmode : (enterSend s).xmode = s.xmode := rfl
@[simp] theorem enterSend_txLog : (enterSend s).txLog = s.txLog := rfl
@[simp] theorem enterSend_pending : (enterSend s).pending = s.pending := rfl
@[simp] theorem enterSend_draws : (enterSend s).draws = s.draws := rfl
@[simp] theorem enterSend_readData : (enterSend s).readData = s.readData := rfl

end enterSend

section withPending
variable (es : List Event) (s : State)

@[simp] theorem withPending_cfg : (withPending es s).cfg = s.cfg := rfl
@[simp] theorem withPending_pb : (withPending es s).pb = s.pb := rfl
@[simp] theorem withPending_txb : (withPending es s).txb = s.txb := rfl
@[simp] theorem withPending_rxb : (withPending es s).rxb = s.rxb := rfl
@[simp] theorem withPending_db : (withPending es s).db = s.db := rfl
@[simp] theorem withPending_verifyEn : (withPending es s).verifyEn = s.verifyEn := rfl
@[simp] theorem withPending_rleEn : (withPending es s).rleEn = s.rleEn := rfl
@[simp] theorem withPending_irqEn : (withPending es s).irqEn = s.irqEn := rfl
@[simp] theorem withPending_busy : (withPending es s).busy = s.busy := rfl
@[simp] theorem withPending_done : (withPending es s).done = s.done := rfl
@[simp] theorem withPending_err : (withPending es s).err = s.err := rfl
@[simp] theorem withPending_ackSeen : (withPending es s).ackSeen = s.ackSeen := rfl
@[simp] theorem withPending_chkOk : (withPending es s).chkOk = s.chkOk := rfl
@[simp] theorem withPending_hostViol : (withPending es s).hostViol = s.hostViol := rfl
@[simp] theorem withPending_rxComplete : (withPending es s).rxComplete = s.rxComplete := rfl
@[simp] theorem withPending_state : (withPending es s).state = s.state := rfl
@[simp] theorem withPending_errcode : (withPending es s).errcode = s.errcode := rfl
@[simp] theorem withPending_plen : (withPending es s).plen = s.plen := rfl
@[simp] theorem withPending_txLen : (withPending es s).txLen = s.txLen := rfl
@[simp] theorem withPending_rxLen : (withPending es s).rxLen = s.rxLen := rfl
@[simp] theorem withPending_dbLen : (withPending es s).dbLen = s.dbLen := rfl
@[simp] theorem withPending_rplOff : (withPending es s).rplOff = s.rplOff := rfl
@[simp] theorem withPending_rplLen : (withPending es s).rplLen = s.rplLen := rfl
@[simp] theorem withPending_txSum : (withPending es s).txSum = s.txSum := rfl
@[simp] theorem withPending_rxSum : (withPending es s).rxSum = s.rxSum := rfl
@[simp] theorem withPending_rxField : (withPending es s).rxField = s.rxField := rfl
@[simp] theorem withPending_attempts : (withPending es s).attempts = s.attempts := rfl
@[simp] theorem withPending_xmode : (withPending es s).xmode = s.xmode := rfl
@[simp] theorem withPending_txLog : (withPending es s).txLog = s.txLog := rfl
@[simp] theorem withPending_pending : (withPending es s).pending = es := rfl
@[simp] theorem withPending_draws : (withPending es s).draws = s.draws := rfl
@[simp] theorem withPending_readData : (withPending es s).readData = s.readData := rfl

end withPending

section countDraw
variable (s : State)

@[simp] theorem countDraw_cfg : (countDraw s).cfg = s.cfg := rfl
@[simp] theorem countDraw_pb : (countDraw s).pb = s.pb := rfl
@[simp] theorem countDraw_txb : (countDraw s).txb = s.txb := rfl
@[simp] theorem countDraw_rxb : (countDraw s).rxb = s.rxb := rfl
@[simp] theorem countDraw_db : (countDraw s).db = s.db := rfl
@[simp] theorem countDraw_verifyEn : (countDraw s).verifyEn = s.verifyEn := rfl
@[simp] theorem countDraw_rleEn : (countDraw s).rleEn = s.rleEn := rfl
@[simp] theorem countDraw_irqEn : (countDraw s).irqEn = s.irqEn := rfl
@[simp] theorem countDraw_busy : (countDraw s).busy = s.busy := rfl
@[simp] theorem countDraw_done : (countDraw s).done = s.done := rfl
@[simp] theorem countDraw_err : (countDraw s).err = s.err := rfl
@[simp] theorem countDraw_ackSeen : (countDraw s).ackSeen = s.ackSeen := rfl
@[simp] theorem countDraw_chkOk : (countDraw s).chkOk = s.chkOk := rfl
@[simp] theorem countDraw_hostViol : (countDraw s).hostViol = s.hostViol := rfl
@[simp] theorem countDraw_rxComplete : (countDraw s).rxComplete = s.rxComplete := rfl
@[simp] theorem countDraw_state : (countDraw s).state = s.state := rfl
@[simp] theorem countDraw_errcode : (countDraw s).errcode = s.errcode := rfl
@[simp] theorem countDraw_plen : (countDraw s).plen = s.plen := rfl
@[simp] theorem countDraw_txLen : (countDraw s).txLen = s.txLen := rfl
@[simp] theorem countDraw_rxLen : (countDraw s).rxLen = s.rxLen := rfl
@[simp] theorem countDraw_dbLen : (countDraw s).dbLen = s.dbLen := rfl
@[simp] theorem countDraw_rplOff : (countDraw s).rplOff = s.rplOff := rfl
@[simp] theorem countDraw_rplLen : (countDraw s).rplLen = s.rplLen := rfl
@[simp] theorem countDraw_txSum : (countDraw s).txSum = s.txSum := rfl
@[simp] theorem countDraw_rxSum : (countDraw s).rxSum = s.rxSum := rfl
@[simp] theorem countDraw_rxField : (countDraw s).rxField = s.rxField := rfl
@[simp] theorem countDraw_attempts : (countDraw s).attempts = s.attempts := rfl
@[simp] theorem countDraw_xmode : (countDraw s).xmode = s.xmode := rfl
@[simp] theorem countDraw_txLog : (countDraw s).txLog = s.txLog := rfl
@[simp] theorem countDraw_pending : (countDraw s).pending = s.pending := rfl
@[simp] theorem countDraw_draws : (countDraw s).draws = s.draws + 1 := rfl
@[simp] theorem countDraw_readData : (countDraw s).readData = s.readData := rfl

end countDraw

section answerFree
variable (s : State)

@[simp] theorem answerFree_cfg : (answerFree s).cfg = s.cfg := rfl
@[simp] theorem answerFree_pb : (answerFree s).pb = s.pb := rfl
@[simp] theorem answerFree_txb : (answerFree s).txb = s.txb := rfl
@[simp] theorem answerFree_rxb : (answerFree s).rxb = s.rxb := rfl
@[simp] theorem answerFree_db : (answerFree s).db = s.db := rfl
@[simp] theorem answerFree_verifyEn : (answerFree s).verifyEn = s.verifyEn := rfl
@[simp] theorem answerFree_rleEn : (answerFree s).rleEn = s.rleEn := rfl
@[simp] theorem answerFree_irqEn : (answerFree s).irqEn = s.irqEn := rfl
@[simp] theorem answerFree_busy : (answerFree s).busy = s.busy := rfl
@[simp] theorem answerFree_done : (answerFree s).done = s.done := rfl
@[simp] theorem answerFree_err : (answerFree s).err = s.err := rfl
@[simp] theorem answerFree_ackSeen : (answerFree s).ackSeen = s.ackSeen := rfl
@[simp] theorem answerFree_chkOk : (answerFree s).chkOk = s.chkOk := rfl
@[simp] theorem answerFree_hostViol : (answerFree s).hostViol = s.hostViol := rfl
@[simp] theorem answerFree_rxComplete : (answerFree s).rxComplete = s.rxComplete := rfl
@[simp] theorem answerFree_state : (answerFree s).state = s.state := rfl
@[simp] theorem answerFree_errcode : (answerFree s).errcode = s.errcode := rfl
@[simp] theorem answerFree_plen : (answerFree s).plen = s.plen := rfl
@[simp] theorem answerFree_txLen : (answerFree s).txLen = s.txLen := rfl
@[simp] theorem answerFree_rxLen : (answerFree s).rxLen = s.rxLen := rfl
@[simp] theorem answerFree_dbLen : (answerFree s).dbLen = s.dbLen := rfl
@[simp] theorem answerFree_rplOff : (answerFree s).rplOff = s.rplOff := rfl
@[simp] theorem answerFree_rplLen : (answerFree s).rplLen = s.rplLen := rfl
@[simp] theorem answerFree_txSum : (answerFree s).txSum = s.txSum := rfl
@[simp] theorem answerFree_rxSum : (answerFree s).rxSum = s.rxSum := rfl
@[simp] theorem answerFree_rxField : (answerFree s).rxField = s.rxField := rfl
@[simp] theorem answerFree_attempts : (answerFree s).attempts = s.attempts := rfl
@[simp] theorem answerFree_xmode : (answerFree s).xmode = s.xmode := rfl
@[simp] theorem answerFree_txLog : (answerFree s).txLog = s.txLog := rfl
@[simp] theorem answerFree_pending : (answerFree s).pending = s.pending := rfl
@[simp] theorem answerFree_draws : (answerFree s).draws = s.draws + 1 := rfl
@[simp] theorem answerFree_readData : (answerFree s).readData = zext32 (Config.freeByte s.draws) := rfl

end answerFree

section platformReset
variable (s : State)

@[simp] theorem platformReset_cfg : (platformReset s).cfg = s.cfg := rfl
@[simp] theorem platformReset_pb : (platformReset s).pb = [] := rfl
@[simp] theorem platformReset_txb : (platformReset s).txb = [] := rfl
@[simp] theorem platformReset_rxb : (platformReset s).rxb = [] := rfl
@[simp] theorem platformReset_db : (platformReset s).db = [] := rfl
@[simp] theorem platformReset_verifyEn : (platformReset s).verifyEn = true := rfl
@[simp] theorem platformReset_rleEn : (platformReset s).rleEn = false := rfl
@[simp] theorem platformReset_irqEn : (platformReset s).irqEn = false := rfl
@[simp] theorem platformReset_busy : (platformReset s).busy = false := rfl
@[simp] theorem platformReset_done : (platformReset s).done = false := rfl
@[simp] theorem platformReset_err : (platformReset s).err = false := rfl
@[simp] theorem platformReset_ackSeen : (platformReset s).ackSeen = false := rfl
@[simp] theorem platformReset_chkOk : (platformReset s).chkOk = false := rfl
@[simp] theorem platformReset_hostViol : (platformReset s).hostViol = false := rfl
@[simp] theorem platformReset_rxComplete : (platformReset s).rxComplete = false := rfl
@[simp] theorem platformReset_state : (platformReset s).state = .idle := rfl
@[simp] theorem platformReset_errcode : (platformReset s).errcode = .none := rfl
@[simp] theorem platformReset_plen : (platformReset s).plen = 0 := rfl
@[simp] theorem platformReset_txLen : (platformReset s).txLen = 0 := rfl
@[simp] theorem platformReset_rxLen : (platformReset s).rxLen = 0 := rfl
@[simp] theorem platformReset_dbLen : (platformReset s).dbLen = 0 := rfl
@[simp] theorem platformReset_rplOff : (platformReset s).rplOff = 0 := rfl
@[simp] theorem platformReset_rplLen : (platformReset s).rplLen = 0 := rfl
@[simp] theorem platformReset_txSum : (platformReset s).txSum = 0 := rfl
@[simp] theorem platformReset_rxSum : (platformReset s).rxSum = 0 := rfl
@[simp] theorem platformReset_rxField : (platformReset s).rxField = 0 := rfl
@[simp] theorem platformReset_attempts : (platformReset s).attempts = 0 := rfl
@[simp] theorem platformReset_xmode : (platformReset s).xmode = .text := rfl
@[simp] theorem platformReset_txLog : (platformReset s).txLog = s.txLog := rfl
@[simp] theorem platformReset_pending : (platformReset s).pending = s.pending := rfl
@[simp] theorem platformReset_draws : (platformReset s).draws = s.draws := rfl
@[simp] theorem platformReset_readData : (platformReset s).readData = s.readData := rfl

end platformReset

end Sys2Proof.Machine
end

