-- ==== Sys2Proof/Laws/Wire.lean ====
section
/-! SUPPORT. The laws of the wire functions: lengths, digits, and what the decoder's output can be. -/

namespace Sys2Proof.Machine

/-- The constraints of 00_scope.md R10, one by one. -/
theorem params_wf_iff (p : Params) :
    p.wf = true ↔ (4 ≤ p.cap ∧ p.cap ≤ 2 ^ 31) ∧ (1 ≤ p.maxAttempts ∧ p.maxAttempts < 2 ^ 32) ∧
      p.specials.Nodup ∧ ∀ b ∈ p.specials, isHexDigit b = false := by
  simp only [Params.wf, Params.capInRange, Params.attemptsInRange, Params.specialsDistinct, Params.specialsNotHex,
    Bool.and_eq_true, decide_eq_true_eq, List.all_eq_true, Bool.not_eq_true']
  tauto

theorem default_params_wf : Config.params.wf = true := by
  have h : Config.capSlack.val < 2147483645 := Config.capSlack.isLt
  rw [params_wf_iff]
  refine ⟨⟨?_, ?_⟩, ⟨by decide, by decide⟩, by decide, by decide⟩
  · show 4 ≤ 4 + Config.capSlack.val; omega
  · show 4 + Config.capSlack.val ≤ 2 ^ 31; omega

@[simp] theorem trailer_length (p : Params) (c : Byte) : (trailer p c).length = 3 := rfl

@[simp] theorem encodeBody_nil (p : Params) (m : Mode) : encodeBody p m [] = [] := rfl

@[simp] theorem encodeBody_cons (p : Params) (m : Mode) (b : Byte) (bs : List Byte) :
    encodeBody p m (b :: bs) = encodeUnit p m b ++ encodeBody p m bs := by
  simp [encodeBody]

theorem encodeFrame_length (p : Params) (m : Mode) (b0 : Byte) (bs : List Byte) :
    (encodeFrame p m b0 bs).length = (encodeBody p m bs).length + 4 := by
  simp [encodeFrame]

/-- Parsing a written digit gives its value back (30_encoding.md R106, 41_checksum.md R152). -/
theorem hexVal_hexDigit (v : BitVec 4) : hexVal (hexDigit v) = some v.toNat := by
  revert v; decide

theorem isHexDigit_hexDigit (v : BitVec 4) : isHexDigit (hexDigit v) = true := by
  revert v; decide

/-- The trailer's digits parse to the checksum they were written from. -/
theorem field_hexDigits (c : Byte) : field (hexDigit (c.extractLsb' 4 4)) (hexDigit (c.extractLsb' 0 4)) = some c := by
  simp only [field, hexVal_hexDigit, Option.bind_some, Option.map_some, Option.some.injEq]
  revert c; decide

theorem fitsOr_ok {p : Params} {out d : List Byte} {k : Except ErrCode (List Byte)} (h : fitsOr p out k = .ok d) :
    out.length ≤ p.cap ∧ k = .ok d := by
  unfold fitsOr at h
  split at h
  · cases h
  · exact ⟨by omega, h⟩

/-- The loop's output never passes CAP: either nothing was added, or the test was made (40_codec.md R135). -/
theorem decodeLoop_length {p : Params} {m : Mode} {r : Bool} {out w d : List Byte} {prev : Byte}
    (hout : out.length ≤ p.cap) (h : decodeLoop p m r out prev w = .ok d) : d.length ≤ p.cap := by
  fun_induction decodeLoop p m r out prev w with
  | case1 out _ => cases h; exact hout
  | case2 => cases h
  | case3 => cases h
  | case4 out _ c _ _ =>
    obtain ⟨hl, hd⟩ := fitsOr_ok h
    cases hd; exact hl
  | case5 out prev c c2 rest _ ih =>
    obtain ⟨hl, hd⟩ := fitsOr_ok h
    exact ih hl hd
  | case6 => cases h
  | case7 out prev c c2 rest _ _ _ ih =>
    obtain ⟨hl, hd⟩ := fitsOr_ok h
    exact ih hl hd
  | case8 out prev c c2 rest _ _ ih =>
    obtain ⟨hl, hd⟩ := fitsOr_ok h
    exact ih hl hd

theorem decodeWire_length {p : Params} {m : Mode} {r : Bool} {w0 : Byte} {rest d : List Byte} (hp : 4 ≤ p.cap)
    (h : decodeWire p m r w0 rest = .ok d) : d.length ≤ p.cap :=
  decodeLoop_length (by simp only [List.length_singleton]; omega) h

/-- `Match` (41_checksum.md R159). -/
theorem digitsMatch_iff {f : Option Byte} {sum : Byte} : digitsMatch f sum = true ↔ f = some sum := by
  simp [digitsMatch]

theorem digitsMatch_false {f : Option Byte} {sum : Byte} : digitsMatch f sum = false ↔ f ≠ some sum := by
  simp [digitsMatch]

theorem firstIndex_lt {b : Byte} {d : List Byte} {k : Nat} (h : firstIndex b d = some k) : k < d.length := by
  induction d generalizing k with
  | nil => simp [firstIndex] at h
  | cons c cs ih =>
    simp only [firstIndex] at h
    split at h
    · cases h; simp
    · obtain ⟨j, hj, rfl⟩ := Option.map_eq_some_iff.mp h
      have := ih hj
      simp; omega

/-- Everything a view can be (41_checksum.md R156). -/
theorem view_some {p : Params} {d : List Byte} {v : ReplyView} (h : view p d = some v) :
    3 ≤ d.length ∧ d[d.length - 3]? = some p.endByte ∧ firstIndex p.startByte d = some (v.off - 1) ∧ 1 ≤ v.off ∧
      v.off + v.len + 3 = d.length ∧ v.sum = checksum (slice d v.off v.len) ∧
      v.field = field (d.getD (d.length - 2) 0) (d.getD (d.length - 1) 0) := by
  unfold view at h
  cases hk : firstIndex p.startByte d with
  | none => simp [hk] at h
  | some k =>
    simp only [hk] at h
    split at h
    · cases h
    · rename_i hc
      simp only [not_or, not_lt, ne_eq, Decidable.not_not] at hc
      cases h
      refine ⟨hc.1, hc.2.1, ?_, ?_, ?_, rfl, rfl⟩ <;> simp; omega

theorem zext32_toNat (b : Byte) : (zext32 b).toNat = b.toNat := by
  simp only [zext32, BitVec.toNat_setWidth]
  omega

theorem lengthWord_toNat {n : Nat} (h : n ≤ 2 ^ 31) : (lengthWord n).toNat = n := by
  simp only [lengthWord, BitVec.toNat_ofNat]
  omega

/-- What RX_FIELD can show (10_state.md R54). -/
theorem fieldWord_form (f : Option Byte) :
    fieldWord f = 0 ∨ 2 ^ 8 ≤ (fieldWord f).toNat ∧ (fieldWord f).toNat < 2 ^ 9 := by
  cases f with
  | none => exact .inl rfl
  | some b =>
    refine .inr ?_
    have : (zext32 b).toNat < 256 := by rw [zext32_toNat]; exact b.isLt
    simp only [fieldWord, BitVec.toNat_add, BitVec.toNat_ofNat]
    omega

end Sys2Proof.Machine
end

