-- ==== Sys2Proof/Laws/Ops.lean ====
section
/-! SUPPORT. What each shared operation, each command and each step can do, said once: if it answers a next state, then
that state is one of these. -/

namespace Sys2Proof.Machine

theorem whenIdle_busy {s : State} {k : Result} (h : s.busy = true) : whenIdle s k = .next (refuseHost s) := by
  simp [whenIdle, h]

theorem whenIdle_idle {s : State} {k : Result} (h : s.busy = false) : whenIdle s k = k := by
  simp [whenIdle, h]

theorem whenIdle_next {s t : State} {k : Result} (h : whenIdle s k = .next t) :
    (s.busy = true ∧ t = refuseHost s) ∨ (s.busy = false ∧ k = .next t) := by
  cases hb : s.busy with
  | true => rw [whenIdle_busy hb] at h; cases h; exact .inl ⟨rfl, rfl⟩
  | false => rw [whenIdle_idle hb] at h; exact .inr ⟨rfl, h⟩

theorem withBytes_next {α : Type} {o : Option α} {k : α → Result} {t : State} (h : withBytes o k = .next t) :
    ∃ a, o = some a ∧ k a = .next t := by
  cases o with
  | none => cases h
  | some a => exact ⟨a, rfl, h⟩

theorem lengthOk_iff (s : State) : lengthOk s = true ↔ s.plen ≠ 0 ∧ s.plen.toNat ≤ s.cfg.cap := by
  simp only [lengthOk, Bool.and_eq_true, bne_iff_ne, decide_eq_true_eq, ne_eq]
  constructor
  · rintro ⟨h, h'⟩
    exact ⟨fun he => h (by simp [he]), h'⟩
  · rintro ⟨h, h'⟩
    exact ⟨fun he => h (BitVec.eq_of_toNat_eq (by simpa using he)), h'⟩

theorem withRequest_bad {s : State} {bad : Result} {k : Byte → List Byte → Result} (h : lengthOk s = false) :
    withRequest s bad k = bad := by
  simp [withRequest, h]

theorem withRequest_ok {s : State} {bad : Result} {k : Byte → List Byte → Result} {b0 : Byte} {bs : List Byte}
    (h : lengthOk s = true) (hr : requestBytes s = some (b0, bs)) : withRequest s bad k = k b0 bs := by
  simp [withRequest, h, hr, withBytes]

theorem withRequest_next {s t : State} {bad : Result} {k : Byte → List Byte → Result}
    (h : withRequest s bad k = .next t) :
    (lengthOk s = false ∧ bad = .next t) ∨
      (lengthOk s = true ∧ ∃ b0 bs, requestBytes s = some (b0, bs) ∧ k b0 bs = .next t) := by
  cases hl : lengthOk s with
  | false => rw [withRequest_bad hl] at h; exact .inl ⟨rfl, h⟩
  | true =>
    simp only [withRequest, hl, if_true] at h
    obtain ⟨⟨b0, bs⟩, hr, hk⟩ := withBytes_next h
    exact .inr ⟨rfl, b0, bs, hr, hk⟩

/-- ENCODE (40_codec.md R122, R126): refused, BAD_LENGTH, TX_OVERFLOW, or the frame stored. -/
theorem encodeCommand_next {m : Mode} {s t : State} (h : encodeCommand m s = .next t) :
    (s.busy = true ∧ t = refuseHost s) ∨
    (s.busy = false ∧ lengthOk s = false ∧ t = finish .badLength (beginCommand s)) ∨
    (s.busy = false ∧ lengthOk s = true ∧ ∃ b0 bs, requestBytes s = some (b0, bs) ∧
      ((s.cfg.cap < (encodeFrame s.cfg m b0 bs).length ∧ t = finish .txOverflow (beginCommand s)) ∨
        ((encodeFrame s.cfg m b0 bs).length ≤ s.cfg.cap ∧
          t = finish .none (storeFrame (encodeFrame s.cfg m b0 bs) (checksum bs) (beginCommand s))))) := by
  rcases whenIdle_next h with ⟨hb, rfl⟩ | ⟨hb, h⟩
  · exact .inl ⟨hb, rfl⟩
  · rcases withRequest_next h with ⟨hl, h⟩ | ⟨hl, b0, bs, hr, h⟩
    · cases h; exact .inr (.inl ⟨hb, hl, rfl⟩)
    · refine .inr (.inr ⟨hb, hl, b0, bs, hr, ?_⟩)
      simp only [encodeInto] at h
      split at h
      · cases h; exact .inl ⟨‹_›, rfl⟩
      · cases h; exact .inr ⟨Nat.le_of_not_lt ‹_›, rfl⟩

/-- DECODE (R130, R136): refused, BAD_LENGTH, a decoding error, or the output stored. -/
theorem decodeCommand_next {m : Mode} {s t : State} (h : decodeCommand m s = .next t) :
    (s.busy = true ∧ t = refuseHost s) ∨
    (s.busy = false ∧ lengthOk s = false ∧ t = failDecode .badLength (clearView (beginCommand s))) ∨
    (s.busy = false ∧ lengthOk s = true ∧ ∃ w0 rest, requestBytes s = some (w0, rest) ∧
      ((∃ e, decodeWire s.cfg m s.rleEn w0 rest = .error e ∧ t = failDecode e (clearView (beginCommand s))) ∨
        (∃ out, decodeWire s.cfg m s.rleEn w0 rest = .ok out ∧
          t = finish .none (storeDecoded out (clearView (beginCommand s)))))) := by
  rcases whenIdle_next h with ⟨hb, rfl⟩ | ⟨hb, h⟩
  · exact .inl ⟨hb, rfl⟩
  · rcases withRequest_next h with ⟨hl, h⟩ | ⟨hl, w0, rest, hr, h⟩
    · cases h; exact .inr (.inl ⟨hb, hl, rfl⟩)
    · refine .inr (.inr ⟨hb, hl, w0, rest, hr, ?_⟩)
      simp only [clearView_cfg, beginCommand_cfg, clearView_rleEn, beginCommand_rleEn] at h
      split at h
      · cases h; exact .inl ⟨_, ‹_›, rfl⟩
      · cases h; exact .inr ⟨_, ‹_›, rfl⟩

/-- CHECKSUM (41_checksum.md R154): refused, BAD_LENGTH, or TX_SUM written. -/
theorem execChecksum_next {m : Mode} {s t : State} (h : execChecksum m s = .next t) :
    (s.busy = true ∧ t = refuseHost s) ∨
    (s.busy = false ∧ lengthOk s = false ∧ t = finish .badLength (beginCommand s)) ∨
    (s.busy = false ∧ lengthOk s = true ∧ ∃ bs, payloadBytes s = some bs ∧
      t = finish .none (storeSum (checksum bs) (beginCommand s))) := by
  rcases whenIdle_next h with ⟨hb, rfl⟩ | ⟨hb, h⟩
  · exact .inl ⟨hb, rfl⟩
  · dsimp only at h
    split at h
    · obtain ⟨bs, hp, h⟩ := withBytes_next h
      cases h; exact .inr (.inr ⟨hb, ‹_›, bs, hp, rfl⟩)
    · rename_i hl; cases h; exact .inr (.inl ⟨hb, Bool.eq_false_iff.mpr hl, rfl⟩)

/-- VERIFY (R158): refused, BAD_FRAME, CHECKSUM_MISMATCH, or the view shown. -/
theorem execVerify_next {m : Mode} {s t : State} (h : execVerify m s = .next t) :
    (s.busy = true ∧ t = refuseHost s) ∨
    (s.busy = false ∧ ∃ d, decodedBytes s = some d ∧
      ((view s.cfg d = none ∧ t = finish .badFrame (clearView (beginCommand s))) ∨
        ∃ v, view s.cfg d = some v ∧
          ((digitsMatch v.field v.sum = true ∧
              t = finish .none (markMatch (showView v (showSums v (clearView (beginCommand s)))))) ∨
            (digitsMatch v.field v.sum = false ∧
              t = finish .checksumMismatch (showSums v (clearView (beginCommand s))))))) := by
  rcases whenIdle_next h with ⟨hb, rfl⟩ | ⟨hb, h⟩
  · exact .inl ⟨hb, rfl⟩
  · obtain ⟨d, hd, h⟩ := withBytes_next h
    refine .inr ⟨hb, d, hd, ?_⟩
    simp only [clearView_cfg, beginCommand_cfg] at h
    split at h
    · cases h; exact .inl ⟨‹_›, rfl⟩
    · refine .inr ⟨_, ‹_›, ?_⟩
      split at h
      · cases h; exact .inl ⟨‹_›, rfl⟩
      · rename_i hm; cases h; exact .inr ⟨Bool.eq_false_iff.mpr hm, rfl⟩

/-- The start of SENDRECV (42_transport.md R173): refused, BAD_LENGTH, TX_OVERFLOW, or the transaction in SEND. -/
theorem startTransaction_next {m : Mode} {s t : State} (h : startTransaction m s = .next t) :
    (s.busy = true ∧ t = refuseHost s) ∨
    (s.busy = false ∧ lengthOk s = false ∧ t = failTransaction .badLength (beginTransaction m s)) ∨
    (s.busy = false ∧ lengthOk s = true ∧ ∃ b0 bs, requestBytes s = some (b0, bs) ∧
      ((s.cfg.cap < (encodeFrame s.cfg m b0 bs).length ∧ t = failTransaction .txOverflow (beginTransaction m s)) ∨
        ((encodeFrame s.cfg m b0 bs).length ≤ s.cfg.cap ∧
          t = enterSend (storeFrame (encodeFrame s.cfg m b0 bs) (checksum bs) (beginTransaction m s))))) := by
  rcases whenIdle_next h with ⟨hb, rfl⟩ | ⟨hb, h⟩
  · exact .inl ⟨hb, rfl⟩
  · rcases withRequest_next h with ⟨hl, h⟩ | ⟨hl, b0, bs, hr, h⟩
    · cases h; exact .inr (.inl ⟨hb, hl, rfl⟩)
    · refine .inr (.inr ⟨hb, hl, b0, bs, hr, ?_⟩)
      simp only [encodeInto] at h
      split at h
      · cases h; exact .inl ⟨‹_›, rfl⟩
      · cases h; exact .inr ⟨Nat.le_of_not_lt ‹_›, rfl⟩

/-- SEND (R180, R181). -/
theorem sendStep_next {o : TxOutcome} {s t : State} (h : sendStep o s = .next t) :
    ∃ frame, frameBytes s = some frame ∧
      ((o = .txok ∧ t = goTo .recv (linkSend frame o (beginAttempt s))) ∨
        (∃ n, o = .txerr n ∧ t = failTransaction .txIoError (linkSend frame o (beginAttempt s)))) := by
  obtain ⟨frame, hf, h⟩ := withBytes_next h
  refine ⟨frame, hf, ?_⟩
  cases o with
  | txok => cases h; exact .inl ⟨rfl, rfl⟩
  | txerr n => cases h; exact .inr ⟨n, rfl, rfl⟩

/-- RECV on a chunk (R182, R183): overflow, the terminator, or more to come. -/
theorem recvChunk_next {c0 : Byte} {c : List Byte} {s t : State} (h : recvChunk c0 c s = .next t) :
    (s.cfg.cap < s.rxLen.toNat + (c0 :: c).length ∧ t = failTransaction .rxOverflow s) ∨
    (s.rxLen.toNat + (c0 :: c).length ≤ s.cfg.cap ∧
      let u := storeChunk s.cfg c0 c s
      ((3 ≤ u.rxLen.toNat ∧ Memory.read u.rxb (u.rxLen.toNat - 3) = some s.cfg.endByte ∧ t = completeReceive u) ∨
        ((u.rxLen.toNat < 3 ∨ Memory.read u.rxb (u.rxLen.toNat - 3) ≠ some s.cfg.endByte) ∧ t = u))) := by
  unfold recvChunk at h
  split at h
  · cases h; exact .inl ⟨‹_›, rfl⟩
  · refine .inr ⟨Nat.le_of_not_lt ‹_›, ?_⟩
    dsimp only
    unfold testTerminator at h
    split at h
    · cases h; exact .inr ⟨.inl ‹_›, rfl⟩
    · obtain ⟨b, hb, h⟩ := withBytes_next h
      split at h
      · rename_i he; cases h
        exact .inl ⟨Nat.le_of_not_lt ‹_›, by rw [hb, he, storeChunk_cfg], rfl⟩
      · rename_i he; cases h
        exact .inr ⟨.inr (by rw [hb]; simpa using he), rfl⟩

/-- DECODE of the transport (R185, R186). -/
theorem decodeStep_next {s t : State} (h : decodeStep s = .next t) :
    ∃ w0 rest, replyBytes s = some (w0 :: rest) ∧
      ((∃ e, decodeWire s.cfg s.xmode s.rleEn w0 rest = .error e ∧ t = failTransaction e s) ∨
        ∃ out, decodeWire s.cfg s.xmode s.rleEn w0 rest = .ok out ∧
          ((view s.cfg out = none ∧ t = failTransaction .badFrame (storeDecoded out s)) ∨
            ∃ v, view s.cfg out = some v ∧
              ((s.verifyEn = true ∧ digitsMatch v.field v.sum = true ∧
                  t = finish .none (markMatch (showView v (showSums v (storeDecoded out s))))) ∨
                (s.verifyEn = true ∧ digitsMatch v.field v.sum = false ∧
                  t = failTransaction .checksumMismatch (showSums v (storeDecoded out s))) ∨
                (s.verifyEn = false ∧ t = finish .none (showView v (showSums v (storeDecoded out s))))))) := by
  obtain ⟨w, hw, h⟩ := withBytes_next h
  cases w with
  | nil => cases h
  | cons w0 rest =>
    refine ⟨w0, rest, hw, ?_⟩
    dsimp only at h
    split at h
    · cases h; exact .inl ⟨_, ‹_›, rfl⟩
    · rename_i out ho
      refine .inr ⟨out, ho, ?_⟩
      dsimp only [viewReply] at h
      split at h
      · cases h; exact .inl ⟨‹_›, rfl⟩
      · refine .inr ⟨_, ‹_›, ?_⟩
        split at h
        · split at h
          · cases h; exact .inl ⟨‹_›, ‹_›, rfl⟩
          · rename_i hm; cases h; exact .inr (.inl ⟨‹_›, Bool.eq_false_iff.mpr hm, rfl⟩)
        · rename_i hv; cases h; exact .inr (.inr ⟨Bool.eq_false_iff.mpr hv, rfl⟩)

/-- CHECK (R187). -/
theorem checkStep_next {s t : State} (h : checkStep s = .next t) :
    (s.attempts.toNat < s.cfg.maxAttempts ∧ t = goTo .send s) ∨
      (s.cfg.maxAttempts ≤ s.attempts.toNat ∧ t = failTransaction .ackNotObtained s) := by
  unfold checkStep at h
  split at h
  · cases h; exact .inl ⟨‹_›, rfl⟩
  · cases h; exact .inr ⟨Nat.le_of_not_lt ‹_›, rfl⟩

/-- One step of the FCT (R170): the step of its state. -/
theorem fctStep_next {o : TxOutcome} {s t : State} (h : fctStep o s = .next t) :
    ((s.state = .idle ∨ s.state = .recv) ∧ t = s) ∨ (s.state = .send ∧ sendStep o s = .next t) ∨
      (s.state = .check ∧ checkStep s = .next t) ∨ (s.state = .decode ∧ decodeStep s = .next t) := by
  unfold fctStep at h
  split at h
  · cases h; exact .inl ⟨.inl ‹_›, rfl⟩
  · exact .inr (.inl ⟨‹_›, h⟩)
  · cases h; exact .inl ⟨.inr ‹_›, rfl⟩
  · exact .inr (.inr (.inl ⟨‹_›, h⟩))
  · exact .inr (.inr (.inr ⟨‹_›, h⟩))

/-- One receive event (R179, R182, R184). -/
theorem linkEvent_next {e : RxEvent} {s t : State} (h : linkEvent e s = .next t) :
    (s.state ≠ .recv ∧ t = s) ∨ (s.state = .recv ∧
      ((∃ c0 c, e = .rx c0 c ∧ recvChunk c0 c s = .next t) ∨
        (e = .rxTimeout ∧ s.ackSeen = true ∧ t = failTransaction .replyTimeout s) ∨
        (e = .rxTimeout ∧ s.ackSeen = false ∧ t = goTo .check s) ∨
        (e = .rxError ∧ t = failTransaction .rxIoError s))) := by
  unfold linkEvent at h
  split at h
  · refine .inr ⟨‹_›, ?_⟩
    cases e with
    | rx c0 c => exact .inl ⟨c0, c, rfl, h⟩
    | rxTimeout =>
      dsimp only [recvTimeout] at h
      split at h
      · cases h; exact .inr (.inl ⟨rfl, ‹_›, rfl⟩)
      · rename_i ha; cases h; exact .inr (.inr (.inl ⟨rfl, Bool.eq_false_iff.mpr ha, rfl⟩))
    | rxError => cases h; exact .inr (.inr (.inr ⟨rfl, rfl⟩))
  · cases h; exact .inl ⟨‹_›, rfl⟩

/-- BufWrite (43_control.md R214): a byte of PB, or a refusal. -/
theorem bufWrite_next {id i : Nat} {b : Byte} {s t : State} (h : bufWrite id i b s = .next t) :
    t = refuseHost s ∨ (s.busy = false ∧ bufAt id = some .pb ∧ i < s.cfg.cap ∧ t = writePayload i b s) := by
  rcases whenIdle_next h with ⟨-, rfl⟩ | ⟨hb, h⟩
  · exact .inl rfl
  · split at h
    · split at h
      · cases h; exact .inr ⟨hb, ‹_›, ‹_›, rfl⟩
      · cases h; exact .inl rfl
    all_goals cases h; exact .inl rfl

/-- BufRead (20_memory.md R73): the host port answers; nothing of the FCT changes. -/
theorem bufRead_next {id i : Nat} {s t : State} (h : bufRead id i s = .next t) :
    (∃ v, t = answerRead v s) ∨ (s.cfg.cap > i ∧ bufAt id = none ∧ t = answerFree s) := by
  unfold bufRead at h
  split at h
  · cases h; exact .inl ⟨0, rfl⟩
  · split at h
    · obtain ⟨v, -, h⟩ := withBytes_next h
      cases h; exact .inl ⟨_, rfl⟩
    · cases h; exact .inr ⟨by omega, ‹_›, rfl⟩

/-- An offset that selects a register is that register's. -/
theorem regAt_offset {off : Nat} {r : Reg} (h : regAt off = some r) : off = r.offset := by
  have hr := List.find?_some h
  simp only [beq_iff_eq] at hr
  exact hr.symm

/-- A misaligned offset, and one past the map, select none (20_memory.md R72, R78). -/
theorem regAt_none {off : Nat} (h : off % 4 ≠ 0 ∨ 0x3C < off) : regAt off = none := by
  unfold regAt
  rw [List.find?_eq_none]
  intro r _ hr
  simp only [beq_iff_eq] at hr
  subst hr
  cases r <;> simp [Reg.offset] at h

@[simp] theorem bufAt_id (b : BufId) : bufAt b.id = some b := by cases b <;> rfl

theorem bufAt_some {id : Nat} {b : BufId} (h : bufAt id = some b) : id = b.id := by
  unfold bufAt at h
  split at h <;> cases h <;> rfl

/-- RegWrite (20_memory.md R72, 43_control.md R210 to R213). -/
theorem regWrite_next {off : Nat} {v : Word} {s t : State} (h : regWrite off v s = .next t) :
    t = s ∨ (s.busy = true ∧ t = refuseHost s) ∨ (s.busy = false ∧ t = writeCtrl v s) ∨
      (s.busy = false ∧ t = writePlen v s) ∨ (regAt off = some .cmd ∧ cmdWrite v s = .next t) := by
  unfold regWrite at h
  split at h
  · rcases whenIdle_next h with ⟨hb, rfl⟩ | ⟨hb, h⟩
    · exact .inr (.inl ⟨hb, rfl⟩)
    · cases h; exact .inr (.inr (.inl ⟨hb, rfl⟩))
  · rcases whenIdle_next h with ⟨hb, rfl⟩ | ⟨hb, h⟩
    · exact .inr (.inl ⟨hb, rfl⟩)
    · cases h; exact .inr (.inr (.inr (.inl ⟨hb, rfl⟩)))
  · exact .inr (.inr (.inr (.inr ⟨‹_›, h⟩)))
  · cases h; exact .inl rfl

/-- A command never answers a next state while BUSY = 1 but for the refusal (43_control.md R212). -/
theorem exec_busy (i : Instr) {s : State} (h : s.busy = true) : exec i s = .next (refuseHost s) := by
  cases i <;> exact whenIdle_busy h

theorem cmdWrite_busy (w : Word) {s : State} (h : s.busy = true) : cmdWrite w s = .next (refuseHost s) := by
  unfold cmdWrite
  split
  · exact exec_busy _ h
  · exact whenIdle_busy h

/-- A CMD write (43_control.md R213, R216): a refusal, the word's command, or BAD_COMMAND. -/
theorem cmdWrite_next {w : Word} {s t : State} (h : cmdWrite w s = .next t) :
    (s.busy = true ∧ t = refuseHost s) ∨
      (s.busy = false ∧ ((∃ i, decodeCmd w = .ok i ∧ exec i s = .next t) ∨
        ∃ r, decodeCmd w = .error r ∧ t = finish .badCommand (beginCommand s))) := by
  cases hb : s.busy with
  | true => rw [cmdWrite_busy w hb] at h; cases h; exact .inl ⟨rfl, rfl⟩
  | false =>
    refine .inr ⟨rfl, ?_⟩
    unfold cmdWrite at h
    split at h
    · exact .inl ⟨_, ‹_›, h⟩
    · rcases whenIdle_next h with ⟨hb', -⟩ | ⟨-, h⟩
      · rw [hb] at hb'; cases hb'
      · cases h; exact .inr ⟨_, ‹_›, rfl⟩

/-- The buffers of the reset state are in canonical form. -/
theorem reset_canonical (b : BufId) : (buffer b State.reset).wf := by cases b <;> exact List.Pairwise.nil

/-- What taking the next event leaves of a state: only the environment's account moves. -/
theorem takeEvent_snd (s : State) :
    (takeEvent s).2 = { s with pending := (takeEvent s).2.pending, draws := (takeEvent s).2.draws } := by
  unfold takeEvent
  split <;> rfl

theorem takeEvent_pending {s : State} {e : Event} {rest : List Event} (h : s.pending = e :: rest) :
    takeEvent s = (e, withPending rest s) := by
  simp [takeEvent, h]

/-- A step whose next event is pending runs that event. -/
theorem step_pending {s : State} {e : Event} {rest : List Event} (h : s.pending = e :: rest) :
    step s = runEvent e (withPending rest s) := by
  simp [step, takeEvent_pending h]

end Sys2Proof.Machine
end

