-- ==== Sys2Proof/Laws/PerInstr.lean ====
section
/-! SUPPORT. What holds of every command, made per constructor: its word is the one spec/opcode_table.json gives its row. -/

namespace Sys2Proof.Laws.TableWord

/-- The row's "mask" in spec/opcode_table.json. -/
def mask : Instr → Word
  | .encodeT => 0xFFFFFFFF
  | .encodeB => 0xFFFFFFFF
  | .decodeT => 0xFFFFFFFF
  | .decodeB => 0xFFFFFFFF
  | .checksum _ => 0xFFFFFFEF
  | .verify _ => 0xFFFFFFEF
  | .sendrecvT => 0xFFFFFFFF
  | .sendrecvB => 0xFFFFFFFF
  | .clear _ => 0xFFFFFFEF

/-- The row's "match" in spec/opcode_table.json. -/
def pattern : Instr → Word
  | .encodeT => 0x00000001
  | .encodeB => 0x00000011
  | .decodeT => 0x00000002
  | .decodeB => 0x00000012
  | .checksum _ => 0x00000003
  | .verify _ => 0x00000004
  | .sendrecvT => 0x00000005
  | .sendrecvB => 0x00000015
  | .clear _ => 0x00000006

/-- A command's word matches its row of the table. -/
def Statement (i : Instr) : Prop := encode i &&& mask i = pattern i

theorem encodeT : Statement .encodeT := rfl

theorem encodeB : Statement .encodeB := rfl

theorem decodeT : Statement .decodeT := rfl

theorem decodeB : Statement .decodeB := rfl

theorem checksum (m : Mode) : Statement (.checksum m) := by cases m <;> rfl

theorem verify (m : Mode) : Statement (.verify m) := by cases m <;> rfl

theorem sendrecvT : Statement .sendrecvT := rfl

theorem sendrecvB : Statement .sendrecvB := rfl

theorem clear (m : Mode) : Statement (.clear m) := by cases m <;> rfl

end Sys2Proof.Laws.TableWord
end

