-- ==== Sys2Proof/Tests/Slice0.lean ====
section
/-! SUPPORT. Tests: ill-formed parameters, CMD words written out bit by bit, one step of each command and transport state,
and for every obligation with hypotheses a witness that meets them. Expected results are the vectors of
spec/95_test_vectors.md, named in each comment, or hand calculation from the rule named. -/

open Sys2Proof Sys2Proof.Machine

namespace Sys2Proof.Tests

/-! ## Helpers -/

/-- R10's defaults with `CAP` as given. -/
def paramsOf (cap : Nat) : Params where
  cap := cap
  maxAttempts := 5
  startByte := 0x24
  endByte := 0x23
  escByte := 0x7D
  rptByte := 0x2A
  ackByte := 0x2B
  escXor := 0x20
  rptBias := 29
  prefixMax := 0
  maxChunk := 1024
  fctBase := 0

/-- The reset state with `CAP` as given, `PB` loaded with `bs` and PLEN their number. -/
def loaded (cap : Nat) (bs : List Byte) : State :=
  { State.resetWith (paramsOf cap) with pb := Memory.writeRange [] 0 bs, plen := lengthWord bs.length }

/-- The reset state with DB loaded with `bs` and DB_LEN their number. -/
def decoded (bs : List Byte) : State :=
  { State.resetWith (paramsOf 64) with db := Memory.writeRange [] 0 bs, dbLen := lengthWord bs.length }

/-- A next state that passes a check. -/
def shows (r : Result) (check : State → Bool) : Bool :=
  match r with
  | .next t => check t
  | .fault _ => false
  | .refused _ => false

/-- A fault, by name. -/
def faults (r : Result) (f : Fault) : Bool :=
  match r with
  | .fault g => g == f
  | .next _ => false
  | .refused _ => false

/-- The first event the next step runs. -/
def withEvent (e : Event) (s : State) : State := { s with pending := [e] }

/-- Where the transaction of T-X1 stands after its start step: "$?" is in PB and its frame in TXB (T-E12). -/
def inSend : State :=
  { loaded 64 [0x24, 0x3F] with
    busy := true, state := .send, txb := Memory.writeRange [] 0 [0x24, 0x3F, 0x23, 0x33, 0x66], txLen := 5, txSum := 0x3F }

/-- The same transaction in RECV, with nothing received. -/
def inRecv : State := { inSend with state := .recv, attempts := 1, txLog := [([0x24, 0x3F, 0x23, 0x33, 0x66], .txok)] }

/-- In RECV after "+$S0". -/
def inRecvAcked : State :=
  { inRecv with rxb := Memory.writeRange [] 0 [0x2B, 0x24, 0x53, 0x30], rxLen := 4, ackSeen := true }

/-- In RECV after "-". -/
def inRecvNoise : State := { inRecv with rxb := [(0, 0x2D)], rxLen := 1 }

/-- In RECV of a machine with CAP = 4, after "+$S0": RXB is full. -/
def inRecvFull : State := { inRecvAcked with cfg := paramsOf 4, txb := [], txLen := 0 }

/-- In CHECK after RXTIMEOUT in attempt `n`. -/
def inCheck (n : Word) : State := { inRecv with state := .check, attempts := n }

/-- In DECODE with the reply `w` in RXB. -/
def inDecode (w : List Byte) : State :=
  { inRecv with
    state := .decode, rxb := Memory.writeRange [] 0 w, rxLen := lengthWord w.length, ackSeen := true, rxComplete := true }

/-- "+$OK#9a". -/
def okReply : List Byte := [0x2B, 0x24, 0x4F, 0x4B, 0x23, 0x39, 0x61]

/-- "+$OK#9b". -/
def badReply : List Byte := [0x2B, 0x24, 0x4F, 0x4B, 0x23, 0x39, 0x62]

/-! ## Parameters (00_scope.md R10): one ill-formed term per check -/

theorem test_wf_default : (paramsOf 64).wf = true := by decide

theorem test_wf_cap_low : (paramsOf 3).wf = false ∧ (paramsOf 3).capInRange = false := by decide

theorem test_wf_cap_high : (paramsOf (2 ^ 31)).wf = true ∧ (paramsOf (2 ^ 31 + 1)).wf = false := by decide

theorem test_wf_attempts : { paramsOf 64 with maxAttempts := 0 }.attemptsInRange = false := by decide

theorem test_wf_specials_distinct : { paramsOf 64 with ackByte := 0x2A }.specialsDistinct = false := by decide

theorem test_wf_specials_not_hex : { paramsOf 64 with escByte := 0x66 }.specialsNotHex = false := by decide

theorem test_wf_every_command : ∀ m, [Instr.encodeT, .encodeB, .decodeT, .decodeB, .checksum m, .verify m, .sendrecvT,
    .sendrecvB, .clear m].all Instr.wf = true := by
  intro m; cases m <;> decide

/-! ## CMD words written out from 30_encoding.md R91 and R92: bits 31:5, MODE, OP -/

theorem test_decode_encode_words :
    decodeCmd 0b000000000000000000000000000_0_0001 = .ok .encodeT ∧
    decodeCmd 0b000000000000000000000000000_1_0001 = .ok .encodeB := ⟨rfl, rfl⟩

theorem test_decode_decode_words :
    decodeCmd 0b000000000000000000000000000_0_0010 = .ok .decodeT ∧
    decodeCmd 0b000000000000000000000000000_1_0010 = .ok .decodeB := ⟨rfl, rfl⟩

theorem test_decode_checksum_words :
    decodeCmd 0b000000000000000000000000000_0_0011 = .ok (.checksum .text) ∧
    decodeCmd 0b000000000000000000000000000_1_0011 = .ok (.checksum .binary) := ⟨rfl, rfl⟩

theorem test_decode_verify_words :
    decodeCmd 0b000000000000000000000000000_0_0100 = .ok (.verify .text) ∧
    decodeCmd 0b000000000000000000000000000_1_0100 = .ok (.verify .binary) := ⟨rfl, rfl⟩

theorem test_decode_sendrecv_words :
    decodeCmd 0b000000000000000000000000000_0_0101 = .ok .sendrecvT ∧
    decodeCmd 0b000000000000000000000000000_1_0101 = .ok .sendrecvB := ⟨rfl, rfl⟩

theorem test_decode_clear_words :
    decodeCmd 0b000000000000000000000000000_0_0110 = .ok (.clear .text) ∧
    decodeCmd 0b000000000000000000000000000_1_0110 = .ok (.clear .binary) := ⟨rfl, rfl⟩

/-- T-K5, T-K6 (R94). -/
theorem test_decode_reserved_words :
    decodeCmd 0b000000000000000000000000000_0_0000 = .error (.opcode 0) ∧
    decodeCmd 0b000000000000000000000000000_0_0111 = .error (.opcode 7) ∧
    decodeCmd 0b000000000000000000000000000_0_1111 = .error (.opcode 15) ∧
    decodeCmd 0b000000000000000000000000001_0_0001 = .error .highBits ∧
    decodeCmd 0b100000000000000000000000000_0_0001 = .error .highBits := ⟨rfl, rfl, rfl, rfl, rfl⟩

theorem test_decodeTableWord : decodeTableWord 32 0x15 = some .sendrecvB ∧ decodeTableWord 32 0x21 = none := ⟨rfl, rfl⟩

/-! ## One step of each command -/

/-- T-E5: every byte of the escape set is escaped. -/
theorem test_encodeT_escapes : shows (execEncodeT (loaded 64 [0x24, 0x24, 0x23])) (fun t =>
    t.txb == Memory.writeRange [] 0 [0x24, 0x7D, 0x04, 0x7D, 0x03, 0x23, 0x34, 0x37] && t.txLen == 8 && t.txSum == 0x47 &&
      statusWord t == 0x002) = true := by decide

/-- T-E19: the frame needs 7 bytes, CAP is 6. -/
theorem test_encodeT_overflow : shows (execEncodeT (loaded 6 [0x24, 0x7D, 0x41])) (fun t =>
    t.txb == [] && t.txLen == 0 && t.errcode.code == 0x12 && statusWord t == 0x006) = true := by decide

/-- T-E11: nothing is escaped in BINARY. -/
theorem test_encodeB_raw : shows (execEncodeB (loaded 64 [0x24, 0x24, 0x23, 0x7D])) (fun t =>
    t.txb == Memory.writeRange [] 0 [0x24, 0x24, 0x23, 0x7D, 0x23, 0x63, 0x34] && t.txLen == 7 && t.txSum == 0xC4) =
    true := by decide

/-- T-E20: a frame of exactly CAP bytes is accepted. -/
theorem test_encodeB_fits : shows (execEncodeB (loaded 6 [0x24, 0x7D, 0x41])) (fun t =>
    t.txb == Memory.writeRange [] 0 [0x24, 0x7D, 0x41, 0x23, 0x62, 0x65] && t.txLen == 6 && t.errcode.code == 0) =
    true := by decide

/-- T-D11: a repeat unit with RLE_EN = 1. -/
theorem test_decodeT_repeat :
    shows (execDecodeT { loaded 64 [0x2B, 0x24, 0x30, 0x2A, 0x20, 0x23, 0x63, 0x30] with rleEn := true }) (fun t =>
      t.db == Memory.writeRange [] 0 [0x2B, 0x24, 0x30, 0x30, 0x30, 0x30, 0x23, 0x63, 0x30] && t.dbLen == 9) =
    true := by decide

/-- T-D3: a dangling escape leaves DB alone. -/
theorem test_decodeT_dangling : shows (execDecodeT (loaded 64 [0x2B, 0x24, 0x41, 0x7D])) (fun t =>
    t.db == [] && t.dbLen == 0 && t.errcode.code == 0x22 && statusWord t == 0x006) = true := by decide

/-- T-D2. -/
theorem test_decodeB_raw : shows (execDecodeB (loaded 64 [0x2B, 0x24, 0x7D, 0x5D, 0x23, 0x37, 0x64])) (fun t =>
    t.db == Memory.writeRange [] 0 [0x2B, 0x24, 0x7D, 0x5D, 0x23, 0x37, 0x64] && t.dbLen == 7) = true := by decide

/-- T-D13: no run-length decoding in BINARY. -/
theorem test_decodeB_no_repeat : shows (execDecodeB { loaded 64 [0x2B, 0x24, 0x30, 0x2A, 0x20] with rleEn := true })
    (fun t => t.db == Memory.writeRange [] 0 [0x2B, 0x24, 0x30, 0x2A, 0x20] && t.dbLen == 5) = true := by decide

/-- T-C1 and T-C2: MODE is ignored. -/
theorem test_checksum : ∀ m, shows (execChecksum m (loaded 64 [0x24, 0x4F, 0x4B])) (fun t =>
    t.txSum == 0x9A && t.txLen == 0 && statusWord t == 0x002) = true := by
  intro m; cases m <;> decide

/-- T-C5: the sum wraps. -/
theorem test_checksum_wraps :
    shows (execChecksum .text (loaded 64 [0x24, 0xFF, 0xFF])) (fun t => t.txSum == 0xFE) = true := by decide

/-- T-V1. -/
theorem test_verify_match : shows (execVerify .text (decoded okReply)) (fun t =>
    t.rplOff == 2 && t.rplLen == 2 && t.rxSum == 0x9A && t.rxField == 0x19A && statusWord t == 0x012) = true := by decide

/-- T-V4. -/
theorem test_verify_mismatch : shows (execVerify .text (decoded badReply)) (fun t =>
    t.rplOff == 0 && t.rplLen == 0 && t.rxSum == 0x9A && t.rxField == 0x19B && t.errcode.code == 0x21) = true := by decide

/-- T-E12 and R173: the start step leaves the frame in TXB and the transaction in SEND. -/
theorem test_sendrecvT_starts : shows (execSendrecvT (loaded 64 [0x24, 0x3F])) (fun t =>
    decide (t = inSend) && statusWord t == 0x101) = true := by decide

/-- T-X10: TX_OVERFLOW sends nothing. -/
theorem test_sendrecvT_overflow : shows (execSendrecvT (loaded 6 [0x24, 0x7D, 0x41])) (fun t =>
    t.txLog.isEmpty && t.attempts == 0 && t.txLen == 0 && t.errcode.code == 0x12 && statusWord t == 0x006) = true := by
  decide

/-- The note on T-X10: the same PB fits in BINARY. -/
theorem test_sendrecvB_starts : shows (execSendrecvB (loaded 6 [0x24, 0x7D, 0x41])) (fun t =>
    t.txLen == 6 && statusWord t == 0x101 && t.xmode == .binary) = true := by decide

/-- T-K8: HOST_VIOL is sticky; R212: SENDRECV while busy is refused. -/
theorem test_sendrecvB_refused : shows (execSendrecvB inSend) (fun t => decide (t = { inSend with hostViol := true })) =
    true := by decide

/-- T-K7: CLEAR keeps ATTEMPTS and TX_LEN. -/
theorem test_clear :
    shows (execClear .text { inSend with
        busy := false, state := .idle, done := true, err := true, errcode := .ackNotObtained, attempts := 5 })
      (fun t => statusWord t == 0 && t.errcode.code == 0 && t.attempts == 5 && t.txLen == 5) = true := by decide

/-! ## One step of each transport state -/

/-- T-X5. -/
theorem test_send_error : shows (fctStep (.txerr 2) inSend) (fun t =>
    statusWord t == 0x006 && t.errcode.code == 0x10 && t.attempts == 1 && t.txLog.length == 1) = true := by decide

/-- T-X1, first event. -/
theorem test_send_ok : shows (fctStep .txok inSend) (fun t => decide (t = inRecv)) = true := by decide

/-- P2: "+$S0" is acknowledged and not complete: STATUS is 0x209. -/
theorem test_recv_chunk : shows (linkEvent (.rx 0x2B [0x24, 0x53, 0x30]) inRecv) (fun t =>
    decide (t = inRecvAcked) && statusWord t == 0x209) = true := by decide

/-- P2: "5#b8" completes the terminator, so that the state is DECODE (STATUS 0x449 as in T-X18). -/
theorem test_recv_terminator : shows (linkEvent (.rx 0x35 [0x23, 0x62, 0x38]) inRecvAcked) (fun t =>
    t.rxLen == 8 && statusWord t == 0x449) = true := by decide

/-- T-X7's rule at CAP = 4: a full RXB overflows and keeps RX_LEN. -/
theorem test_recv_overflow : shows (linkEvent (.rx 0x61 []) inRecvFull) (fun t =>
    t.rxLen == 4 && t.rxb == inRecvFull.rxb && t.errcode.code == 0x13 && statusWord t == 0x00E) = true := by decide

/-- T-X4, T-X3 and T-X6: the two timeouts and the error. -/
theorem test_recv_timeouts :
    shows (linkEvent .rxTimeout inRecvAcked) (fun t => t.errcode.code == 0x15 && statusWord t == 0x00E) = true ∧
    shows (linkEvent .rxTimeout inRecv) (fun t => decide (t = inCheck 1)) = true ∧
    shows (linkEvent .rxError inRecvAcked) (fun t => t.errcode.code == 0x11 && statusWord t == 0x00E) = true := by decide

/-- T-X3: the fifth attempt is the last. -/
theorem test_check : shows (fctStep .txok (inCheck 4)) (fun t => t.state == .send) = true ∧
    shows (fctStep .txok (inCheck 5)) (fun t => t.errcode.code == 0x14 && statusWord t == 0x006) = true := by decide

/-- T-X14's reply without the refused writes. -/
theorem test_decode_step : shows (fctStep .txok (inDecode okReply)) (fun t =>
    statusWord t == 0x05A && t.dbLen == 7 && t.rplOff == 2 && t.rplLen == 2 && t.rxField == 0x19A) = true := by decide

/-- T-X8's and T-X9's rule: a mismatch fails with VERIFY_EN = 1 and passes with 0. -/
theorem test_decode_step_mismatch :
    shows (fctStep .txok (inDecode badReply)) (fun t =>
      statusWord t == 0x04E && t.dbLen == 0 && t.rplLen == 0 && t.rxField == 0x19B) = true ∧
    shows (fctStep .txok { inDecode badReply with verifyEn := false }) (fun t =>
      statusWord t == 0x04A && t.dbLen == 7 && t.rplLen == 2 && t.rxField == 0x19B) = true := by decide

/-- T-K14: RESET while busy. -/
theorem test_reset : shows (runEvent .reset inRecvAcked) (fun t =>
    decide (t = { State.resetWith (paramsOf 64) with txLog := inRecv.txLog })) = true := by decide

/-! ## The host ports -/

/-- T-K1, T-K2. -/
theorem test_reg_reads : (regReadValue 0x00 (loaded 64 []) = 1 ∧ regReadValue 0x04 (loaded 64 []) = 0 ∧
    regReadValue 0x38 (loaded 64 []) = 0x40 ∧ regReadValue 0x3C (loaded 64 []) = 5) ∧
    regReadValue 0x40 (loaded 64 []) = 0 ∧ regReadValue 0x02 (loaded 64 []) = 0 := by decide

/-- T-K3, T-K4. -/
theorem test_buf_reads : faults (bufRead 0 0 (loaded 64 [])) .uninit = true ∧
    shows (bufRead 0 64 (loaded 64 [])) (fun t => t.readData == 0) = true ∧
    shows (bufRead 0 1 (loaded 64 [0x24, 0x3F])) (fun t => t.readData == 0x3F) = true := by decide

/-- T-K9. -/
theorem test_ctrl_write : shows (regWrite 0x00 0xFFFFFFFF (loaded 64 [])) (fun t => regReadValue 0x00 t == 7) = true := by
  decide

/-- T-K10. -/
theorem test_buf_writes : shows (bufWrite 1 0 0x55 (loaded 64 [])) (fun t => statusWord t == 0x020 && t.txb == []) = true ∧
    shows (bufWrite 0 64 0 (loaded 64 [])) (fun t => statusWord t == 0x020 && t.pb == []) = true := by decide

/-- T-K11. -/
theorem test_interrupt : shows (execEncodeT { loaded 64 [0x24, 0x4F, 0x4B] with irqEn := true }) irq = true ∧
    irq { loaded 64 [] with irqEn := true } = false := by decide

/-- T-K5 by a step: the host writes a reserved word. -/
theorem test_step_reserved :
    shows (step ((loaded 64 []).withFetchWord 32 0)) (fun t => statusWord t == 0x006 && t.errcode.code == 0x30) = true := by
  decide

/-- T-K12 and T-K13 by a step, from the machine's own reset state. -/
theorem test_step_from_reset :
    shows (step (State.reset.withFetchWord 32 0x01)) (fun t => statusWord t == 0x006 && t.errcode.code == 0x31) = true ∧
    shows (step (State.reset.withFetchWord 32 0x04)) (fun t => t.errcode.code == 0x20) = true := ⟨rfl, rfl⟩

/-! ## The invariant holds of concrete states in every phase: witnesses for its users -/

/-- The reply view after "+$OK#9a" has been decoded and verified (T-X14's last row without HOST_VIOL). -/
def completed : State :=
  { inDecode okReply with
    busy := false, state := .idle, done := true, db := Memory.writeRange [] 0 okReply, dbLen := 7, rplOff := 2, rplLen := 2
    rxSum := 0x9A, rxField := 0x19A, chkOk := true }

/-- What the invariant asks, in a form that can be evaluated on one state: the four buffers listed, the rest as it stands. -/
abbrev Facts (s : State) : Prop :=
  (s.cfg.wf = true ∧ ∀ m ∈ [s.pb, s.txb, s.rxb, s.db], m.wf ∧ m.within s.cfg.cap) ∧
  ((s.busy = true ↔ s.state ≠ .idle) ∧ (s.err = true ↔ s.errcode ≠ .none) ∧ (s.done = true → s.busy = false)) ∧
  (s.attempts.toNat ≤ s.cfg.maxAttempts ∧ (s.state = .send → s.attempts.toNat < s.cfg.maxAttempts)) ∧
  (s.txLen.toNat ≤ s.cfg.cap ∧ s.rxLen.toNat ≤ s.cfg.cap ∧ s.dbLen.toNat ≤ s.cfg.cap ∧
    (0 < s.rplLen.toNat → s.rplOff.toNat + s.rplLen.toNat ≤ s.dbLen.toNat) ∧ s.rplOff.toNat ≤ s.cfg.cap) ∧
  (writtenBelow s.txb s.txLen.toNat ∧ writtenBelow s.rxb s.rxLen.toNat ∧ writtenBelow s.db s.dbLen.toNat) ∧
  ((s.rxComplete = true → 3 ≤ s.rxLen.toNat ∧ Memory.read s.rxb (s.rxLen.toNat - 3) = some s.cfg.endByte) ∧
    (s.state = .recv → s.rxComplete = false) ∧ (s.state = .decode → s.rxComplete = true ∧ s.ackSeen = true) ∧
    (s.state = .check → s.ackSeen = false)) ∧
  (s.txSum.toNat < 2 ^ 8 ∧ s.rxSum.toNat < 2 ^ 8 ∧
    (s.rxField = 0 ∨ 2 ^ 8 ≤ s.rxField.toNat ∧ s.rxField.toNat < 2 ^ 9)) ∧
  (s.busy = true → s.dbLen = 0 ∧ s.rplOff = 0 ∧ s.rplLen = 0 ∧ s.rxSum = 0 ∧ s.rxField = 0 ∧ s.chkOk = false ∧
    s.errcode = .none)

/-- `Facts`, evaluated: by `inv_of_facts` the invariant holds where it does. -/
def factsHold (s : State) : Bool := decide (Facts s)

theorem inv_of_facts {s : State} (h : Facts s) : Inv s := by
  obtain ⟨⟨params, bufs⟩, ⟨busyIff, errIff, doneIdle⟩, ⟨attemptsLe, sendLeft⟩,
    ⟨txLenLe, rxLenLe, dbLenLe, viewIn, rplOffLe⟩, ⟨txWritten, rxWritten, dbWritten⟩,
    ⟨complete, recvOpen, decodeDone, checkNoAck⟩, ⟨txSumByte, rxSumByte, fieldForm⟩, busyNoReply⟩ := h
  have buf : ∀ b, (buffer b s).wf ∧ (buffer b s).within s.cfg.cap := fun b =>
    bufs (buffer b s) (by cases b <;> simp [buffer])
  exact { params, canonical := fun b => (buf b).1, inCap := fun b => (buf b).2, busyIff, errIff, doneIdle, attemptsLe,
          sendLeft, txLenLe, rxLenLe, dbLenLe, viewIn, rplOffLe, txWritten, rxWritten, dbWritten, complete, recvOpen,
          decodeDone, checkNoAck, txSumByte, rxSumByte, busyNoReply, fieldForm }

theorem inv_fresh : Inv (loaded 64 [0x24, 0x3F]) := inv_of_facts (by decide)

theorem inv_send : Inv inSend := inv_of_facts (by decide)

theorem inv_recv : Inv inRecv := inv_of_facts (by decide)

theorem inv_recv_acked : Inv inRecvAcked := inv_of_facts (by decide)

theorem inv_recv_full : Inv inRecvFull := inv_of_facts (by decide)

theorem inv_check_retry : Inv (inCheck 4) := inv_of_facts (by decide)

theorem inv_check_last : Inv (inCheck 5) := inv_of_facts (by decide)

theorem inv_decode : Inv (inDecode okReply) := inv_of_facts (by decide)

theorem inv_decode_mismatch : Inv (inDecode badReply) := inv_of_facts (by decide)

theorem inv_completed : Inv completed := inv_of_facts (by decide)

theorem inv_withEvent (e : Event) {s : State} (h : Inv s) : Inv (withEvent e s) :=
  { h with
    canonical := fun b => by have hb := h.canonical b; cases b <;> exact hb
    inCap := fun b => by have hb := h.inCap b; cases b <;> exact hb }

/-! ## Witnesses: for each obligation with hypotheses, states and operands that meet them, clause by clause -/

theorem witness_CmdWordsOfTheTable : (0#4).toNat = 0 ∧ 7 ≤ (7#4).toNat ∧ 7 ≤ (15#4).toNat := by decide

theorem witness_CommandsAndWordsRoundTrip : Instr.encodeT.wf = true ∧ decodeCmd 0x16 = .ok (.clear .binary) := ⟨rfl, rfl⟩

theorem witness_ReservedWordsCompleteWithBadCommand :
    (0x10 : Word).toNat % 16 = 0 ∧ 7 ≤ (0x07 : Word).toNat % 16 ∧ 32 ≤ (0x21 : Word).toNat ∧ (loaded 64 []).busy = false ∧
    ¬((0x01 : Word).toNat % 16 = 0 ∨ 7 ≤ (0x01 : Word).toNat % 16 ∨ 32 ≤ (0x01 : Word).toNat) ∧
    ¬((0x16 : Word).toNat % 16 = 0 ∨ 7 ≤ (0x16 : Word).toNat % 16 ∨ 32 ≤ (0x16 : Word).toNat) := by decide

theorem witness_StepRunsDecodedCommand :
    (withEvent (.host (.regWrite 0x04 0x05)) (loaded 64 [0x24])).pending = .host (.regWrite 0x04 0x05) :: [] ∧
    decodeCmd 0x05 = .ok .sendrecvT ∧ decodeTableWord 32 0x05 = some .sendrecvT := ⟨rfl, rfl, rfl⟩

theorem witness_StepTakesEventsInOrder :
    (withEvent .reset (loaded 64 [])).pending = .reset :: [] ∧ (loaded 64 []).pending = [] := ⟨rfl, rfl⟩

theorem witness_RegisterPortMap : (1 % 4 ≠ 0 ∧ 0x3E % 4 ≠ 0) ∧ 0x3C < 0x40 ∧ (0x08 ≠ 0x00 ∧ 0x08 ≠ 0x04 ∧ 0x08 ≠ 0x10) ∧
    (0x40 ≠ 0x00 ∧ 0x40 ≠ 0x04 ∧ 0x40 ≠ 0x10) := by decide

theorem witness_StatusWordLayout : 11 ≤ 11 ∧ 11 ≤ 31 := by decide

/-- For CtrlWriteSetsThreeBits and PlenWriteStoresTheWord. -/
theorem witness_idle_writes : (loaded 64 []).busy = false ∧ completed.busy = false := by decide

theorem witness_BusyRefusesHostWrites : inRecvAcked.busy = true ∧ (0x08 ≠ 0x00 ∧ 0x08 ≠ 0x04 ∧ 0x08 ≠ 0x10) ∧
    3 < inRecvAcked.cfg.cap ∧ Memory.read (buffer .rxb inRecvAcked) 3 = some 0x30 := by decide

theorem witness_BufWriteReachesOnlyPayload :
    (loaded 64 []).busy = false ∧ 63 < (loaded 64 []).cfg.cap ∧ 1 ≠ 0 ∧ 4 ≠ 0 ∧ (loaded 64 []).cfg.cap ≤ 64 := by decide

theorem witness_BufReadReturnsWrittenBytes :
    (loaded 4 [0x24, 0x3F]).cfg.cap ≤ 4 ∧ Memory.read (buffer .pb (loaded 4 [0x24, 0x3F])) 1 = some 0x3F ∧
    (3 < (loaded 4 [0x24, 0x3F]).cfg.cap ∧ Memory.read (buffer .pb (loaded 4 [0x24, 0x3F])) 3 = none) := by decide

theorem witness_ReadsHaveNoSideEffect :
    (∃ t, regRead 0x08 inRecv = .next t) ∧ (∃ t, bufRead 0 1 inRecv = .next t) ∧ (∃ t, bufRead 0 64 inRecv = .next t) ∧
    ∃ t, bufRead 4 0 inRecv = .next t := ⟨⟨_, rfl⟩, ⟨_, rfl⟩, ⟨_, rfl⟩, ⟨_, rfl⟩⟩

theorem witness_InterruptFollowsDone :
    (∃ t, exec .sendrecvT (loaded 64 [0x24]) = .next t ∧ t.busy = true) ∧
    (∃ t, exec (.clear .text) completed = .next t) ∧
    ∃ t, exec .encodeT (loaded 64 [0x24]) = .next t ∧ t.busy = false := ⟨⟨_, rfl, rfl⟩, ⟨_, rfl⟩, ⟨_, rfl, rfl⟩⟩

theorem witness_OperandsAreThePayloadBytes :
    requestBytes (loaded 64 [0x24, 0x3F]) = some (0x24, [0x3F]) ∧ payloadBytes (loaded 64 [0x24]) = some [] ∧
    requestBytes { loaded 64 [0x24] with plen := 2 } = none := by decide

/-- For the length clauses of EncodeCommandResult, DecodeCommandResult, ChecksumCommandResult and SendrecvStartResult: PLEN of
0, 1, CAP and CAP + 1. -/
theorem witness_goodLength : ¬goodLength (loaded 64 []) ∧ goodLength (loaded 64 [0x24]) ∧
    goodLength { loaded 64 [] with plen := 64 } ∧ ¬goodLength { loaded 64 [] with plen := 65 } := by decide

/-- For EncodeCommandResult and SendrecvStartResult: an unwritten byte (T-E21), a frame of CAP bytes (T-E20) and one of
CAP + 1 (T-E19). -/
theorem witness_EncodeCommandResult :
    (loaded 6 [0x24, 0x7D, 0x41]).busy = false ∧ goodLength (loaded 6 [0x24, 0x7D, 0x41]) ∧
    requestBytes (loaded 6 [0x24, 0x7D, 0x41]) = some (0x24, [0x7D, 0x41]) ∧
    (encodeFrame (paramsOf 6) .binary 0x24 [0x7D, 0x41]).length ≤ 6 ∧
    6 < (encodeFrame (paramsOf 6) .text 0x24 [0x7D, 0x41]).length ∧
    goodLength { loaded 64 [0x24] with plen := 2 } ∧ requestBytes { loaded 64 [0x24] with plen := 2 } = none := by decide

theorem witness_EncodeCommandFrame :
    (∃ t, exec .encodeT inSend = .next t) ∧
    (∃ t, exec .encodeT (loaded 6 [0x24, 0x7D, 0x41]) = .next t ∧ t.errcode ≠ .none) ∧
    (∃ t, exec .encodeB (loaded 6 [0x24, 0x7D, 0x41]) = .next t) ∧
    requestBytes (loaded 6 [0x24, 0x7D, 0x41]) = some (0x24, [0x7D, 0x41]) ∧
    (encodeFrame (paramsOf 6) .binary 0x24 [0x7D, 0x41]).length ≤ 6 :=
  ⟨⟨_, rfl⟩, ⟨_, rfl, by decide⟩, ⟨_, rfl⟩, rfl, by decide⟩

theorem witness_DecodeCommandResult :
    (loaded 64 [0x2B, 0x24, 0x41, 0x7D]).busy = false ∧
    requestBytes (loaded 64 [0x2B, 0x24, 0x41, 0x7D]) = some (0x2B, [0x24, 0x41, 0x7D]) ∧
    decodeWire (paramsOf 64) .text false 0x2B [0x24, 0x41, 0x7D] = .error .danglingEscape ∧
    decodeWire (paramsOf 64) .binary false 0x2B [0x24, 0x41, 0x7D] = .ok [0x2B, 0x24, 0x41, 0x7D] :=
  ⟨rfl, rfl, rfl, rfl⟩

theorem witness_DecodeCommandFrame :
    (∃ t, exec .decodeT inSend = .next t) ∧
    (∃ t, exec .decodeT (loaded 64 [0x2B, 0x24, 0x41, 0x7D]) = .next t ∧ t.errcode ≠ .none) ∧
    (∃ t, exec .decodeB (loaded 64 [0x2B, 0x24, 0x41, 0x7D]) = .next t) ∧
    ([0x2B, 0x24, 0x41, 0x7D] : List Byte).length ≤ 4 :=
  ⟨⟨_, rfl⟩, ⟨_, rfl, by decide⟩, ⟨_, rfl⟩, by decide⟩

/-- T-C3: PB[0] alone, and here not even that. -/
theorem witness_ChecksumCommandResult :
    payloadBytes (loaded 64 [0x24, 0x4F, 0x4B]) = some [0x4F, 0x4B] ∧
    payloadBytes { loaded 64 [0x24] with plen := 2 } = none ∧ ({ loaded 64 [] with plen := 1 } : State).plen = 1 ∧
    1 ≤ ({ loaded 64 [] with plen := 1 } : State).cfg.cap := by decide

/-- T-V5, T-V4, T-V1, and a DB_LEN beyond the written bytes. -/
theorem witness_VerifyCommandResult :
    decodedBytes { decoded [] with dbLen := 1 } = none ∧
    decodedBytes (decoded okReply) = some okReply ∧
    view (paramsOf 64) [0x2B, 0x4F, 0x4B, 0x23, 0x39, 0x61] = none ∧ view (paramsOf 64) [] = none ∧
    view (paramsOf 64) badReply = some { off := 2, len := 2, sum := 0x9A, field := some 0x9B } ∧
    view (paramsOf 64) okReply = some { off := 2, len := 2, sum := 0x9A, field := some 0x9A } := by decide

theorem witness_ClearCommandResult : completed.busy = false ∧ completed.state = .idle ∧ inSend.busy = true := by decide

theorem witness_RegisterOnlyCommandsFrame :
    (∃ t, exec (.checksum .text) (loaded 64 [0x24]) = .next t) ∧
    (∃ t, exec (.checksum .text) (loaded 64 []) = .next t ∧ t.errcode ≠ .none) ∧
    (∃ t, exec (.verify .text) (decoded okReply) = .next t) ∧
    (∃ t, exec (.clear .text) completed = .next t) ∧ ∃ t, exec (.clear .text) inSend = .next t :=
  ⟨⟨_, rfl⟩, ⟨_, rfl, by decide⟩, ⟨_, rfl⟩, ⟨_, rfl⟩, ⟨_, rfl⟩⟩

theorem witness_SendrecvStartFrame :
    (∃ t, exec .sendrecvT inSend = .next t) ∧
    (∃ t, exec .sendrecvT (loaded 6 [0x24, 0x7D, 0x41]) = .next t ∧ t.errcode ≠ .none) ∧
    ∃ t, exec .sendrecvB (loaded 6 [0x24, 0x7D, 0x41]) = .next t :=
  ⟨⟨_, rfl⟩, ⟨_, rfl, by decide⟩, ⟨_, rfl⟩⟩

theorem witness_SendStepResult :
    inSend.state = .send ∧ frameBytes inSend = some [0x24, 0x3F, 0x23, 0x33, 0x66] := by decide

/-- A chunk that overflows a full RXB, one that completes the terminator at the third byte, one that leaves fewer than three
bytes, and one that leaves another byte third from last. -/
theorem witness_RecvChunkResult :
    (inRecvFull.cfg.wf = true ∧ inRecvFull.state = .recv ∧ inRecvFull.cfg.cap < inRecvFull.rxLen.toNat + [(0x61 : Byte)].length) ∧
    (inRecv.cfg.wf = true ∧ inRecv.rxLen.toNat + [(0x23 : Byte), 0x30, 0x30].length ≤ inRecv.cfg.cap ∧
      3 ≤ inRecv.rxLen.toNat + [(0x23 : Byte), 0x30, 0x30].length ∧
      Memory.read (Memory.writeRange inRecv.rxb 0 [0x23, 0x30, 0x30]) 0 = some inRecv.cfg.endByte) ∧
    inRecv.rxLen.toNat + [(0x2B : Byte), 0x24].length < 3 ∧
    (Memory.read (Memory.writeRange inRecvAcked.rxb 4 [0x35]) 2 = some 0x53 ∧ (0x53 : Byte) ≠ inRecvAcked.cfg.endByte) := by
  decide

theorem witness_RecvTimeoutAndErrorResult :
    inRecvAcked.state = .recv ∧ inRecvAcked.ackSeen = true ∧ inRecvNoise.state = .recv ∧ inRecvNoise.ackSeen = false := by
  decide

theorem witness_ReceiveOutsideRecvIsDiscarded :
    ∀ s ∈ [completed, inSend, inCheck 1, inDecode okReply], s.state ≠ .recv := by decide

theorem witness_CheckStepRetriesOrFails :
    (inCheck 4).state = .check ∧ (inCheck 4).attempts.toNat < (inCheck 4).cfg.maxAttempts ∧
    (inCheck 5).cfg.maxAttempts ≤ (inCheck 5).attempts.toNat := by decide

theorem witness_DecodeStepResult :
    (inDecode okReply).state = .decode ∧
    replyBytes (inDecode okReply) = some (0x2B :: [0x24, 0x4F, 0x4B, 0x23, 0x39, 0x61]) ∧
    decodeWire (paramsOf 64) .text false 0x2B [0x24, 0x4F, 0x4B, 0x23, 0x39, 0x61] = .ok okReply ∧
    decodeWire (paramsOf 64) .text false 0x2B [0x24, 0x23, 0x39, 0x7D] = .error .danglingEscape ∧
    view (paramsOf 64) okReply = some { off := 2, len := 2, sum := 0x9A, field := some 0x9A } ∧
    view (paramsOf 64) [0x2B, 0x4F, 0x4B, 0x23, 0x39, 0x61] = none ∧
    (inDecode okReply).verifyEn = true ∧ ({ inDecode okReply with verifyEn := false } : State).verifyEn = false :=
  ⟨rfl, rfl, rfl, rfl, rfl, rfl, rfl, rfl⟩

/-- A state whose DB holds one byte of an earlier decode, beyond DB_LEN = 0. -/
def dbWritten (s : State) : State := { s with db := [(0, 0x2B)] }

/-- A failure in SEND, in RECV, in CHECK and in DECODE: with a mismatch (T-X8), with no view (T-X20), with a decoding error,
and in each case with a byte of DB written before. -/
theorem witness_FailedTransactionOffersNoReply :
    ∀ x ∈ [(Event.fct (.txerr 0), dbWritten inSend, ErrCode.txIoError),
        (.link .rxTimeout, dbWritten inRecvAcked, .replyTimeout),
        (.fct .txok, dbWritten (inCheck 5), .ackNotObtained),
        (.fct .txok, dbWritten (inDecode badReply), .checksumMismatch),
        (.fct .txok, dbWritten (inDecode [0x2B, 0x4F, 0x4B, 0x23, 0x39, 0x61]), .badFrame),
        (.fct .txok, dbWritten (inDecode [0x2B, 0x24, 0x23, 0x39, 0x7D]), .danglingEscape)],
      factsHold (withEvent x.1 x.2.1) = true ∧ x.2.1.busy = true ∧ (Memory.read x.2.1.db 0).isSome = true ∧
      shows (step (withEvent x.1 x.2.1)) (fun t => t.busy == false && t.errcode == x.2.2) = true := by
  decide

/-- A transition out of every state: each event, from each state, answers a next state in the phase named. -/
theorem witness_TransportTransitions :
    ∀ x ∈ [(Event.host (.regWrite 0x04 0x05), loaded 64 [0x24, 0x3F], Phase.send), (.fct .txok, inSend, .recv),
        (.link .rxTimeout, inRecv, .check), (.link (.rx 0x23 [0x62, 0x38]), inRecvAcked, .decode),
        (.fct .txok, inCheck 4, .send), (.fct .txok, inDecode okReply, .idle)],
      shows (step (withEvent x.1 x.2.1)) (fun t => t.state == x.2.2 && x.2.1.state != t.state) = true := by
  decide

theorem witness_TransportTransitions_inv :
    Inv (withEvent (.link .rxTimeout) inRecv) ∧ Inv (withEvent (.fct .txok) (inDecode okReply)) :=
  ⟨inv_withEvent _ inv_recv, inv_withEvent _ inv_decode⟩

/-- The start of a transaction, and one step of it. -/
theorem witness_RewritesSendTheSameFrame :
    Inv (withEvent (.fct .txok) inSend) ∧ (withEvent (.fct .txok) inSend).state = .send ∧
    (withEvent (.fct .txok) inSend).attempts = 0 ∧ TransactionRun (withEvent (.fct .txok) inSend) inRecv ∧
    ∃ t, exec .sendrecvT (loaded 64 [0x24, 0x3F]) = .next t :=
  ⟨inv_withEvent _ inv_send, rfl, rfl, .step .refl rfl (by decide) rfl, ⟨_, rfl⟩⟩

theorem witness_TransactionMakesProgress :
    (Inv inSend ∧ movesOn (.fct .txok) inSend = true) ∧ (Inv inRecvAcked ∧ movesOn (.link .rxTimeout) inRecvAcked = true) ∧
    (Inv (inCheck 4) ∧ movesOn (.fct .txok) (inCheck 4) = true) ∧
    (Inv (inDecode okReply) ∧ movesOn (.fct .txok) (inDecode okReply) = true) ∧
    (inRecv.busy = true ∧ movesOn (.fct .txok) inRecv = false ∧ ∃ t, runEvent (.fct .txok) inRecv = .next t) :=
  ⟨⟨inv_send, rfl⟩, ⟨inv_recv_acked, rfl⟩, ⟨inv_check_retry, rfl⟩, ⟨inv_decode, rfl⟩, rfl, rfl, ⟨_, rfl⟩⟩

/-- CAP + 1 events at CAP = 4. -/
theorem witness_ReceivePhaseIsBounded :
    Inv inRecvFull ∧ inRecvFull.state = .recv ∧
    inRecvFull.cfg.cap < [RxEvent.rx 0x61 [], .rx 0x61 [], .rx 0x61 [], .rx 0x61 [], .rx 0x61 []].length :=
  ⟨inv_recv_full, rfl, by decide⟩

theorem witness_HostCannotEndTransaction :
    (inRecv.busy = true ∧ ∃ t, hostAccess (.regWrite 0x04 0x06) inRecv = .next t) ∧ Inv inSend ∧ inSend.state = .send ∧
    Inv (inCheck 5) ∧ (inCheck 5).state = .check ∧ Inv (inDecode badReply) ∧ (inDecode badReply).state = .decode ∧
    inRecv.state = .recv :=
  ⟨⟨rfl, _, rfl⟩, inv_send, rfl, inv_check_last, rfl, inv_decode_mismatch, rfl, rfl⟩

theorem witness_OnlySendTransmits :
    (∃ t, step (withEvent (.fct (.txerr 1)) inSend) = .next t) ∧ ∃ t, step (withEvent (.link .rxTimeout) inRecv) = .next t :=
  ⟨⟨_, rfl⟩, ⟨_, rfl⟩⟩

theorem witness_ResetEstablishesInvariant : (paramsOf 4).wf = true ∧ (paramsOf (2 ^ 31)).wf = true := by decide

theorem witness_StepKeepsInvariant :
    Inv (withEvent (.link .rxTimeout) inRecv) ∧ ∃ t, step (withEvent (.link .rxTimeout) inRecv) = .next t :=
  ⟨inv_withEvent _ inv_recv, ⟨_, rfl⟩⟩

/-- PLEN says three bytes and PB holds two. -/
def shortPayload : State := { loaded 64 [0x24, 0x3F] with plen := 3 }

/-- The two kinds of fault, in states that meet the invariant: a BufRead, and a command of each kind that reads PB. -/
theorem witness_OnlyUnwrittenBytesFault :
    ∀ e ∈ [HostAccess.bufRead 0 63, .regWrite 0x04 0x01, .regWrite 0x04 0x12, .regWrite 0x04 0x03, .regWrite 0x04 0x05],
      factsHold (withEvent (.host e) shortPayload) = true ∧
      faults (step (withEvent (.host e) shortPayload)) .uninit = true := by
  decide

theorem witness_HostViolIsSticky :
    (∃ t, step (withEvent (.host (.regWrite 0x04 0x06)) { loaded 64 [] with hostViol := true }) = .next t ∧
      t.hostViol = false) ∧
    (∃ t, step (withEvent .reset { inRecv with hostViol := true }) = .next t ∧ t.hostViol = false) ∧
    (∃ t, step (withEvent (.host (.regWrite 0x10 7)) inSend) = .next t ∧ t.hostViol = true) ∧
    ∃ t, step (withEvent (.host (.bufWrite 0 64 0)) (loaded 64 [])) = .next t ∧ t.hostViol = true :=
  ⟨⟨_, rfl, rfl⟩, ⟨_, rfl, rfl⟩, ⟨_, rfl, rfl⟩, ⟨_, rfl, rfl⟩⟩

theorem witness_ParametersAreHardwired :
    (paramsOf 4).wf = true ∧ (paramsOf (2 ^ 31)).wf = true ∧ ∃ t, step (withEvent .reset inRecv) = .next t :=
  ⟨by decide, by decide, _, rfl⟩

theorem witness_CompletedResultsAreStable :
    Inv completed ∧ completed.done = true ∧ (∀ w, HostAccess.regWrite 0x10 5 ≠ .regWrite 0x04 w) ∧
    ∃ t, runEvent (.host (.regWrite 0x10 5)) completed = .next t :=
  ⟨inv_completed, rfl, (by intro w h; cases h), ⟨_, rfl⟩⟩

theorem witness_AgentsWriteOnlyTheirState :
    (∃ t, exec .encodeT (loaded 64 [0x24]) = .next t) ∧ (∃ t, fctStep .txok inSend = .next t) ∧
    (∃ t, linkEvent .rxError inRecv = .next t) ∧ (∀ w, HostAccess.bufWrite 0 0 0x24 ≠ .regWrite 0x04 w) ∧
    ∃ t, hostAccess (.bufWrite 0 0 0x24) (loaded 64 []) = .next t :=
  ⟨⟨_, rfl⟩, ⟨_, rfl⟩, ⟨_, rfl⟩, (by intro w h; cases h), ⟨_, rfl⟩⟩

theorem witness_CommandsRightAfterReset : 4 ≤ (paramsOf 4).cap ∧ decodeCmd 0x00 = .error (.opcode 0) ∧ 3 < (paramsOf 4).cap :=
  ⟨by decide, rfl, by decide⟩

/-- L1-1's instance, in each of the three forms, and a frame of exactly CAP bytes. -/
theorem witness_WireRoundTrip :
    (paramsOf 10).wf = true ∧
    encodeFrame (paramsOf 10) .text 0x24 [0x7D, 0x24, 0x23] =
      0x24 :: [0x7D, 0x5D, 0x7D, 0x04, 0x7D, 0x03, 0x23, 0x63, 0x34] ∧
    (encodeFrame (paramsOf 10) .text 0x24 [0x7D, 0x24, 0x23]).length ≤ (paramsOf 10).cap ∧
    encodeFrame (paramsOf 10) .binary 0x24 [0x2A] = 0x24 :: [0x2A, 0x23, 0x32, 0x61] ∧
    (paramsOf 10).rptByte ∉ [(0x7D : Byte), 0x24, 0x23] := by decide

theorem witness_EncodedFrameTrailer :
    (loaded 64 [0x24, 0x3F]).cfg.wf = true ∧ (loaded 64 [0x24, 0x3F]).busy = false ∧ goodLength (loaded 64 [0x24, 0x3F]) ∧
    requestBytes (loaded 64 [0x24, 0x3F]) = some (0x24, [0x3F]) ∧
    (∃ t, exec .encodeT (loaded 64 [0x24, 0x3F]) = .next t ∧ t.errcode = .none) ∧
    ∃ t, exec .sendrecvT (loaded 64 [0x24, 0x3F]) = .next t ∧ t.busy = true :=
  ⟨by decide, rfl, by decide, rfl, ⟨_, rfl, rfl⟩, ⟨_, rfl, rfl⟩⟩

theorem witness_DecodedLengthBounds :
    ([0x2B, 0x2A] : List Byte).length ≤ (paramsOf 4).cap ∧ decodeWire (paramsOf 4) .text false 0x2B [0x2A] = .ok [0x2B, 0x2A] ∧
    decodeWire (paramsOf 4) .text false 0x2B [0x7D] = .error .danglingEscape :=
  ⟨by decide, rfl, rfl⟩

/-- Input that decodes, ending in a literal, an escape unit and a repeat unit; count bytes 28 and 29, and the two counts that
just fit and just overflow; an input that fails and goes on. -/
theorem witness_EscapeAndRepeatUnits :
    (paramsOf 6).wf = true ∧
    decodeWire (paramsOf 6) .text true 0x2B [] = .ok [0x2B] ∧
    decodeWire (paramsOf 6) .text true 0x2B [0x7D, 0x5D] = .ok [0x2B, 0x7D] ∧
    decodeWire (paramsOf 6) .text true 0x2B [0x7D, 0x5D, 0x2A, 0x1E] = .ok [0x2B, 0x7D, 0x7D] ∧
    ((0x41 : Byte) ≠ (paramsOf 6).escByte ∧ (0x41 : Byte) ≠ (paramsOf 6).rptByte) ∧
    (28#8).toNat < (paramsOf 6).rptBias ∧ (paramsOf 6).rptBias ≤ (29#8).toNat ∧
    3 + ((32#8).toNat - (paramsOf 6).rptBias) ≤ (paramsOf 6).cap ∧
    (paramsOf 6).cap < 3 + ((33#8).toNat - (paramsOf 6).rptBias) ∧
    decodeWire (paramsOf 6) .text true 0x2B [0x2A, 0x1C] = .error .badRepeatCount :=
  ⟨by decide, rfl, rfl, rfl, by decide, by decide, by decide, by decide, by decide, rfl⟩

/-- R133 by hand: a repeat unit repeats the byte an escape unit produced, and the byte an earlier repeat unit left. -/
theorem test_repeat_after_units :
    decodeWire (paramsOf 64) .text true 0x2B [0x7D, 0x03, 0x2A, 0x1F] = .ok [0x2B, 0x23, 0x23, 0x23] ∧
    decodeWire (paramsOf 64) .text true 0x2B [0x41, 0x2A, 0x1E, 0x2A, 0x1E, 0x42] =
      .ok [0x2B, 0x41, 0x41, 0x41, 0x42] := ⟨rfl, rfl⟩

/-- Both ends of the three digit ranges, and the bytes next to them. -/
theorem witness_ChecksumDigitsParse :
    [0x2F, 0x30, 0x39, 0x3A, 0x40, 0x41, 0x46, 0x47, 0x60, 0x61, 0x66, 0x67].map hexVal =
      [none, some 0, some 9, none, none, some 10, some 15, none, none, some 10, some 15, none] ∧
    field 0x39 0x41 = some 0x9A := by decide

/-- T-V6: the shortest view. -/
theorem witness_ViewIsBetweenStartAndEnd :
    view (paramsOf 64) [0x24, 0x23, 0x30, 0x30] = some { off := 1, len := 0, sum := 0, field := some 0 } ∧
    view (paramsOf 64) [0x2B, 0x24, 0x23, 0x30] = none := by decide

theorem witness_LoadPbLoadsThePayload :
    (loaded 4 []).busy = false ∧ (loaded 4 []).state = .idle ∧
    ([0x24, 0x4F, 0x4B, 0x21] : List Byte).length ≤ (loaded 4 []).cfg.cap ∧ (loaded 4 []).cfg.cap ≤ 2 ^ 31 := by decide

theorem witness_ResetKeepsTheEnvironment : (withEvent (.link .rxTimeout) inRecv).pending = [.link .rxTimeout] ∧
    ∃ t, runEvent .reset (withEvent (.link .rxTimeout) inRecv) = .next t := ⟨rfl, _, rfl⟩

end Sys2Proof.Tests
end

section
/-! PROOFS, 10_state.md (1): every step of every agent keeps the invariant. -/

namespace Sys2Proof.Machine

/-! ## The buffers of a state, one by one -/

theorem forall_buffer {P : Memory → Prop} {s : State} (hpb : P s.pb) (htxb : P s.txb) (hrxb : P s.rxb) (hdb : P s.db) :
    ∀ b, P (buffer b s)
  | .pb => hpb
  | .txb => htxb
  | .rxb => hrxb
  | .db => hdb

theorem writtenBelow_zero (m : Memory) : writtenBelow m 0 := fun a ha => absurd ha a.not_lt_zero

/-- Writing a range leaves the bytes below its end written if those before it were. -/
theorem writtenBelow_writeRange {m : Memory} {i : Nat} {bs : List Byte} (h : writtenBelow m i) :
    writtenBelow (Memory.writeRange m i bs) (i + bs.length) := by
  intro a ha
  by_cases hai : a < i
  · rw [Memory.read_writeRange_outside (.inl hai)]
    exact h a hai
  · rw [Memory.read_writeRange, if_pos (by omega), List.getElem?_eq_getElem (by omega)]
    rfl

theorem writtenBelow_writeRange_zero (m : Memory) (bs : List Byte) :
    writtenBelow (Memory.writeRange m 0 bs) bs.length := by
  simpa only [Nat.zero_add] using writtenBelow_writeRange (bs := bs) (writtenBelow_zero m)

theorem inv_resetWith {p : Params} (hp : p.wf = true) : Inv (State.resetWith p) where
  params := hp
  canonical := forall_buffer .nil .nil .nil .nil
  inCap := forall_buffer (P := fun m => m.within p.cap) (List.forall_mem_nil _) (List.forall_mem_nil _)
    (List.forall_mem_nil _) (List.forall_mem_nil _)
  busyIff := by simp [State.resetWith]
  errIff := by simp [State.resetWith]
  doneIdle := fun _ => rfl
  attemptsLe := Nat.zero_le _
  sendLeft := nofun
  txLenLe := Nat.zero_le _
  rxLenLe := Nat.zero_le _
  dbLenLe := Nat.zero_le _
  viewIn := nofun
  rplOffLe := Nat.zero_le _
  txWritten := writtenBelow_zero _
  rxWritten := writtenBelow_zero _
  dbWritten := writtenBelow_zero _
  complete := nofun
  recvOpen := nofun
  decodeDone := nofun
  checkNoAck := nofun
  txSumByte := by simp [State.resetWith]
  rxSumByte := by simp [State.resetWith]
  busyNoReply := nofun
  fieldForm := .inl rfl

namespace Inv

variable {s t : State}

/-! ## What the invariant gives its users -/

theorem four_le_cap (h : Inv s) : 4 ≤ s.cfg.cap := ((params_wf_iff _).mp h.params).1.1

theorem cap_le (h : Inv s) : s.cfg.cap ≤ 2 ^ 31 := ((params_wf_iff _).mp h.params).1.2

theorem maxAttempts_pos (h : Inv s) : 1 ≤ s.cfg.maxAttempts := ((params_wf_iff _).mp h.params).2.1.1

theorem maxAttempts_lt (h : Inv s) : s.cfg.maxAttempts < 2 ^ 32 := ((params_wf_iff _).mp h.params).2.1.2

theorem state_idle (h : Inv s) (hb : s.busy = false) : s.state = .idle := by
  by_contra hs
  simp [h.busyIff.mpr hs] at hb

theorem lengthWord_toNat (h : Inv s) {n : Nat} (hn : n ≤ s.cfg.cap) : (lengthWord n).toNat = n :=
  Machine.lengthWord_toNat (hn.trans h.cap_le)

/-- The canonical form, for a state with the same buffers. -/
theorem canonical_of_same (h : Inv s) (hpb : t.pb = s.pb := by rfl) (htxb : t.txb = s.txb := by rfl)
    (hrxb : t.rxb = s.rxb := by rfl) (hdb : t.db = s.db := by rfl) : ∀ b, (buffer b t).wf :=
  forall_buffer (hpb ▸ h.canonical .pb) (htxb ▸ h.canonical .txb) (hrxb ▸ h.canonical .rxb) (hdb ▸ h.canonical .db)

/-- The bound of CAP, for a state with the same buffers. -/
theorem inCap_of_same (h : Inv s) (hcfg : t.cfg = s.cfg := by rfl) (hpb : t.pb = s.pb := by rfl)
    (htxb : t.txb = s.txb := by rfl) (hrxb : t.rxb = s.rxb := by rfl) (hdb : t.db = s.db := by rfl) :
    ∀ b, (buffer b t).within t.cfg.cap :=
  hcfg ▸ forall_buffer (P := fun m => m.within s.cfg.cap) (hpb ▸ h.inCap .pb) (htxb ▸ h.inCap .txb) (hrxb ▸ h.inCap .rxb)
    (hdb ▸ h.inCap .db)

/-! ## The updates that keep it in every state -/

/-- The invariant says nothing of CTRL, HOST_VIOL, PLEN, XMODE, the Link's record and the model's own fields. -/
theorem update_unread (h : Inv s) {verifyEn rleEn irqEn hostViol : Bool} {plen readData : Word} {xmode : Mode}
    {txLog : List (List Byte × TxOutcome)} {pending : List Event} {draws : Nat} :
    Inv { s with verifyEn, rleEn, irqEn, hostViol, plen, readData, xmode, txLog, pending, draws } :=
  { h with canonical := h.canonical_of_same, inCap := h.inCap_of_same }

theorem after_takeEvent (h : Inv s) : Inv (takeEvent s).2 := by
  rw [takeEvent_snd]
  exact h.update_unread

theorem after_beginCommand (h : Inv s) : Inv (beginCommand s) :=
  { h with
    canonical := h.canonical_of_same
    inCap := h.inCap_of_same
    errIff := by simp
    doneIdle := by simp
    busyNoReply := fun hb => by
      obtain ⟨hdb, hoff, hlen, hsum, hfield, hchk, -⟩ := h.busyNoReply hb
      exact ⟨hdb, hoff, hlen, hsum, hfield, hchk, rfl⟩ }

theorem after_clearView (h : Inv s) : Inv (clearView s) :=
  { h with
    canonical := h.canonical_of_same
    inCap := h.inCap_of_same
    viewIn := by simp
    rplOffLe := by simp
    rxSumByte := by simp
    fieldForm := .inl rfl
    busyNoReply := fun hb => by
      obtain ⟨hdb, -, -, -, -, -, herr⟩ := h.busyNoReply hb
      exact ⟨hdb, rfl, rfl, rfl, rfl, rfl, herr⟩ }

theorem after_finish (h : Inv s) (c : ErrCode) : Inv (finish c s) :=
  { h with
    canonical := h.canonical_of_same
    inCap := h.inCap_of_same
    busyIff := by simp
    errIff := by simp
    doneIdle := by simp
    sendLeft := by simp
    recvOpen := by simp
    decodeDone := by simp
    checkNoAck := by simp
    busyNoReply := by simp }

/-- No reply is offered: what `failTransaction` and a failing DECODE set, beside the completion. -/
theorem update_noReply (h : Inv s) : Inv { s with dbLen := 0, rplOff := 0, rplLen := 0, chkOk := false } :=
  { h with
    canonical := h.canonical_of_same
    inCap := h.inCap_of_same
    dbLenLe := by simp
    viewIn := by simp
    rplOffLe := by simp
    dbWritten := writtenBelow_zero _
    busyNoReply := fun hb => by
      obtain ⟨-, -, -, hsum, hfield, -, herr⟩ := h.busyNoReply hb
      exact ⟨rfl, rfl, rfl, hsum, hfield, rfl, herr⟩ }

theorem after_failTransaction (h : Inv s) (c : ErrCode) : Inv (failTransaction c s) := h.update_noReply.after_finish c

theorem after_storeSum (h : Inv s) (sum : Byte) : Inv (storeSum sum s) :=
  { h with
    canonical := h.canonical_of_same
    inCap := h.inCap_of_same
    txSumByte := by simpa [zext32_toNat] using sum.isLt }

theorem after_storeFrame (h : Inv s) {frame : List Byte} (sum : Byte) (hf : frame.length ≤ s.cfg.cap) :
    Inv (storeFrame frame sum s) :=
  have hlen : (storeFrame frame sum s).txLen.toNat = frame.length := h.lengthWord_toNat hf
  { h with
    canonical :=
      forall_buffer (h.canonical .pb) (Memory.writeRange_wf 0 frame (h.canonical .txb)) (h.canonical .rxb) (h.canonical .db)
    inCap :=
      forall_buffer (P := fun m => m.within s.cfg.cap) (h.inCap .pb)
        (Memory.writeRange_within (h.inCap .txb) (by omega)) (h.inCap .rxb) (h.inCap .db)
    txLenLe := hlen ▸ hf
    txWritten := hlen ▸ writtenBelow_writeRange_zero s.txb frame
    txSumByte := by simpa [zext32_toNat] using sum.isLt }

theorem after_writePayload (h : Inv s) {i : Nat} (b : Byte) (hi : i < s.cfg.cap) : Inv (writePayload i b s) :=
  { h with
    canonical :=
      forall_buffer (Memory.write_wf i b (h.canonical .pb)) (h.canonical .txb) (h.canonical .rxb) (h.canonical .db)
    inCap :=
      forall_buffer (P := fun m => m.within s.cfg.cap) (Memory.write_within b (h.inCap .pb) hi) (h.inCap .txb)
        (h.inCap .rxb) (h.inCap .db) }

theorem after_platformReset (h : Inv s) : Inv (platformReset s) := (inv_resetWith h.params).update_unread

/-! ## The updates that keep it while idle -/

theorem after_clearFlags (h : Inv s) (hb : s.busy = false) : Inv (clearFlags s) :=
  { h with
    canonical := h.canonical_of_same
    inCap := h.inCap_of_same
    errIff := by simp
    doneIdle := by simp
    complete := by simp
    recvOpen := by simp
    decodeDone := by simp [h.state_idle hb]
    checkNoAck := by simp
    busyNoReply := by simp [hb] }

/-- No acknowledgement and nothing received, and no attempt counted: what the start of a transaction sets. -/
theorem update_noAttempt (h : Inv s) (hb : s.busy = false) :
    Inv { s with ackSeen := false, rxComplete := false, attempts := 0 } :=
  { h with
    canonical := h.canonical_of_same
    inCap := h.inCap_of_same
    attemptsLe := by simp
    sendLeft := by simp [h.state_idle hb]
    complete := by simp
    recvOpen := by simp
    decodeDone := by simp [h.state_idle hb]
    checkNoAck := by simp }

theorem after_beginTransaction (h : Inv s) (hb : s.busy = false) (m : Mode) : Inv (beginTransaction m s) :=
  ((h.after_beginCommand.after_clearView).update_noAttempt hb).update_noReply.update_unread

theorem after_enterSend (h : Inv s) (hd : s.done = false) (ha : s.attempts.toNat < s.cfg.maxAttempts)
    (hr : s.dbLen = 0 ∧ s.rplOff = 0 ∧ s.rplLen = 0 ∧ s.rxSum = 0 ∧ s.rxField = 0 ∧ s.chkOk = false ∧ s.errcode = .none) :
    Inv (enterSend s) :=
  { h with
    canonical := h.canonical_of_same
    inCap := h.inCap_of_same
    busyIff := by simp
    doneIdle := by simp [hd]
    sendLeft := fun _ => ha
    recvOpen := by simp
    decodeDone := by simp
    checkNoAck := by simp
    busyNoReply := fun _ => hr }

theorem after_storeDecoded (h : Inv s) (hb : s.busy = false) (hv : s.rplLen = 0) {out : List Byte}
    (ho : out.length ≤ s.cfg.cap) : Inv (storeDecoded out s) :=
  have hlen : (storeDecoded out s).dbLen.toNat = out.length := h.lengthWord_toNat ho
  { h with
    canonical :=
      forall_buffer (h.canonical .pb) (h.canonical .txb) (h.canonical .rxb) (Memory.writeRange_wf 0 out (h.canonical .db))
    inCap :=
      forall_buffer (P := fun m => m.within s.cfg.cap) (h.inCap .pb) (h.inCap .txb) (h.inCap .rxb)
        (Memory.writeRange_within (h.inCap .db) (by omega))
    dbLenLe := hlen ▸ ho
    viewIn := by simp [hv]
    dbWritten := hlen ▸ writtenBelow_writeRange_zero s.db out
    busyNoReply := by simp [hb] }

theorem after_showSums (h : Inv s) (hb : s.busy = false) (v : ReplyView) : Inv (showSums v s) :=
  { h with
    canonical := h.canonical_of_same
    inCap := h.inCap_of_same
    rxSumByte := by simpa [zext32_toNat] using v.sum.isLt
    fieldForm := fieldWord_form v.field
    busyNoReply := by simp [hb] }

theorem after_showView (h : Inv s) (hb : s.busy = false) {v : ReplyView} (hv : v.off + v.len ≤ s.dbLen.toNat) :
    Inv (showView v s) :=
  have hcap := h.dbLenLe
  have hoff : (showView v s).rplOff.toNat = v.off := h.lengthWord_toNat (by omega)
  have hlen : (showView v s).rplLen.toNat = v.len := h.lengthWord_toNat (by omega)
  { h with
    canonical := h.canonical_of_same
    inCap := h.inCap_of_same
    viewIn := fun _ => by rw [hoff, hlen]; exact hv
    rplOffLe := by rw [hoff, showView_cfg]; omega
    busyNoReply := by simp [hb] }

theorem after_markMatch (h : Inv s) (hb : s.busy = false) : Inv (markMatch s) :=
  { h with
    canonical := h.canonical_of_same
    inCap := h.inCap_of_same
    busyNoReply := by simp [hb] }

/-! ## The updates of a transaction's steps -/

theorem after_beginAttempt (h : Inv s) (hs : s.state = .send) : Inv (goTo .recv (beginAttempt s)) :=
  have hleft := h.sendLeft hs
  have hmax := h.maxAttempts_lt
  { h with
    canonical := h.canonical_of_same
    inCap := h.inCap_of_same
    busyIff := by simp [h.busyIff, hs]
    attemptsLe := by simp only [goTo_attempts, beginAttempt_attempts, goTo_cfg, beginAttempt_cfg]; bv_omega
    sendLeft := by simp
    rxLenLe := by simp
    rxWritten := writtenBelow_zero _
    complete := by simp
    recvOpen := by simp
    decodeDone := by simp
    checkNoAck := by simp }

theorem after_storeChunk (h : Inv s) (hs : s.state = .recv) {c0 : Byte} {c : List Byte}
    (hc : s.rxLen.toNat + (c0 :: c).length ≤ s.cfg.cap) : Inv (storeChunk s.cfg c0 c s) :=
  have hlen : (storeChunk s.cfg c0 c s).rxLen.toNat = s.rxLen.toNat + (c0 :: c).length := h.lengthWord_toNat hc
  { h with
    canonical :=
      forall_buffer (h.canonical .pb) (h.canonical .txb) (Memory.writeRange_wf _ _ (h.canonical .rxb)) (h.canonical .db)
    inCap :=
      forall_buffer (P := fun m => m.within s.cfg.cap) (h.inCap .pb) (h.inCap .txb)
        (Memory.writeRange_within (h.inCap .rxb) hc) (h.inCap .db)
    rxLenLe := hlen ▸ hc
    rxWritten := hlen ▸ writtenBelow_writeRange h.rxWritten
    complete := by simp [h.recvOpen hs]
    decodeDone := by simp [hs]
    checkNoAck := by simp [hs] }

theorem after_completeReceive (h : Inv s) (hs : s.state = .recv)
    (he : 3 ≤ s.rxLen.toNat ∧ Memory.read s.rxb (s.rxLen.toNat - 3) = some s.cfg.endByte) : Inv (completeReceive s) :=
  { h with
    canonical := h.canonical_of_same
    inCap := h.inCap_of_same
    busyIff := by cases ha : s.ackSeen <;> simp [h.busyIff, hs, ha]
    sendLeft := by cases ha : s.ackSeen <;> simp [ha]
    complete := fun _ => he
    recvOpen := by cases ha : s.ackSeen <;> simp [ha]
    decodeDone := by cases ha : s.ackSeen <;> simp [ha]
    checkNoAck := by cases ha : s.ackSeen <;> simp [ha] }

theorem after_goTo_check (h : Inv s) (hs : s.state = .recv) (ha : s.ackSeen = false) : Inv (goTo .check s) :=
  { h with
    canonical := h.canonical_of_same
    inCap := h.inCap_of_same
    busyIff := by simp [h.busyIff, hs]
    sendLeft := by simp
    recvOpen := by simp
    decodeDone := by simp
    checkNoAck := fun _ => ha }

theorem after_goTo_send (h : Inv s) (hs : s.state = .check) (ha : s.attempts.toNat < s.cfg.maxAttempts) :
    Inv (goTo .send s) :=
  { h with
    canonical := h.canonical_of_same
    inCap := h.inCap_of_same
    busyIff := by simp [h.busyIff, hs]
    sendLeft := fun _ => ha
    recvOpen := by simp
    decodeDone := by simp
    checkNoAck := by simp }

/-! ## The commands and the steps -/

theorem after_encodeCommand (h : Inv s) {m : Mode} (hn : encodeCommand m s = .next t) : Inv t := by
  have hs := h.after_beginCommand
  obtain ⟨-, rfl⟩ | ⟨-, -, rfl⟩ | ⟨-, -, b0, bs, -, ⟨-, rfl⟩ | ⟨hf, rfl⟩⟩ := encodeCommand_next hn
  · exact h.update_unread
  · exact hs.after_finish _
  · exact hs.after_finish _
  · exact (hs.after_storeFrame _ hf).after_finish _

/-- A DECODE that fails has the effect of a failing transaction, the view being clear already. -/
theorem after_decodeCommand (h : Inv s) {m : Mode} (hn : decodeCommand m s = .next t) : Inv t := by
  have hs := h.after_beginCommand.after_clearView
  obtain ⟨-, rfl⟩ | ⟨-, -, rfl⟩ | ⟨hb, -, w0, rest, -, ⟨e, -, rfl⟩ | ⟨out, ho, rfl⟩⟩ := decodeCommand_next hn
  · exact h.update_unread
  · exact hs.after_failTransaction _
  · exact hs.after_failTransaction _
  · exact (hs.after_storeDecoded hb rfl (decodeWire_length h.four_le_cap ho)).after_finish _

theorem after_execChecksum (h : Inv s) {m : Mode} (hn : execChecksum m s = .next t) : Inv t := by
  have hs := h.after_beginCommand
  obtain ⟨-, rfl⟩ | ⟨-, -, rfl⟩ | ⟨-, -, bs, -, rfl⟩ := execChecksum_next hn
  · exact h.update_unread
  · exact hs.after_finish _
  · exact (hs.after_storeSum _).after_finish _

theorem after_execVerify (h : Inv s) {m : Mode} (hn : execVerify m s = .next t) : Inv t := by
  have hs := h.after_beginCommand.after_clearView
  obtain ⟨-, rfl⟩ | ⟨hb, d, hd, ⟨-, rfl⟩ | ⟨v, hv, ⟨-, rfl⟩ | ⟨-, rfl⟩⟩⟩ := execVerify_next hn
  · exact h.update_unread
  · exact hs.after_finish _
  · obtain ⟨-, -, -, -, hlen, -⟩ := view_some hv
    have hin : v.off + v.len ≤ s.dbLen.toNat := by rw [← Memory.readRange_length hd]; omega
    exact (((hs.after_showSums hb v).after_showView hb hin).after_markMatch hb).after_finish _
  · exact (hs.after_showSums hb v).after_finish _

theorem after_execClear (h : Inv s) {m : Mode} (hn : execClear m s = .next t) : Inv t := by
  obtain ⟨-, rfl⟩ | ⟨hb, hn⟩ := whenIdle_next hn
  · exact h.update_unread
  · cases hn
    exact h.after_clearFlags hb

theorem after_startTransaction (h : Inv s) {m : Mode} (hn : startTransaction m s = .next t) : Inv t := by
  obtain ⟨-, rfl⟩ | ⟨hb, -, rfl⟩ | ⟨hb, -, b0, bs, -, ⟨-, rfl⟩ | ⟨hf, rfl⟩⟩ := startTransaction_next hn
  · exact h.update_unread
  · exact (h.after_beginTransaction hb m).after_failTransaction _
  · exact (h.after_beginTransaction hb m).after_failTransaction _
  · exact ((h.after_beginTransaction hb m).after_storeFrame _ hf).after_enterSend rfl h.maxAttempts_pos
      ⟨rfl, rfl, rfl, rfl, rfl, rfl, rfl⟩

theorem after_sendStep (h : Inv s) (hs : s.state = .send) {o : TxOutcome} (hn : sendStep o s = .next t) : Inv t := by
  obtain ⟨frame, -, ⟨-, rfl⟩ | ⟨n, -, rfl⟩⟩ := sendStep_next hn
  · exact (h.after_beginAttempt hs).update_unread
  · exact Inv.after_failTransaction (s := goTo .recv (linkSend frame o (beginAttempt s)))
      (h.after_beginAttempt hs).update_unread _

theorem after_recvChunk (h : Inv s) (hs : s.state = .recv) {c0 : Byte} {c : List Byte}
    (hn : recvChunk c0 c s = .next t) : Inv t := by
  obtain ⟨-, rfl⟩ | ⟨hc, ⟨h3, he, rfl⟩ | ⟨-, rfl⟩⟩ := recvChunk_next hn
  · exact h.after_failTransaction _
  · exact (h.after_storeChunk hs hc).after_completeReceive hs ⟨h3, he⟩
  · exact h.after_storeChunk hs hc

theorem after_checkStep (h : Inv s) (hs : s.state = .check) (hn : checkStep s = .next t) : Inv t := by
  obtain ⟨ha, rfl⟩ | ⟨-, rfl⟩ := checkStep_next hn
  · exact h.after_goTo_send hs ha
  · exact h.after_failTransaction _

/-- The DECODE step writes the reply and completes at once, so its answer is also what the same writes make of the completed
transaction, where each of them keeps the invariant. -/
theorem after_decodeStep (h : Inv s) (hs : s.state = .decode) (hn : decodeStep s = .next t) : Inv t := by
  obtain ⟨-, -, hlen, -⟩ := h.busyNoReply (h.busyIff.mpr (by simp [hs]))
  obtain ⟨w0, rest, -, ⟨e, -, rfl⟩ | ⟨out, ho, hn⟩⟩ := decodeStep_next hn
  · exact h.after_failTransaction _
  have hd (c : ErrCode) : Inv (storeDecoded out (finish c s)) :=
    (h.after_finish c).after_storeDecoded rfl hlen (decodeWire_length h.four_le_cap ho)
  obtain ⟨-, rfl⟩ | ⟨v, hv, hn⟩ := hn
  · exact (hd .badFrame).after_failTransaction .badFrame
  have hsums (c : ErrCode) : Inv (showSums v (storeDecoded out (finish c s))) := (hd c).after_showSums rfl v
  have hview : Inv (showView v (showSums v (storeDecoded out (finish .none s)))) := by
    obtain ⟨-, -, -, -, hl, -⟩ := view_some hv
    refine (hsums .none).after_showView rfl ?_
    rw [showSums_dbLen, storeDecoded_dbLen, h.lengthWord_toNat (decodeWire_length h.four_le_cap ho)]
    omega
  obtain ⟨-, -, rfl⟩ | ⟨-, -, rfl⟩ | ⟨-, rfl⟩ := hn
  · exact hview.after_markMatch rfl
  · exact (hsums .checksumMismatch).after_failTransaction .checksumMismatch
  · exact hview

theorem after_exec (h : Inv s) (i : Instr) (hn : exec i s = .next t) : Inv t := by
  cases i with
  | encodeT => exact h.after_encodeCommand hn
  | encodeB => exact h.after_encodeCommand hn
  | decodeT => exact h.after_decodeCommand hn
  | decodeB => exact h.after_decodeCommand hn
  | checksum m => exact h.after_execChecksum (m := m) hn
  | verify m => exact h.after_execVerify (m := m) hn
  | sendrecvT => exact h.after_startTransaction hn
  | sendrecvB => exact h.after_startTransaction hn
  | clear m => exact h.after_execClear (m := m) hn

theorem after_cmdWrite (h : Inv s) {w : Word} (hn : cmdWrite w s = .next t) : Inv t := by
  obtain ⟨-, rfl⟩ | ⟨-, ⟨i, -, hn⟩ | ⟨r, -, rfl⟩⟩ := cmdWrite_next hn
  · exact h.update_unread
  · exact h.after_exec i hn
  · exact h.after_beginCommand.after_finish _

theorem after_hostAccess (h : Inv s) {a : HostAccess} (hn : hostAccess a s = .next t) : Inv t := by
  cases a with
  | regRead off => cases hn; exact h.update_unread
  | regWrite off v =>
    obtain rfl | ⟨-, rfl⟩ | ⟨-, rfl⟩ | ⟨-, rfl⟩ | ⟨-, hn⟩ := regWrite_next hn
    · exact h
    · exact h.update_unread
    · exact h.update_unread
    · exact h.update_unread
    · exact h.after_cmdWrite hn
  | bufRead id i =>
    obtain ⟨v, rfl⟩ | ⟨-, -, rfl⟩ := bufRead_next hn
    · exact h.update_unread
    · exact h.update_unread
  | bufWrite id i b =>
    obtain rfl | ⟨-, -, hi, rfl⟩ := bufWrite_next hn
    · exact h.update_unread
    · exact h.after_writePayload b hi

theorem after_fctStep (h : Inv s) {o : TxOutcome} (hn : fctStep o s = .next t) : Inv t := by
  obtain ⟨-, rfl⟩ | ⟨hs, hn⟩ | ⟨hs, hn⟩ | ⟨hs, hn⟩ := fctStep_next hn
  · exact h
  · exact h.after_sendStep hs hn
  · exact h.after_checkStep hs hn
  · exact h.after_decodeStep hs hn

theorem after_linkEvent (h : Inv s) {e : RxEvent} (hn : linkEvent e s = .next t) : Inv t := by
  obtain ⟨-, rfl⟩ | ⟨hs, ⟨c0, c, -, hn⟩ | ⟨-, -, rfl⟩ | ⟨-, ha, rfl⟩ | ⟨-, rfl⟩⟩ := linkEvent_next hn
  · exact h
  · exact h.after_recvChunk hs hn
  · exact h.after_failTransaction _
  · exact h.after_goTo_check hs ha
  · exact h.after_failTransaction _

theorem after_runEvent (h : Inv s) {e : Event} (hn : runEvent e s = .next t) : Inv t := by
  cases e with
  | host a => exact h.after_hostAccess hn
  | fct o => exact h.after_fctStep hn
  | link r => exact h.after_linkEvent hn
  | reset => cases hn; exact h.after_platformReset

end Inv

/-- Settles O42: each update a step is made of keeps the invariant where the step makes it. -/
theorem stepKeepsInvariant : Obligations.StepKeepsInvariant := by
  unfold Obligations.StepKeepsInvariant
  intro s t h hn
  exact h.after_takeEvent.after_runEvent hn

end Sys2Proof.Machine
end

section
/-! PROOFS, 10_state.md (2): the only stop is `fault UNINIT`, on an unwritten byte that the host or a command reads (R55). -/

namespace Sys2Proof.Machine

/-! ## The state that has taken an event -/

section takeEvent
variable (s : State)

@[simp] theorem takeEvent_cfg : (takeEvent s).2.cfg = s.cfg := by rw [takeEvent_snd]
@[simp] theorem takeEvent_pb : (takeEvent s).2.pb = s.pb := by rw [takeEvent_snd]
@[simp] theorem takeEvent_busy : (takeEvent s).2.busy = s.busy := by rw [takeEvent_snd]
@[simp] theorem takeEvent_plen : (takeEvent s).2.plen = s.plen := by rw [takeEvent_snd]
@[simp] theorem takeEvent_hostViol : (takeEvent s).2.hostViol = s.hostViol := by rw [takeEvent_snd]
@[simp] theorem takeEvent_buffer (b : BufId) : buffer b (takeEvent s).2 = buffer b s := by
  rw [takeEvent_snd]; cases b <;> rfl

end takeEvent

/-! ## Results that stop only on an unwritten byte -/

/-- The result is a next state, or `fault UNINIT` and then `cause` holds; never another fault, never a refusal. -/
def UninitOnlyIf (cause : Prop) : Result → Prop
  | .next _ => True
  | .fault f => f = .uninit ∧ cause
  | .refused _ => False

namespace UninitOnlyIf

variable {cause cause' : Prop} {s : State} {k : Result}

theorem next (t : State) : UninitOnlyIf cause (.next t) := trivial

theorem mono {r : Result} (h : UninitOnlyIf cause r) (hc : cause → cause') : UninitOnlyIf cause' r := by
  cases r with
  | next t => trivial
  | fault f => exact ⟨h.1, hc h.2⟩
  | refused q => exact h

/-- While BUSY = 1 the access is refused by HOST_VIOL, which is no stop (43_control.md R212). -/
theorem whenIdle (hk : s.busy = false → UninitOnlyIf cause k) : UninitOnlyIf cause (whenIdle s k) := by
  cases hb : s.busy with
  | true => rw [whenIdle_busy hb]; trivial
  | false => rw [whenIdle_idle hb]; exact hk hb

theorem withBytes {α : Type} {bytes : Option α} {k : α → Result} (hnone : bytes = none → cause)
    (hk : ∀ a, bytes = some a → UninitOnlyIf cause (k a)) : UninitOnlyIf cause (withBytes bytes k) := by
  cases bytes with
  | none => exact ⟨rfl, hnone rfl⟩
  | some a => exact hk a rfl

theorem withRequest {bad : Result} {k : Byte → List Byte → Result} (hbad : UninitOnlyIf cause bad)
    (hnone : goodLength s → requestBytes s = none → cause) (hk : ∀ b0 bs, UninitOnlyIf cause (k b0 bs)) :
    UninitOnlyIf cause (withRequest s bad k) := by
  cases hl : lengthOk s with
  | false => rw [withRequest_bad hl]; exact hbad
  | true =>
    simp only [Machine.withRequest, hl, if_true]
    exact withBytes (hnone ((lengthOk_iff s).mp hl)) fun r _ => hk r.1 r.2

theorem encodeInto {m : Mode} {b0 : Byte} {bs : List Byte} {overflow : Result} {k : State → Result}
    (ho : UninitOnlyIf cause overflow) (hk : ∀ t, UninitOnlyIf cause (k t)) :
    UninitOnlyIf cause (encodeInto m b0 bs s overflow k) := by
  unfold Machine.encodeInto
  dsimp only
  split
  · exact ho
  · exact hk _

end UninitOnlyIf

/-! ## Operands with an unwritten byte -/

theorem Memory.readRange_eq_none {m : Memory} {i n : Nat} :
    readRange m i n = none ↔ ∃ j < n, read m (i + j) = none := by
  rw [← Option.not_isSome_iff_eq_none, readRange_isSome]
  simp

theorem readRange_ne_none {m : Memory} {n : Nat} (h : writtenBelow m n) : Memory.readRange m 0 n ≠ none := by
  rw [← Option.isSome_iff_ne_none, Memory.readRange_isSome]
  simpa using h

/-- A byte of `PB[lo..PLEN-1]` is unwritten, and the length check passes in an idle state (40_codec.md R121). -/
def PayloadUnwritten (lo : Nat) (s : State) : Prop :=
  s.busy = false ∧ goodLength s ∧ ∃ a, lo ≤ a ∧ a < s.plen.toNat ∧ Memory.read s.pb a = none

theorem unwritten_of_payloadBytes {s : State} (h : payloadBytes s = none) :
    ∃ a, 1 ≤ a ∧ a < s.plen.toNat ∧ Memory.read s.pb a = none := by
  obtain ⟨j, hj, hr⟩ := Memory.readRange_eq_none.mp h
  exact ⟨1 + j, by omega, by omega, hr⟩

theorem unwritten_of_requestBytes {s : State} (hl : goodLength s) (h : requestBytes s = none) :
    ∃ a, 0 ≤ a ∧ a < s.plen.toNat ∧ Memory.read s.pb a = none := by
  have hpos : 0 < s.plen.toNat := Nat.pos_of_ne_zero fun h0 => hl.1 (BitVec.eq_of_toNat_eq h0)
  cases hb : Memory.read s.pb 0 with
  | none => exact ⟨0, le_rfl, hpos, hb⟩
  | some b0 =>
    have hp : payloadBytes s = none := by simpa [requestBytes, hb] using h
    obtain ⟨a, -, ha⟩ := unwritten_of_payloadBytes hp
    exact ⟨a, a.zero_le, ha⟩

/-! ## The commands -/

/-- A command on `PB[0..PLEN-1]`, read after an update `u` of `s` that leaves the operands alone. -/
theorem request_uninit {s u : State} {bad : Result} {k : Byte → List Byte → Result}
    (hbad : UninitOnlyIf (PayloadUnwritten 0 s) bad) (hk : ∀ b0 bs, UninitOnlyIf (PayloadUnwritten 0 s) (k b0 bs))
    (hcfg : u.cfg = s.cfg := by rfl) (hplen : u.plen = s.plen := by rfl) (hpb : u.pb = s.pb := by rfl) :
    UninitOnlyIf (PayloadUnwritten 0 s) (whenIdle s (withRequest u bad k)) := by
  refine .whenIdle fun hb => .withRequest hbad (fun hl hn => ⟨hb, ?_, ?_⟩) hk
  · exact ⟨hplen ▸ hl.1, hplen ▸ hcfg ▸ hl.2⟩
  · exact hplen ▸ hpb ▸ unwritten_of_requestBytes hl hn

theorem encodeCommand_uninit (m : Mode) (s : State) : UninitOnlyIf (PayloadUnwritten 0 s) (encodeCommand m s) :=
  request_uninit (.next _) fun _ _ => .encodeInto (.next _) fun _ => .next _

theorem decodeCommand_uninit (m : Mode) (s : State) : UninitOnlyIf (PayloadUnwritten 0 s) (decodeCommand m s) :=
  request_uninit (.next _) fun _ _ => by
    split
    · exact .next _
    · exact .next _

theorem startTransaction_uninit (m : Mode) (s : State) : UninitOnlyIf (PayloadUnwritten 0 s) (startTransaction m s) :=
  request_uninit (.next _) fun _ _ => .encodeInto (.next _) fun _ => .next _

theorem execChecksum_uninit (m : Mode) (s : State) : UninitOnlyIf (PayloadUnwritten 1 s) (execChecksum m s) :=
  .whenIdle fun hb => by
    dsimp only
    split
    · rename_i hl
      exact .withBytes (fun hn => ⟨hb, (lengthOk_iff s).mp hl, unwritten_of_payloadBytes (s := s) hn⟩) fun _ _ => .next _
    · exact .next _

/-- VERIFY reads only written bytes: those below DB_LEN. -/
theorem execVerify_uninit {s : State} (h : Inv s) (m : Mode) : UninitOnlyIf False (execVerify m s) :=
  .whenIdle fun _ => .withBytes (readRange_ne_none h.dbWritten) fun _ _ => by
    split
    · exact .next _
    · dsimp only
      split
      · exact .next _
      · exact .next _

/-- The command reads an unwritten byte of PB: of `PB[0..PLEN-1]`, or of `PB[1..PLEN-1]` where it is CHECKSUM. -/
def CommandUnwritten (i : Instr) (s : State) : Prop :=
  ((∃ m, i = encodeOf m ∨ i = decodeOf m ∨ i = sendrecvOf m) ∧ PayloadUnwritten 0 s) ∨
    ((∃ m, i = .checksum m) ∧ PayloadUnwritten 1 s)

theorem exec_uninit {s : State} (h : Inv s) (i : Instr) : UninitOnlyIf (CommandUnwritten i s) (exec i s) := by
  cases i with
  | encodeT => exact (encodeCommand_uninit .text s).mono fun hc => .inl ⟨⟨.text, .inl rfl⟩, hc⟩
  | encodeB => exact (encodeCommand_uninit .binary s).mono fun hc => .inl ⟨⟨.binary, .inl rfl⟩, hc⟩
  | decodeT => exact (decodeCommand_uninit .text s).mono fun hc => .inl ⟨⟨.text, .inr (.inl rfl)⟩, hc⟩
  | decodeB => exact (decodeCommand_uninit .binary s).mono fun hc => .inl ⟨⟨.binary, .inr (.inl rfl)⟩, hc⟩
  | checksum m => exact (execChecksum_uninit m s).mono fun hc => .inr ⟨⟨m, rfl⟩, hc⟩
  | verify m => exact (execVerify_uninit h m).mono False.elim
  | sendrecvT => exact (startTransaction_uninit .text s).mono fun hc => .inl ⟨⟨.text, .inr (.inr rfl)⟩, hc⟩
  | sendrecvB => exact (startTransaction_uninit .binary s).mono fun hc => .inl ⟨⟨.binary, .inr (.inr rfl)⟩, hc⟩
  | clear m => exact .whenIdle fun _ => .next _

/-! ## The steps of the FCT and the Link: under the invariant they never stop -/

theorem sendStep_uninit {s : State} (h : Inv s) (o : TxOutcome) : UninitOnlyIf False (sendStep o s) :=
  .withBytes (readRange_ne_none h.txWritten) fun _ _ => by
    cases o with
    | txok => exact .next _
    | txerr n => exact .next _

theorem checkStep_uninit (s : State) : UninitOnlyIf False (checkStep s) := by
  unfold checkStep
  split
  · exact .next _
  · exact .next _

theorem viewReply_uninit (d : List Byte) (s : State) : UninitOnlyIf False (viewReply d s) := by
  unfold viewReply
  dsimp only
  split
  · exact .next _
  · split
    · split
      · exact .next _
      · exact .next _
    · exact .next _

/-- DECODE is entered with at least three bytes received, all of them written (42_transport.md R183). -/
theorem decodeStep_uninit {s : State} (h : Inv s) (hs : s.state = .decode) : UninitOnlyIf False (decodeStep s) :=
  .withBytes (readRange_ne_none h.rxWritten) fun w hw => by
    have hlen : w.length = s.rxLen.toNat := Memory.readRange_length hw
    obtain ⟨h3, -⟩ := h.complete (h.decodeDone hs).1
    cases w with
    | nil => simp only [List.length_nil] at hlen; omega
    | cons w0 rest =>
      dsimp only
      split
      · exact .next _
      · exact viewReply_uninit _ _

theorem fctStep_uninit {s : State} (h : Inv s) (o : TxOutcome) : UninitOnlyIf False (fctStep o s) := by
  unfold fctStep
  split
  · exact .next _
  · exact sendStep_uninit h o
  · exact .next _
  · exact checkStep_uninit s
  · exact decodeStep_uninit h ‹_›

theorem testTerminator_uninit {s : State} (h : Inv s) : UninitOnlyIf False (testTerminator s) := by
  unfold testTerminator
  split
  · exact .next _
  · refine .withBytes (fun hn => ?_) fun b _ => ?_
    · simpa [hn] using h.rxWritten (s.rxLen.toNat - 3) (by omega)
    · split
      · exact .next _
      · exact .next _

theorem recvChunk_uninit {s : State} (h : Inv s) (hs : s.state = .recv) (c0 : Byte) (c : List Byte) :
    UninitOnlyIf False (recvChunk c0 c s) := by
  unfold recvChunk
  split
  · exact .next _
  · exact testTerminator_uninit (h.after_storeChunk hs (Nat.le_of_not_lt ‹_›))

theorem linkEvent_uninit {s : State} (h : Inv s) (e : RxEvent) : UninitOnlyIf False (linkEvent e s) := by
  unfold linkEvent
  split
  · cases e with
    | rx c0 c => exact recvChunk_uninit h ‹_› c0 c
    | rxTimeout =>
      dsimp only [recvTimeout]
      split
      · exact .next _
      · exact .next _
    | rxError => exact .next _
  · exact .next _

/-! ## The host's accesses -/

theorem bufRead_uninit (id i : Nat) (s : State) :
    UninitOnlyIf (∃ b, id = BufId.id b ∧ i < s.cfg.cap ∧ Memory.read (buffer b s) i = none) (bufRead id i s) := by
  unfold bufRead
  split
  · exact .next _
  · split
    · rename_i b hb
      exact .withBytes (fun hn => ⟨b, bufAt_some hb, by omega, hn⟩) fun _ _ => .next _
    · exact .next _

theorem bufWrite_uninit (id i : Nat) (b : Byte) (s : State) : UninitOnlyIf False (bufWrite id i b s) :=
  .whenIdle fun _ => by
    split
    · split
      · exact .next _
      · exact .next _
    all_goals exact .next _

theorem cmdWrite_uninit {s : State} (h : Inv s) (w : Word) :
    UninitOnlyIf (∃ i, decodeCmd w = .ok i ∧ CommandUnwritten i s) (cmdWrite w s) := by
  unfold cmdWrite
  split
  · exact (exec_uninit h _).mono fun hc => ⟨_, ‹_›, hc⟩
  · exact .whenIdle fun _ => .next _

theorem regWrite_uninit {s : State} (h : Inv s) (off : Nat) (v : Word) :
    UninitOnlyIf (off = 0x04 ∧ ∃ i, decodeCmd v = .ok i ∧ CommandUnwritten i s) (regWrite off v s) := by
  unfold regWrite
  split
  · exact .whenIdle fun _ => .next _
  · exact .whenIdle fun _ => .next _
  · exact (cmdWrite_uninit h v).mono fun hc => ⟨regAt_offset ‹_›, hc⟩
  · exact .next _

/-- The event is a host access that reads an unwritten byte: a BufRead, or a CMD write by its command. -/
def EventUnwritten (e : Event) (s : State) : Prop :=
  (∃ b i, e = .host (.bufRead (BufId.id b) i) ∧ i < s.cfg.cap ∧ Memory.read (buffer b s) i = none) ∨
    ∃ w i, e = .host (.regWrite 0x04 w) ∧ decodeCmd w = .ok i ∧ CommandUnwritten i s

theorem runEvent_uninit {s : State} (h : Inv s) (e : Event) : UninitOnlyIf (EventUnwritten e s) (runEvent e s) := by
  cases e with
  | host a =>
    cases a with
    | regRead off => exact .next _
    | regWrite off v =>
      refine (regWrite_uninit h off v).mono ?_
      rintro ⟨rfl, i, hi, hc⟩
      exact .inr ⟨v, i, rfl, hi, hc⟩
    | bufRead id i =>
      refine (bufRead_uninit id i s).mono ?_
      rintro ⟨b, rfl, hi, hr⟩
      exact .inl ⟨b, i, rfl, hi, hr⟩
    | bufWrite id i b => exact (bufWrite_uninit id i b s).mono False.elim
  | fct o => exact (fctStep_uninit h o).mono False.elim
  | link r => exact (linkEvent_uninit h r).mono False.elim
  | reset => exact .next _

theorem step_uninit {s : State} (h : Inv s) : UninitOnlyIf (EventUnwritten (nextEvent s) (takeEvent s).2) (step s) :=
  runEvent_uninit h.after_takeEvent _

/-- Settles O43: the invariant has every byte written that the transport and VERIFY read, so only PB's bytes and the host's
own reads are left. -/
theorem onlyUnwrittenBytesFault : Obligations.OnlyUnwrittenBytesFault := by
  unfold Obligations.OnlyUnwrittenBytesFault
  intro s h
  have hs := step_uninit h
  refine ⟨fun r hr => by rw [hr] at hs; exact hs, fun f hf => ?_⟩
  rw [hf] at hs
  obtain ⟨rfl, hc⟩ := hs
  refine ⟨rfl, ?_⟩
  simp only [EventUnwritten, CommandUnwritten, PayloadUnwritten, goodLength, takeEvent_cfg, takeEvent_pb, takeEvent_busy,
    takeEvent_plen, takeEvent_buffer] at hc
  obtain hread | ⟨w, i, he, hi, ⟨hm, hb, hl, a, -, ha, hr⟩ | ⟨hm, hb, hl, a, h1, ha, hr⟩⟩ := hc
  · exact .inl hread
  · exact .inr ⟨w, i, a, he, hi, hb, hl, ha, hr, .inl hm⟩
  · exact .inr ⟨w, i, a, he, hi, hb, hl, ha, hr, .inr ⟨hm, h1⟩⟩

end Sys2Proof.Machine
end

section
/-! PROOFS, 10_state.md (3): the register port (R62), STATUS (R38), HOST_VIOL (R44), CAPREG and MAXATT (R57). -/

namespace Sys2Proof.Machine

section
variable {s t : State}

/-! ## The host's writes, by whether they are refused -/

/-- 20_memory.md R72: a write of any other offset is ignored and sets no flag. -/
theorem regWrite_other {off : Nat} (v : Word) (s : State) (h0 : off ≠ 0x00) (h4 : off ≠ 0x04) (h10 : off ≠ 0x10) :
    regWrite off v s = .next s := by
  unfold regWrite
  split
  · exact absurd (regAt_offset ‹_›) h0
  · exact absurd (regAt_offset ‹_›) h10
  · exact absurd (regAt_offset ‹_›) h4
  · rfl

/-- 43_control.md R212. -/
theorem regWrite_busy {off : Nat} (v : Word) (hb : s.busy = true) (ho : off = 0x00 ∨ off = 0x04 ∨ off = 0x10) :
    regWrite off v s = .next (refuseHost s) := by
  obtain rfl | rfl | rfl := ho
  · exact whenIdle_busy hb
  · exact cmdWrite_busy v hb
  · exact whenIdle_busy hb

/-- 43_control.md R212, R214. -/
theorem bufWrite_refused {id i : Nat} (b : Byte) (h : s.busy = true ∨ id ≠ 0 ∨ s.cfg.cap ≤ i) :
    bufWrite id i b s = .next (refuseHost s) := by
  cases hb : s.busy with
  | true => exact whenIdle_busy hb
  | false =>
    unfold bufWrite
    rw [whenIdle_idle hb]
    split
    · rename_i hpb
      have hid : id = 0 := bufAt_some hpb
      have hi : s.cfg.cap ≤ i := by simpa [hb, hid] using h
      rw [if_neg (by omega)]
    all_goals rfl

/-- 43_control.md R214. -/
theorem bufWrite_payload {i : Nat} (b : Byte) (hb : s.busy = false) (hi : i < s.cfg.cap) :
    bufWrite 0 i b s = .next (writePayload i b s) := by
  rw [bufWrite, whenIdle_idle hb]
  exact if_pos hi

/-! ## The bits of STATUS -/

theorem getLsbD_flagAt (b : Bool) {n : Nat} (hn : n < 32) (k : Nat) : (flagAt b n).getLsbD k = (b && decide (k = n)) := by
  cases b with
  | false => simp [flagAt]
  | true =>
    simp only [flagAt, if_true, BitVec.getLsbD_ofNat, Nat.testBit_two_pow, Bool.true_and]
    by_cases h : k = n
    · simp [h, hn]
    · simp [h, Ne.symm h]

theorem Phase.code_lt (p : Phase) : p.code < 2 ^ 3 := by cases p <;> decide

/-- Bit `k` of STATUS: a flag for each of bits 0 to 6, the state's code from bit 8 on (10_state.md R38). -/
theorem getLsbD_statusWord (s : State) (k : Nat) :
    (statusWord s).getLsbD k =
      (s.busy && decide (k = 0) || s.done && decide (k = 1) || s.err && decide (k = 2) || s.ackSeen && decide (k = 3) ||
        s.chkOk && decide (k = 4) || s.hostViol && decide (k = 5) || s.rxComplete && decide (k = 6) ||
        decide (k < 32) && (decide (8 ≤ k) && s.state.code.testBit (k - 8))) := by
  simp only [statusWord, BitVec.getLsbD_or, BitVec.getLsbD_ofNat, Nat.testBit_mul_two_pow,
    getLsbD_flagAt _ (show 0 < 32 by decide), getLsbD_flagAt _ (show 1 < 32 by decide),
    getLsbD_flagAt _ (show 2 < 32 by decide), getLsbD_flagAt _ (show 3 < 32 by decide),
    getLsbD_flagAt _ (show 4 < 32 by decide), getLsbD_flagAt _ (show 5 < 32 by decide),
    getLsbD_flagAt _ (show 6 < 32 by decide)]

theorem getLsbD_statusWord_of_le (s : State) {k : Nat} (hk : 8 ≤ k) :
    (statusWord s).getLsbD k = (decide (k < 32) && s.state.code.testBit (k - 8)) := by
  have hne : ∀ n < 8, k ≠ n := fun n hn => by omega
  rw [getLsbD_statusWord]
  simp [hne, hk]

/-- STATUS.STATE is bits 10:8 (10_state.md R46). -/
theorem extractLsb_statusWord (s : State) : (statusWord s).extractLsb' 8 3 = BitVec.ofNat 3 s.state.code := by
  ext k hk
  rw [← BitVec.getLsbD_eq_getElem, ← BitVec.getLsbD_eq_getElem, BitVec.getLsbD_extractLsb',
    getLsbD_statusWord_of_le s (by omega), BitVec.getLsbD_ofNat]
  simp [show 8 + k < 32 by omega]

theorem getLsbD_statusWord_reserved (s : State) {k : Nat} (hk : 11 ≤ k) : (statusWord s).getLsbD k = false := by
  have hbit : s.state.code.testBit (k - 8) = false :=
    Nat.testBit_lt_two_pow (s.state.code_lt.trans_le (Nat.pow_le_pow_right (by decide) (by omega)))
  rw [getLsbD_statusWord_of_le s (by omega), hbit, Bool.and_false]

/-! ## What the agents leave alone -/

/-- `t` has of `s` what no command but CLEAR, no FCT step and no Link event writes: the parameters, HOST_VIOL, and what the
host alone writes (43_control.md R218). -/
structure SameHostSide (s t : State) : Prop where
  cfg : t.cfg = s.cfg
  hostViol : t.hostViol = s.hostViol
  pb : t.pb = s.pb
  plen : t.plen = s.plen
  verifyEn : t.verifyEn = s.verifyEn
  rleEn : t.rleEn = s.rleEn
  irqEn : t.irqEn = s.irqEn

theorem encodeCommand_hostSide {m : Mode} (h : encodeCommand m s = .next t) :
    (s.busy = true ∧ t = refuseHost s) ∨ SameHostSide s t := by
  obtain hr | ⟨-, -, rfl⟩ | ⟨-, -, b0, bs, -, ⟨-, rfl⟩ | ⟨-, rfl⟩⟩ := encodeCommand_next h
  · exact .inl hr
  all_goals exact .inr (by constructor <;> simp)

theorem decodeCommand_hostSide {m : Mode} (h : decodeCommand m s = .next t) :
    (s.busy = true ∧ t = refuseHost s) ∨ SameHostSide s t := by
  obtain hr | ⟨-, -, rfl⟩ | ⟨-, -, w0, rest, -, ⟨e, -, rfl⟩ | ⟨out, -, rfl⟩⟩ := decodeCommand_next h
  · exact .inl hr
  all_goals exact .inr (by constructor <;> simp)

theorem execChecksum_hostSide {m : Mode} (h : execChecksum m s = .next t) :
    (s.busy = true ∧ t = refuseHost s) ∨ SameHostSide s t := by
  obtain hr | ⟨-, -, rfl⟩ | ⟨-, -, bs, -, rfl⟩ := execChecksum_next h
  · exact .inl hr
  all_goals exact .inr (by constructor <;> simp)

theorem execVerify_hostSide {m : Mode} (h : execVerify m s = .next t) :
    (s.busy = true ∧ t = refuseHost s) ∨ SameHostSide s t := by
  obtain hr | ⟨-, d, -, ⟨-, rfl⟩ | ⟨v, -, ⟨-, rfl⟩ | ⟨-, rfl⟩⟩⟩ := execVerify_next h
  · exact .inl hr
  all_goals exact .inr (by constructor <;> simp)

theorem startTransaction_hostSide {m : Mode} (h : startTransaction m s = .next t) :
    (s.busy = true ∧ t = refuseHost s) ∨ SameHostSide s t := by
  obtain hr | ⟨-, -, rfl⟩ | ⟨-, -, b0, bs, -, ⟨-, rfl⟩ | ⟨-, rfl⟩⟩ := startTransaction_next h
  · exact .inl hr
  all_goals exact .inr (by constructor <;> simp)

/-- A command, by what it does to the host's side: the refusal, CLEAR, or nothing. -/
theorem exec_hostSide {i : Instr} (h : exec i s = .next t) :
    ((s.busy = true ∧ t = refuseHost s) ∨ SameHostSide s t) ∨ (s.busy = false ∧ (∃ m, i = .clear m) ∧ t = clearFlags s) := by
  cases i with
  | encodeT => exact .inl (encodeCommand_hostSide h)
  | encodeB => exact .inl (encodeCommand_hostSide h)
  | decodeT => exact .inl (decodeCommand_hostSide h)
  | decodeB => exact .inl (decodeCommand_hostSide h)
  | checksum m => exact .inl (execChecksum_hostSide (m := m) h)
  | verify m => exact .inl (execVerify_hostSide (m := m) h)
  | sendrecvT => exact .inl (startTransaction_hostSide h)
  | sendrecvB => exact .inl (startTransaction_hostSide h)
  | clear m =>
    obtain hr | ⟨hb, hn⟩ := whenIdle_next h
    · exact .inl (.inl hr)
    · cases hn; exact .inr ⟨hb, ⟨m, rfl⟩, rfl⟩

theorem sendStep_hostSide {o : TxOutcome} (h : sendStep o s = .next t) : SameHostSide s t := by
  obtain ⟨frame, -, ⟨-, rfl⟩ | ⟨n, -, rfl⟩⟩ := sendStep_next h
  all_goals constructor <;> simp

theorem checkStep_hostSide (h : checkStep s = .next t) : SameHostSide s t := by
  obtain ⟨-, rfl⟩ | ⟨-, rfl⟩ := checkStep_next h
  all_goals constructor <;> simp

theorem decodeStep_hostSide (h : decodeStep s = .next t) : SameHostSide s t := by
  obtain ⟨w0, rest, -, ⟨e, -, rfl⟩ | ⟨out, -, ⟨-, rfl⟩ | ⟨v, -, ⟨-, -, rfl⟩ | ⟨-, -, rfl⟩ | ⟨-, rfl⟩⟩⟩⟩ := decodeStep_next h
  all_goals constructor <;> simp

theorem recvChunk_hostSide {c0 : Byte} {c : List Byte} (h : recvChunk c0 c s = .next t) : SameHostSide s t := by
  obtain ⟨-, rfl⟩ | ⟨-, ⟨-, -, rfl⟩ | ⟨-, rfl⟩⟩ := recvChunk_next h
  all_goals constructor <;> simp

theorem fctStep_hostSide {o : TxOutcome} (h : fctStep o s = .next t) : SameHostSide s t := by
  obtain ⟨-, rfl⟩ | ⟨-, h⟩ | ⟨-, h⟩ | ⟨-, h⟩ := fctStep_next h
  · constructor <;> simp
  · exact sendStep_hostSide h
  · exact checkStep_hostSide h
  · exact decodeStep_hostSide h

theorem linkEvent_hostSide {e : RxEvent} (h : linkEvent e s = .next t) : SameHostSide s t := by
  obtain ⟨-, rfl⟩ | ⟨-, ⟨c0, c, -, h⟩ | ⟨-, -, rfl⟩ | ⟨-, -, rfl⟩ | ⟨-, rfl⟩⟩ := linkEvent_next h
  case inr.inl => exact recvChunk_hostSide h
  all_goals constructor <;> simp

/-! ## CAPREG and MAXATT -/

theorem cmdWrite_cfg {w : Word} (h : cmdWrite w s = .next t) : t.cfg = s.cfg := by
  obtain ⟨-, rfl⟩ | ⟨-, ⟨i, -, h⟩ | ⟨r, -, rfl⟩⟩ := cmdWrite_next h
  · rfl
  · obtain (⟨-, rfl⟩ | hs) | ⟨-, -, rfl⟩ := exec_hostSide h
    · rfl
    · exact hs.cfg
    · rfl
  · rfl

theorem hostAccess_cfg {a : HostAccess} (h : hostAccess a s = .next t) : t.cfg = s.cfg := by
  cases a with
  | regRead off => cases h; rfl
  | regWrite off v =>
    obtain rfl | ⟨-, rfl⟩ | ⟨-, rfl⟩ | ⟨-, rfl⟩ | ⟨-, h⟩ := regWrite_next h
    case inr.inr.inr.inr => exact cmdWrite_cfg h
    all_goals rfl
  | bufRead id i =>
    obtain ⟨v, rfl⟩ | ⟨-, -, rfl⟩ := bufRead_next h
    all_goals rfl
  | bufWrite id i b =>
    obtain rfl | ⟨-, -, -, rfl⟩ := bufWrite_next h
    all_goals rfl

theorem runEvent_cfg {e : Event} (h : runEvent e s = .next t) : t.cfg = s.cfg := by
  cases e with
  | host a => exact hostAccess_cfg h
  | fct o => exact (fctStep_hostSide h).cfg
  | link r => exact (linkEvent_hostSide h).cfg
  | reset => cases h; rfl

theorem step_cfg (h : step s = .next t) : t.cfg = s.cfg := by rw [runEvent_cfg h, takeEvent_cfg]

/-! ## HOST_VIOL -/

theorem cmdHigh_eq_zero_iff (w : Word) : cmdHigh w = 0 ↔ w.toNat < 32 := by
  rw [← BitVec.toNat_inj]
  simp only [cmdHigh, BitVec.extractLsb'_toNat, BitVec.ofNat_eq_ofNat, BitVec.toNat_ofNat, Nat.shiftRight_eq_div_pow]
  have := w.isLt
  omega

/-- Below bit 5 there are 32 words; each that decodes is the word of its command (30_encoding.md R91, R92). -/
theorem encode_of_decodeCmd_ofNat :
    ∀ n : Fin 32, ∀ i ∈ (decodeCmd (BitVec.ofNat 32 n)).toOption, encode i = BitVec.ofNat 32 n := by
  decide

theorem encode_of_decodeCmd {w : Word} {i : Instr} (h : decodeCmd w = .ok i) : encode i = w := by
  have hw : w.toNat < 32 := by
    rw [← cmdHigh_eq_zero_iff]
    by_contra hw
    rw [decodeCmd, if_neg hw] at h
    cases h
  simpa [h, Except.toOption] using encode_of_decodeCmd_ofNat ⟨w.toNat, hw⟩

/-- The event is a host write that is refused (10_state.md R44). -/
def IsRefusedWrite (e : Event) (s : State) : Prop :=
  (∃ off v, s.busy = true ∧ (off = 0x00 ∨ off = 0x04 ∨ off = 0x10) ∧ e = .host (.regWrite off v)) ∨
    ∃ id i b, (s.busy = true ∨ id ≠ 0 ∨ s.cfg.cap ≤ i) ∧ e = .host (.bufWrite id i b)

/-- The event is RESET or a CLEAR that is not refused (43_control.md R215). -/
def ClearsViol (e : Event) (s : State) : Prop :=
  e = .reset ∨ ∃ m, s.busy = false ∧ e = .host (.regWrite 0x04 (encode (.clear m)))

theorem cmdWrite_hostViol {w : Word} (hb : s.busy = false) (h : cmdWrite w s = .next t) :
    t.hostViol = s.hostViol ∨ t.hostViol = false ∧ ∃ m, w = encode (.clear m) := by
  obtain ⟨hb', -⟩ | ⟨-, ⟨i, hi, h⟩ | ⟨r, -, rfl⟩⟩ := cmdWrite_next h
  · simp [hb] at hb'
  · obtain (⟨hb', -⟩ | hs) | ⟨-, ⟨m, rfl⟩, rfl⟩ := exec_hostSide h
    · simp [hb] at hb'
    · exact .inl hs.hostViol
    · exact .inr ⟨rfl, m, (encode_of_decodeCmd hi).symm⟩
  · exact .inl rfl

theorem regWrite_hostViol {off : Nat} {v : Word} (h : regWrite off v s = .next t) :
    t.hostViol = s.hostViol ∨ t.hostViol = false ∧ ClearsViol (.host (.regWrite off v)) s ∨
      t.hostViol = true ∧ IsRefusedWrite (.host (.regWrite off v)) s := by
  by_cases ho : off = 0x00 ∨ off = 0x04 ∨ off = 0x10
  · cases hb : s.busy with
    | true =>
      rw [regWrite_busy v hb ho] at h
      cases h
      exact .inr (.inr ⟨rfl, .inl ⟨off, v, hb, ho, rfl⟩⟩)
    | false =>
      obtain rfl | ⟨hb', -⟩ | ⟨-, rfl⟩ | ⟨-, rfl⟩ | ⟨hc, h⟩ := regWrite_next h
      · exact .inl rfl
      · simp [hb] at hb'
      · exact .inl rfl
      · exact .inl rfl
      · obtain rfl := regAt_offset hc
        obtain hs | ⟨hf, m, rfl⟩ := cmdWrite_hostViol hb h
        · exact .inl hs
        · exact .inr (.inl ⟨hf, .inr ⟨m, hb, rfl⟩⟩)
  · simp only [not_or] at ho
    rw [regWrite_other v s ho.1 ho.2.1 ho.2.2] at h
    cases h
    exact .inl rfl

theorem bufWrite_hostViol {id i : Nat} {b : Byte} (h : bufWrite id i b s = .next t) :
    t.hostViol = s.hostViol ∨ t.hostViol = true ∧ IsRefusedWrite (.host (.bufWrite id i b)) s := by
  by_cases hr : s.busy = true ∨ id ≠ 0 ∨ s.cfg.cap ≤ i
  · rw [bufWrite_refused b hr] at h
    cases h
    exact .inr ⟨rfl, .inr ⟨id, i, b, hr, rfl⟩⟩
  · simp only [not_or, not_not, Bool.not_eq_true] at hr
    obtain ⟨hb, rfl, hi⟩ := hr
    rw [bufWrite_payload b hb (Nat.lt_of_not_le hi)] at h
    cases h
    exact .inl rfl

theorem bufRead_hostViol {id i : Nat} (h : bufRead id i s = .next t) : t.hostViol = s.hostViol := by
  obtain ⟨v, rfl⟩ | ⟨-, -, rfl⟩ := bufRead_next h
  · rfl
  · rfl

/-- HOST_VIOL over one event: as it was, cleared by RESET or CLEAR, or set by a refused write. -/
theorem runEvent_hostViol {e : Event} (h : runEvent e s = .next t) :
    t.hostViol = s.hostViol ∨ t.hostViol = false ∧ ClearsViol e s ∨ t.hostViol = true ∧ IsRefusedWrite e s := by
  cases e with
  | host a =>
    cases a with
    | regRead off => cases h; exact .inl rfl
    | regWrite off v => exact regWrite_hostViol h
    | bufRead id i => exact .inl (bufRead_hostViol h)
    | bufWrite id i b => exact (bufWrite_hostViol h).imp_right .inr
  | fct o => exact .inl (fctStep_hostSide h).hostViol
  | link r => exact .inl (linkEvent_hostSide h).hostViol
  | reset => cases h; exact .inr (.inl ⟨rfl, .inl rfl⟩)

theorem step_hostViol (h : step s = .next t) :
    t.hostViol = s.hostViol ∨ t.hostViol = false ∧ ClearsViol (nextEvent s) s ∨
      t.hostViol = true ∧ IsRefusedWrite (nextEvent s) s := by
  simpa only [takeEvent_hostViol, takeEvent_busy, takeEvent_cfg, ClearsViol, IsRefusedWrite, nextEvent] using
    runEvent_hostViol h

end

/-! ## The obligations -/

/-- Settles O6: the sixteen reads by evaluation of the map, the rest from where the map has no register. -/
theorem registerPortMap : Obligations.RegisterPortMap := by
  unfold Obligations.RegisterPortMap
  intro s
  refine ⟨⟨rfl, rfl, rfl, rfl, rfl, rfl, rfl, rfl, rfl, rfl, rfl, rfl, rfl, rfl, rfl, rfl⟩, fun off h => ?_,
    fun off => rfl, fun off v => regWrite_other v s⟩
  rw [regReadValue, regAt_none h]

/-- Settles O7: each bit is read off `getLsbD_statusWord`. -/
theorem statusWordLayout : Obligations.StatusWordLayout := by
  unfold Obligations.StatusWordLayout
  refine ⟨⟨rfl, rfl, rfl, rfl, rfl⟩, fun s =>
    ⟨?_, ?_, ?_, ?_, ?_, ?_, ?_, ?_, extractLsb_statusWord s, fun k => getLsbD_statusWord_reserved s⟩⟩
  all_goals rw [getLsbD_statusWord]; simp

/-- Settles O44: a step that moves HOST_VIOL is one of the two other cases of `step_hostViol`. -/
theorem hostViolIsSticky : Obligations.HostViolIsSticky := by
  unfold Obligations.HostViolIsSticky
  refine ⟨rfl, fun s off v => regWrite_busy v, fun s id i b => bufWrite_refused b, fun s t h => ⟨?_, ?_⟩⟩
  · intro hs ht
    obtain hsame | ⟨-, hclear⟩ | ⟨hset, -⟩ := step_hostViol h
    · simp [hsame, hs] at ht
    · exact hclear
    · simp [hset] at ht
  · intro hs ht
    obtain hsame | ⟨hclear, -⟩ | ⟨-, hset⟩ := step_hostViol h
    · simp [hsame, hs] at ht
    · simp [hclear] at ht
    · exact hset

/-- Settles O45: no step changes a parameter, and legal ones fit the two registers. -/
theorem parametersAreHardwired : Obligations.ParametersAreHardwired := by
  unfold Obligations.ParametersAreHardwired
  refine ⟨fun p hp => ?_, fun s t h => ?_⟩
  · obtain ⟨⟨-, hcap⟩, ⟨-, hmax⟩, -⟩ := (params_wf_iff p).mp hp
    exact ⟨Nat.mod_eq_of_lt (hcap.trans_lt (by decide)), Nat.mod_eq_of_lt hmax⟩
  · have hcfg := step_cfg h
    exact ⟨hcfg, congrArg (fun p : Params => BitVec.ofNat 32 p.cap) hcfg,
      congrArg (fun p : Params => BitVec.ofNat 32 p.maxAttempts) hcfg⟩

end Sys2Proof.Machine
end

section
/-! PROOFS, 20_memory.md: the order of the agents' steps (R80), the buffer port's reads (R73), reads without side effect
(R79), and what can change once DONE is 1 (R82). -/

namespace Sys2Proof.Machine

section
variable {s t : State}

/-! ## A step with no event pending -/

theorem step_free (h : s.pending = []) : step s = runEvent (Config.freeEvent s.draws) (countDraw s) := by
  simp [step, takeEvent, h]

/-! ## The host's reads -/

theorem bufRead_beyond (id : Nat) {i : Nat} (hi : s.cfg.cap ≤ i) : bufRead id i s = .next (answerRead 0 s) := if_pos hi

/-- Below CAP the port reads the buffer that the id selects (20_memory.md R73). -/
theorem bufRead_buffer (b : BufId) {i : Nat} (hi : i < s.cfg.cap) :
    bufRead b.id i s = withBytes (Memory.read (buffer b s) i) fun v => .next (answerRead (zext32 v) s) := by
  simp only [bufRead, if_neg (Nat.not_le_of_lt hi), bufAt_id]

@[simp] theorem fctPart_answerRead (v : Word) (s : State) : fctPart (answerRead v s) = fctPart s := rfl

@[simp] theorem fctPart_answerFree (s : State) : fctPart (answerFree s) = fctPart s := rfl

/-! ## What can happen in IDLE -/

/-- The model's stutter (log 6): by 42_transport.md R170 the FCT has no step in IDLE. -/
theorem fctStep_idle (o : TxOutcome) (h : s.state = .idle) : fctStep o s = .next s := by
  simp [fctStep, h]

/-- 42_transport.md R179. -/
theorem linkEvent_discarded (e : RxEvent) (h : s.state ≠ .recv) : linkEvent e s = .next s := if_neg h

theorem Inv.state_idle_of_done (h : Inv s) (hd : s.done = true) : s.state = .idle := h.state_idle (h.doneIdle hd)

/-- In every state, a host access other than a CMD write changes only what the host itself writes: PB, CTRL, PLEN, HOST_VIOL
and what its port returned (43_control.md R218). -/
theorem hostAccess_frame {a : HostAccess} (ha : ∀ w, a ≠ .regWrite 0x04 w) (h : hostAccess a s = .next t) :
    t = { s with
          pb := t.pb, verifyEn := t.verifyEn, rleEn := t.rleEn, irqEn := t.irqEn, plen := t.plen
          hostViol := t.hostViol, readData := t.readData, draws := t.draws } := by
  cases a with
  | regRead off => cases h; rfl
  | regWrite off v =>
    obtain rfl | ⟨-, rfl⟩ | ⟨-, rfl⟩ | ⟨-, rfl⟩ | ⟨hc, -⟩ := regWrite_next h
    case inr.inr.inr.inr => exact absurd (congrArg (HostAccess.regWrite · v) (regAt_offset hc)) (ha v)
    all_goals rfl
  | bufRead id i =>
    obtain ⟨v, rfl⟩ | ⟨-, -, rfl⟩ := bufRead_next h
    all_goals rfl
  | bufWrite id i b =>
    obtain rfl | ⟨-, -, -, rfl⟩ := bufWrite_next h
    all_goals rfl

end

/-! ## The obligations -/

/-- Settles O5: the head of the pending list, or `Config.freeEvent` at the count of free values taken so far. -/
theorem stepTakesEventsInOrder : Obligations.StepTakesEventsInOrder := by
  unfold Obligations.StepTakesEventsInOrder
  exact ⟨fun s e rest h => step_pending h, fun s h => ⟨Config.freeEvent s.draws, step_free h⟩⟩

/-- Settles O12: below CAP the port's answer is decided by whether the buffer holds the byte. -/
theorem bufReadReturnsWrittenBytes : Obligations.BufReadReturnsWrittenBytes := by
  unfold Obligations.BufReadReturnsWrittenBytes
  refine fun s b i => ⟨fun hi => bufRead_beyond b.id hi, fun hi v hv => ?_, fun hi hv => ?_⟩
  · rw [bufRead_buffer b hi, hv]
    rfl
  · rw [bufRead_buffer b hi, hv]
    rfl

/-- Settles O13: a read that answers is `answerRead`, or `answerFree` for a buffer that does not exist. -/
theorem readsHaveNoSideEffect : Obligations.ReadsHaveNoSideEffect := by
  unfold Obligations.ReadsHaveNoSideEffect
  intro s t off id i h
  obtain hreg | hbuf := h
  · cases hreg
    exact ⟨fctPart_answerRead _ s, rfl, rfl⟩
  · obtain ⟨v, rfl⟩ | ⟨-, -, rfl⟩ := bufRead_next hbuf
    · exact ⟨fctPart_answerRead v s, rfl, rfl⟩
    · exact ⟨fctPart_answerFree s, rfl, rfl⟩

/-- Settles O46: by the invariant DONE means IDLE, where neither the FCT nor the Link moves the state. -/
theorem completedResultsAreStable : Obligations.CompletedResultsAreStable := by
  unfold Obligations.CompletedResultsAreStable
  intro s hinv hdone
  have hidle : s.state = .idle := hinv.state_idle_of_done hdone
  exact ⟨fun o => fctStep_idle o hidle, fun e => linkEvent_discarded e (by simp [hidle]),
    fun a t ha h => hostAccess_frame ha h⟩

end Sys2Proof.Machine
end

section
/-! PROOFS, 30_encoding.md: the CMD word (R91, R92), the reserved words (R94), the operands (R93) and `LOADPB` (R113). -/

namespace Sys2Proof.Machine

/-! ## The CMD word: its three fields, and the words that are reserved -/

theorem cmdHigh_cmdWord (op : BitVec 4) (m : Mode) : cmdHigh (cmdWord op m) = 0 :=
  calc
    cmdHigh (cmdWord op m) = (0#27 ++ m.bit).extractLsb' 1 27 := BitVec.extractLsb'_append_eq_of_le (by decide)
    _ = 0 := BitVec.extractLsb'_append_eq_left

theorem cmdOp_cmdWord (op : BitVec 4) (m : Mode) : cmdOp (cmdWord op m) = op := BitVec.extractLsb'_append_eq_right

theorem cmdMode_cmdWord (op : BitVec 4) (m : Mode) : cmdMode (cmdWord op m) = m := by
  have hbit : (cmdWord op m).getLsbD 4 = m.bit.getLsbD 0 := by
    simp only [cmdWord, BitVec.getLsbD_append]
    rfl
  rw [cmdMode, hbit]
  cases m <;> rfl

theorem decodeCmd_cmdWord (op : BitVec 4) (m : Mode) : decodeCmd (cmdWord op m) = commandOf op m := by
  rw [decodeCmd, if_pos (cmdHigh_cmdWord op m), cmdOp_cmdWord, cmdMode_cmdWord]

theorem decodeCmd_encode (i : Instr) : decodeCmd (encode i) = .ok i := by
  cases i with
  | encodeT => exact decodeCmd_cmdWord 1 .text
  | encodeB => exact decodeCmd_cmdWord 1 .binary
  | decodeT => exact decodeCmd_cmdWord 2 .text
  | decodeB => exact decodeCmd_cmdWord 2 .binary
  | checksum m => exact decodeCmd_cmdWord 3 m
  | verify m => exact decodeCmd_cmdWord 4 m
  | sendrecvT => exact decodeCmd_cmdWord 5 .text
  | sendrecvB => exact decodeCmd_cmdWord 5 .binary
  | clear m => exact decodeCmd_cmdWord 6 m

/-- OP 1 to 6 selects a command in either MODE, every other OP none (30_encoding.md R92). -/
theorem commandOf_cases (op : BitVec 4) (m : Mode) :
    ((1 ≤ op.toNat ∧ op.toNat ≤ 6) ∧ ∃ i, commandOf op m = .ok i) ∨
      ((op.toNat = 0 ∨ 7 ≤ op.toNat) ∧ commandOf op m = .error (.opcode op)) := by
  unfold commandOf
  split
  case h_10 => exact .inr ⟨by grind [Mode], rfl⟩
  all_goals exact .inl ⟨by omega, _, rfl⟩

/-- The words that are commands: bits 31:5 zero and OP 1 to 6 (30_encoding.md R91, R94). -/
theorem exists_decodeCmd_iff (w : Word) :
    (∃ i, decodeCmd w = .ok i) ↔ w.toNat < 32 ∧ 1 ≤ w.toNat % 16 ∧ w.toNat % 16 ≤ 6 := by
  have hop : (cmdOp w).toNat = w.toNat % 16 := by simp [cmdOp]
  rw [decodeCmd]
  split
  · have hw : w.toNat < 32 := (cmdHigh_eq_zero_iff w).mp ‹_›
    obtain ⟨hr, hi⟩ | ⟨hr, he⟩ := commandOf_cases (cmdOp w) (cmdMode w)
    · exact iff_of_true hi (by omega)
    · exact iff_of_false (by simp [he]) (by omega)
  · have hw : ¬w.toNat < 32 := mt (cmdHigh_eq_zero_iff w).mpr ‹_›
    exact iff_of_false (by simp) (by omega)

/-- 43_control.md R216. -/
theorem cmdWrite_reserved {w : Word} {s : State} (hw : ¬∃ i, decodeCmd w = .ok i) (hb : s.busy = false) :
    cmdWrite w s = .next (finish .badCommand (beginCommand s)) := by
  unfold cmdWrite
  split
  · exact absurd ⟨_, ‹_›⟩ hw
  · exact whenIdle_idle hb

theorem finish_beginCommand (code : ErrCode) (s : State) :
    finish code (beginCommand s) =
      { s with busy := false, state := .idle, done := true, err := decide (code ≠ .none), errcode := code } := rfl

/-- Settles O1: the twelve words by evaluation, the reserved OPs through the fields of `cmdWord`. -/
theorem cmdWordsOfTheTable : Obligations.CmdWordsOfTheTable := by
  unfold Obligations.CmdWordsOfTheTable
  refine ⟨rfl, rfl, rfl, rfl, rfl, rfl, rfl, rfl, rfl, rfl, rfl, rfl, fun m op hop => ?_⟩
  rw [decodeCmd_cmdWord]
  obtain ⟨hr, -⟩ | ⟨-, he⟩ := commandOf_cases op m
  · omega
  · exact he

/-- Settles O2: command by command one way; the other way there are 32 words below bit 5. -/
theorem commandsAndWordsRoundTrip : Obligations.CommandsAndWordsRoundTrip := by
  unfold Obligations.CommandsAndWordsRoundTrip
  exact ⟨fun i _ => decodeCmd_encode i, fun w i => encode_of_decodeCmd⟩

/-- Settles O3: the reserved words are exactly those that do not decode. -/
theorem reservedWordsCompleteWithBadCommand : Obligations.ReservedWordsCompleteWithBadCommand := by
  unfold Obligations.ReservedWordsCompleteWithBadCommand
  refine ⟨rfl, fun w => ⟨fun hw s hb => ?_, fun hw => (exists_decodeCmd_iff w).mpr (by omega)⟩⟩
  have hres : ¬∃ i, decodeCmd w = .ok i := by
    rw [exists_decodeCmd_iff]
    omega
  exact (cmdWrite_reserved hres hb).trans (congrArg _ (finish_beginCommand .badCommand s))

/-! ## The operands -/

/-- Settles O17: a range of PB reads as its bytes one by one. -/
theorem operandsAreThePayloadBytes : Obligations.OperandsAreThePayloadBytes := by
  unfold Obligations.OperandsAreThePayloadBytes
  intro s b0 bs
  constructor
  · rw [payloadBytes, Memory.readRange_eq_some]
    exact and_congr_right fun hlen => by rw [hlen]
  · simp [requestBytes, Option.bind_eq_some_iff, Option.map_eq_some_iff]

/-! ## Host programs -/

section
variable {prog : List Stmt} {pc : Nat} {vars : List (String × Word)} {s : State}

/-- In IDLE the FCT has no step to run between two statements. -/
theorem afterStep_idle {r : Result} {t : State} {k : State → HostState} (hr : r = .next t) (ht : t.state = .idle) :
    afterStep r k = .running (k t) t := by
  subst hr
  simp [afterStep, settle, ht]

theorem programStep_wr_plen {v : Word} (hst : prog[pc]? = some (.wr .plen v)) (hb : s.busy = false)
    (hidle : s.state = .idle) : programStep prog ⟨pc, vars⟩ s = .running ⟨pc + 1, vars⟩ (writePlen v s) := by
  simp only [programStep, hst]
  exact afterStep_idle (whenIdle_idle hb) hidle

theorem programStep_wb_pb {i : Nat} {b : Byte} (hst : prog[pc]? = some (.wb .pb i b)) (hb : s.busy = false)
    (hidle : s.state = .idle) (hi : i < s.cfg.cap) :
    programStep prog ⟨pc, vars⟩ s = .running ⟨pc + 1, vars⟩ (writePayload i b s) := by
  simp only [programStep, hst]
  exact afterStep_idle (bufWrite_payload b hb hi) hidle

theorem programRun_succ {h h' : HostState} {s' : State} (n : Nat) (hstep : programStep prog h s = .running h' s') :
    programRun prog (n + 1) h s = programRun prog n h' s' := by
  rw [programRun, hstep]

/-- A run of `WB PB` statements, statement `i` writing index `i`, is one range write. -/
theorem programRun_wb_pb {bs : List Byte} (n : Nat)
    (hprog : ∀ j (hj : j < bs.length), prog[pc + j]? = some (.wb .pb (pc + j) bs[j])) (hb : s.busy = false)
    (hidle : s.state = .idle) (hcap : pc + bs.length ≤ s.cfg.cap) :
    programRun prog (bs.length + n) ⟨pc, vars⟩ s =
      programRun prog n ⟨pc + bs.length, vars⟩ { s with pb := Memory.writeRange s.pb pc bs } := by
  induction bs generalizing pc s with
  | nil => simp [Memory.writeRange]
  | cons b bs ih =>
    simp only [List.length_cons] at hprog hcap ⊢
    have hfirst : prog[pc]? = some (.wb .pb pc b) := hprog 0 (Nat.succ_pos _)
    have hrest : ∀ j (hj : j < bs.length), prog[pc + 1 + j]? = some (.wb .pb (pc + 1 + j) bs[j]) := fun j hj => by
      simpa [Nat.add_assoc, Nat.add_comm 1 j] using hprog (j + 1) (Nat.succ_lt_succ hj)
    have hcap' : pc + 1 + bs.length ≤ (writePayload pc b s).cfg.cap := by
      rw [writePayload_cfg]
      omega
    rw [Nat.add_right_comm, programRun_succ _ (programStep_wb_pb hfirst hb hidle (by omega)),
      ih (s := writePayload pc b s) hrest hb hidle hcap', Nat.add_assoc pc 1, Nat.add_comm 1]
    rfl

theorem loadPb_getElem?_byte {bs : List Byte} {j : Nat} (hj : j < bs.length) : (loadPb bs)[j]? = some (.wb .pb j bs[j]) := by
  simp [loadPb, List.getElem?_append_left, hj]

theorem loadPb_getElem?_plen (bs : List Byte) : (loadPb bs)[bs.length]? = some (.wr .plen (lengthWord bs.length)) := by
  simp [loadPb]

/-- `LOADPB` as one update of an idle machine (30_encoding.md R113). -/
theorem programRun_loadPb {bs : List Byte} (hb : s.busy = false) (hidle : s.state = .idle) (hcap : bs.length ≤ s.cfg.cap) :
    programRun (loadPb bs) (bs.length + 1) ⟨0, vars⟩ s =
      .running ⟨bs.length + 1, vars⟩ { s with pb := Memory.writeRange s.pb 0 bs, plen := lengthWord bs.length } := by
  have hbytes : ∀ j (hj : j < bs.length), (loadPb bs)[0 + j]? = some (.wb .pb (0 + j) bs[j]) := fun j hj => by
    simpa using loadPb_getElem?_byte hj
  rw [programRun_wb_pb 1 hbytes hb hidle (by simpa using hcap), Nat.zero_add]
  exact programRun_succ 0 (programStep_wr_plen (loadPb_getElem?_plen bs) hb hidle)

end

/-- Settles O58: PB after the run is one range write from index 0. -/
theorem loadPbLoadsThePayload : Obligations.LoadPbLoadsThePayload := by
  unfold Obligations.LoadPbLoadsThePayload
  intro s bs hb hidle hfit hcap
  refine ⟨_, programRun_loadPb hb hidle hfit, rfl, lengthWord_toNat (hfit.trans hcap), fun i hi => ?_, fun i hi => ?_⟩
  · rw [Memory.read_writeRange, if_pos (by omega), Nat.sub_zero]
  · exact Memory.read_writeRange_outside (.inr (by omega))

end Sys2Proof.Machine
end

section
/-! PROOFS, 40_codec.md (1): the length of a frame (R123), decoding unit by unit (R129 to R135), the round trip (R138) and
the decoded length (R140). -/

namespace Sys2Proof.Machine

section
variable {p : Params} {m : Mode} {rle : Bool} {out w : List Byte} {prev : Byte}

/-! ## The length of a frame -/

theorem encodeBody_binary (p : Params) (bs : List Byte) : encodeBody p .binary bs = bs := by
  induction bs with
  | nil => rfl
  | cons b bs ih => simp [encodeUnit, ih]

theorem encodeBody_text_length (p : Params) (bs : List Byte) :
    (encodeBody p .text bs).length = bs.countP (fun b => !inEscSet p b) + 2 * bs.countP (inEscSet p) := by
  induction bs with
  | nil => rfl
  | cons b bs ih =>
    cases hb : inEscSet p b <;> simp [encodeUnit, hb, ih] <;> omega

/-! ## The units of the decoder -/

theorem fitsOr_fits {k : Except ErrCode (List Byte)} (h : out.length ≤ p.cap) : fitsOr p out k = k :=
  if_neg (Nat.not_lt_of_le h)

theorem fitsOr_error_mono {k k' : Except ErrCode (List Byte)} {e : ErrCode} (h : fitsOr p out k = .error e)
    (hk : k = .error e → k' = .error e) : fitsOr p out k' = .error e := by
  unfold fitsOr at h ⊢
  split
  · rwa [if_pos ‹_›] at h
  · rw [if_neg ‹_›] at h
    exact hk h

/-- The byte starts no escape unit and no repeat unit (40_codec.md R129, R133). -/
def IsLiteral (p : Params) (m : Mode) (rle : Bool) (c : Byte) : Prop :=
  ¬(m = .text ∧ c = p.escByte) ∧ ¬(m = .text ∧ rle = true ∧ c = p.rptByte)

theorem isLiteral_binary (c : Byte) : IsLiteral p .binary rle c := by simp [IsLiteral]

theorem isLiteral_text {c : Byte} (hesc : c ≠ p.escByte) (hrpt : rle = false ∨ c ≠ p.rptByte) :
    IsLiteral p .text rle c := by
  refine ⟨fun h => hesc h.2, fun ⟨_, hr, he⟩ => ?_⟩
  simp [hr, he] at hrpt

@[simp] theorem decodeLoop_nil : decodeLoop p m rle out prev [] = .ok out := by rw [decodeLoop]

theorem decodeLoop_literal {c : Byte} (hc : IsLiteral p m rle c) :
    decodeLoop p m rle out prev (c :: w) = fitsOr p (out ++ [c]) (decodeLoop p m rle (out ++ [c]) c w) := by
  cases w <;> simp only [decodeLoop, if_neg hc.1, if_neg hc.2]

theorem decodeLoop_escape {c2 : Byte} :
    decodeLoop p .text rle out prev (p.escByte :: c2 :: w) =
      fitsOr p (out ++ [c2 ^^^ p.escXor]) (decodeLoop p .text rle (out ++ [c2 ^^^ p.escXor]) (c2 ^^^ p.escXor) w) := by
  simp [decodeLoop]

theorem decodeLoop_repeat {n : Byte} (hne : p.rptByte ≠ p.escByte) (hn : p.rptBias ≤ n.toNat) :
    decodeLoop p .text true out prev (p.rptByte :: n :: w) =
      fitsOr p (out ++ List.replicate (n.toNat - p.rptBias) prev)
        (decodeLoop p .text true (out ++ List.replicate (n.toNat - p.rptBias) prev) prev w) := by
  simp [decodeLoop, hne, Nat.not_lt_of_le hn]

theorem decodeLoop_badRepeat {n : Byte} (hne : p.rptByte ≠ p.escByte) (hn : n.toNat < p.rptBias) :
    decodeLoop p .text true out prev (p.rptByte :: n :: w) = .error .badRepeatCount := by
  simp [decodeLoop, hne, hn]

theorem getLast?_append_replicate {a : Byte} (h : out.getLast? = some a) (n : Nat) :
    (out ++ List.replicate n a).getLast? = some a := by
  cases n with
  | zero => simpa using h
  | succ n => simp [List.getLast?_replicate]

/-- After an input that decodes, the loop goes on from the output and its last byte. -/
theorem decodeLoop_append {d : List Byte} (hprev : out.getLast? = some prev) (h : decodeLoop p m rle out prev w = .ok d) :
    ∃ last, d.getLast? = some last ∧ ∀ w', decodeLoop p m rle out prev (w ++ w') = decodeLoop p m rle d last w' := by
  fun_induction decodeLoop p m rle out prev w with
  | case1 out prev => cases h; exact ⟨prev, hprev, fun _ => rfl⟩
  | case2 => cases h
  | case3 => cases h
  | case4 out prev c hesc hrpt =>
    obtain ⟨hfit, hd⟩ := fitsOr_ok h
    cases hd
    exact ⟨c, by simp, fun w' => (decodeLoop_literal ⟨hesc, hrpt⟩).trans (fitsOr_fits hfit)⟩
  | case5 out prev c c2 rest hesc ih =>
    obtain ⟨hfit, hd⟩ := fitsOr_ok h
    obtain ⟨last, hlast, happ⟩ := ih (by simp) hd
    obtain ⟨rfl, rfl⟩ := hesc
    exact ⟨last, hlast, fun w' => decodeLoop_escape.trans ((fitsOr_fits hfit).trans (happ w'))⟩
  | case6 => cases h
  | case7 out prev c n rest hesc hrpt hn ih =>
    obtain ⟨hfit, hd⟩ := fitsOr_ok h
    obtain ⟨last, hlast, happ⟩ := ih (getLast?_append_replicate hprev _) hd
    obtain ⟨rfl, rfl, rfl⟩ := hrpt
    have hne : p.rptByte ≠ p.escByte := fun he => hesc ⟨rfl, he⟩
    exact ⟨last, hlast, fun w' =>
      (decodeLoop_repeat hne (Nat.le_of_not_lt hn)).trans ((fitsOr_fits hfit).trans (happ w'))⟩
  | case8 out prev c c2 rest hesc hrpt ih =>
    obtain ⟨hfit, hd⟩ := fitsOr_ok h
    obtain ⟨last, hlast, happ⟩ := ih (by simp) hd
    exact ⟨last, hlast, fun w' => (decodeLoop_literal ⟨hesc, hrpt⟩).trans ((fitsOr_fits hfit).trans (happ w'))⟩

/-- An error that does not come from the end of the input is the result whatever follows (60_exceptions.md R237). -/
theorem decodeLoop_append_error {e : ErrCode} (he : e = .badRepeatCount ∨ e = .decodeOverflow) (w' : List Byte)
    (h : decodeLoop p m rle out prev w = .error e) : decodeLoop p m rle out prev (w ++ w') = .error e := by
  fun_induction decodeLoop p m rle out prev w with
  | case1 => cases h
  | case2 => cases h; simp at he
  | case3 => cases h; simp at he
  | case4 out prev c hesc hrpt =>
    exact (decodeLoop_literal ⟨hesc, hrpt⟩).trans (fitsOr_error_mono h nofun)
  | case5 out prev c c2 rest hesc ih =>
    obtain ⟨rfl, rfl⟩ := hesc
    exact decodeLoop_escape.trans (fitsOr_error_mono h ih)
  | case6 out prev c n rest hesc hrpt hn =>
    obtain ⟨rfl, rfl, rfl⟩ := hrpt
    exact (decodeLoop_badRepeat (fun he => hesc ⟨rfl, he⟩) hn).trans h
  | case7 out prev c n rest hesc hrpt hn ih =>
    obtain ⟨rfl, rfl, rfl⟩ := hrpt
    exact (decodeLoop_repeat (fun he => hesc ⟨rfl, he⟩) (Nat.le_of_not_lt hn)).trans (fitsOr_error_mono h ih)
  | case8 out prev c c2 rest hesc hrpt ih =>
    exact (decodeLoop_literal ⟨hesc, hrpt⟩).trans (fitsOr_error_mono h ih)

/-! ## The special bytes -/

/-- What the decoder rests on of the five special bytes being distinct (00_scope.md R10). -/
theorem special_bytes_ne (hp : p.wf = true) :
    p.endByte ≠ p.escByte ∧ p.endByte ≠ p.rptByte ∧ p.rptByte ≠ p.escByte := by
  obtain ⟨-, -, hnodup, -⟩ := (params_wf_iff p).mp hp
  simp only [Params.specials, List.nodup_cons, List.mem_cons, not_or] at hnodup
  obtain ⟨-, ⟨hee, her, -⟩, ⟨hre, -⟩, -⟩ := hnodup
  exact ⟨hee, her, Ne.symm hre⟩

theorem hexDigit_not_special (hp : p.wf = true) (v : BitVec 4) : hexDigit v ∉ p.specials := fun h => by
  obtain ⟨-, -, -, hhex⟩ := (params_wf_iff p).mp hp
  simpa [isHexDigit_hexDigit] using hhex _ h

theorem isLiteral_hexDigit (hp : p.wf = true) (v : BitVec 4) : IsLiteral p .text rle (hexDigit v) := by
  have hv := hexDigit_not_special hp v
  simp only [Params.specials, List.mem_cons, not_or] at hv
  obtain ⟨-, -, hesc, hrpt, -⟩ := hv
  exact isLiteral_text hesc (.inr hrpt)

/-- In a frame's trailer every byte is a literal (40_codec.md R129). -/
theorem isLiteral_trailer (hp : p.wf = true) (sum : Byte) : ∀ c ∈ trailer p sum, IsLiteral p m rle c := by
  cases m with
  | binary => exact fun c _ => isLiteral_binary c
  | text =>
    obtain ⟨hesc, hrpt, -⟩ := special_bytes_ne hp
    simp only [trailer, List.forall_mem_cons, List.not_mem_nil, false_imp_iff, implies_true, and_true]
    exact ⟨isLiteral_text hesc (.inr hrpt), isLiteral_hexDigit hp _, isLiteral_hexDigit hp _⟩

/-! ## The round trip -/

theorem decodeLoop_literals (hw : ∀ c ∈ w, IsLiteral p m rle c) (hfit : out.length + w.length ≤ p.cap) :
    decodeLoop p m rle out prev w = .ok (out ++ w) := by
  induction w generalizing out prev with
  | nil => simp
  | cons c w ih =>
    simp only [List.forall_mem_cons] at hw
    simp only [List.length_cons] at hfit
    rw [decodeLoop_literal hw.1, fitsOr_fits (by simp; omega), ih hw.2 (by simp; omega), List.append_assoc]
    rfl

/-- How a payload byte is written: as an escape unit, or as a literal (40_codec.md R125). -/
theorem encodeUnit_cases {b : Byte} (hb : m = .binary ∨ rle = false ∨ b ≠ p.rptByte) :
    (m = .text ∧ encodeUnit p m b = [p.escByte, b ^^^ p.escXor]) ∨ (encodeUnit p m b = [b] ∧ IsLiteral p m rle b) := by
  cases m with
  | binary => exact .inr ⟨rfl, isLiteral_binary b⟩
  | text =>
    cases hesc : inEscSet p b with
    | true => exact .inl ⟨rfl, by simp [encodeUnit, hesc]⟩
    | false =>
      simp only [inEscSet, Bool.or_eq_false_iff, beq_eq_false_iff_ne] at hesc
      exact .inr ⟨by simp [encodeUnit, inEscSet, hesc], isLiteral_text hesc.1.1 (hb.resolve_left nofun)⟩

/-- Decoding a frame's body gives the payload, and then whatever literals follow it. -/
theorem decodeLoop_encodeBody {bs : List Byte} (hbs : ∀ b ∈ bs, m = .binary ∨ rle = false ∨ b ≠ p.rptByte)
    (hw : ∀ c ∈ w, IsLiteral p m rle c) (hfit : out.length + (encodeBody p m bs).length + w.length ≤ p.cap) :
    decodeLoop p m rle out prev (encodeBody p m bs ++ w) = .ok (out ++ bs ++ w) := by
  induction bs generalizing out prev with
  | nil => simpa using decodeLoop_literals hw (by simpa using hfit)
  | cons b bs ih =>
    simp only [List.forall_mem_cons] at hbs
    obtain ⟨rfl, hunit⟩ | ⟨hunit, hlit⟩ := encodeUnit_cases hbs.1
    · simp only [encodeBody_cons, hunit, List.cons_append, List.nil_append, List.length_cons] at hfit ⊢
      rw [decodeLoop_escape, fitsOr_fits (by simp; omega), ih hbs.2 (by simp; omega), BitVec.xor_assoc, BitVec.xor_self,
        BitVec.xor_zero]
      simp
    · simp only [encodeBody_cons, hunit, List.cons_append, List.nil_append, List.length_cons] at hfit ⊢
      rw [decodeLoop_literal hlit, fitsOr_fits (by simp; omega), ih hbs.2 (by simp; omega)]
      simp

/-! ## The decoded length -/

/-- Without run-length decoding no unit gives more bytes than it has, so only a last ESC is an error (40_codec.md R140). -/
theorem decodeLoop_text_noRle (hfit : out.length + w.length ≤ p.cap) :
    (∃ d, decodeLoop p .text false out prev w = .ok d ∧ d.length ≤ out.length + w.length) ∨
      decodeLoop p .text false out prev w = .error .danglingEscape := by
  fun_induction decodeLoop p .text false out prev w with
  | case1 out prev => exact .inl ⟨out, rfl, by simp⟩
  | case2 => exact .inr rfl
  | case3 out prev c hesc hrpt => simp at hrpt
  | case4 out prev c hesc hrpt => exact .inl ⟨out ++ [c], fitsOr_fits (by simpa using hfit), by simp⟩
  | case5 out prev c c2 rest hesc ih =>
    simp only [List.length_append, List.length_cons, List.length_nil] at hfit ih
    rw [fitsOr_fits (by simp; omega)]
    exact (ih (by omega)).imp_left fun ⟨d, hd, hlen⟩ => ⟨d, hd, by simp; omega⟩
  | case6 out prev c c2 rest hesc hrpt hn => simp at hrpt
  | case7 out prev c c2 rest hesc hrpt hn ih => simp at hrpt
  | case8 out prev c c2 rest hesc hrpt ih =>
    simp only [List.length_append, List.length_cons, List.length_nil] at hfit ih
    rw [fitsOr_fits (by simp; omega)]
    exact (ih (by omega)).imp_left fun ⟨d, hd, hlen⟩ => ⟨d, hd, by simp; omega⟩

end

/-! ## The obligations -/

/-- Settles O50: each payload byte is one unit of the body, and the trailer is three literals. -/
theorem wireRoundTrip : Obligations.WireRoundTrip := by
  unfold Obligations.WireRoundTrip
  intro p m rle b0 bs rest hp hframe hfit hmode
  obtain rfl : encodeBody p m bs ++ trailer p (checksum bs) = rest := (List.cons.inj hframe).2
  have hbs : ∀ b ∈ bs, m = .binary ∨ rle = false ∨ b ≠ p.rptByte := fun b hb =>
    hmode.imp_right (.imp_right fun hno he => hno (he ▸ hb))
  simp only [List.length_cons, List.length_append] at hfit
  exact decodeLoop_encodeBody hbs (isLiteral_trailer hp _) (by simp only [List.length_singleton]; omega)

/-- Settles O51: a body has one byte per plain byte and two per escaped one, and every byte is one or the other. -/
theorem encodedFrameLength : Obligations.EncodedFrameLength := by
  unfold Obligations.EncodedFrameLength
  intro p b0 bs
  have hsplit : bs.length = bs.countP (inEscSet p) + bs.countP (fun b => !inEscSet p b) := by
    simpa using List.length_eq_countP_add_countP (inEscSet p) (l := bs)
  simp only [encodeFrame_length, encodeBody_binary, encodeBody_text_length, List.length_cons, true_and]
  omega

/-- Settles O53: in BINARY every byte is a literal; the rest are bounds on the loop. -/
theorem decodedLengthBounds : Obligations.DecodedLengthBounds := by
  unfold Obligations.DecodedLengthBounds
  intro p w0 rest hfit
  have hone : [w0].length + rest.length ≤ p.cap := by simpa [Nat.add_comm] using hfit
  refine ⟨fun rle => decodeLoop_literals (fun c _ => isLiteral_binary c) hone, fun out h => ?_, fun e h => ?_,
    fun m rle out h => decodeLoop_length (by omega) h⟩
  · obtain ⟨d, hd, hlen⟩ | he := decodeLoop_text_noRle (prev := w0) hone
    · cases hd.symm.trans h
      simpa [Nat.add_comm] using hlen
    · cases he.symm.trans h
  · obtain ⟨d, hd, -⟩ | he := decodeLoop_text_noRle (prev := w0) hone
    · cases hd.symm.trans h
    · cases he.symm.trans h
      rfl

/-- Settles O54: the loop goes on from the output so far, where the next unit's equation gives its result. -/
theorem escapeAndRepeatUnits : Obligations.EscapeAndRepeatUnits := by
  unfold Obligations.EscapeAndRepeatUnits
  intro p rle w0 hp
  obtain ⟨-, -, hne⟩ := special_bytes_ne hp
  refine ⟨rfl, fun pre out h => ?_, fun pre rest e h he => decodeLoop_append_error he rest h⟩
  obtain ⟨prev, hprev, happ⟩ := decodeLoop_append rfl h
  simp only [decodeWire, happ]
  refine ⟨prev, hprev, fun c hesc hrpt => ?_, fun c2 => ?_, ?_, ?_, ?_, ?_⟩
  · simp [decodeLoop_literal (isLiteral_text hesc hrpt), fitsOr]
  · simp [decodeLoop_escape, fitsOr]
  · simp [decodeLoop]
  · rintro rfl
    simp [decodeLoop, hne]
  · rintro n rfl hn
    exact decodeLoop_badRepeat hne hn
  · rintro n rfl hn
    simp [decodeLoop_repeat hne hn, fitsOr]

end Sys2Proof.Machine
end

section
/-! PROOFS, 40_codec.md (2): the commands ENCODE (R122, R126) and DECODE (R130, R136), their results and their frames. -/

namespace Sys2Proof.Machine

section
variable {s t : State}

/-! ## The operands -/

theorem lengthOk_of_goodLength (h : goodLength s) : lengthOk s = true := (lengthOk_iff s).mpr h

theorem lengthOk_of_not_goodLength (h : ¬goodLength s) : lengthOk s = false :=
  Bool.eq_false_iff.mpr fun hl => h ((lengthOk_iff s).mp hl)

/-- 10_state.md R55. -/
theorem withRequest_unwritten {bad : Result} {k : Byte → List Byte → Result} (hl : lengthOk s = true)
    (hr : requestBytes s = none) : withRequest s bad k = .fault .uninit := by
  simp [withRequest, hl, hr, withBytes]

/-! ## ENCODE -/

theorem exec_encodeOf (m : Mode) (s : State) : exec (encodeOf m) s = encodeCommand m s := by
  cases m
  · rfl
  · rfl

section
variable {m : Mode} {b0 : Byte} {bs : List Byte}

theorem encodeCommand_badLength (m : Mode) (hb : s.busy = false) (hl : ¬goodLength s) :
    encodeCommand m s = .next (finish .badLength (beginCommand s)) := by
  rw [encodeCommand, whenIdle_idle hb]
  exact withRequest_bad (s := beginCommand s) (lengthOk_of_not_goodLength hl)

theorem encodeCommand_unwritten (m : Mode) (hb : s.busy = false) (hl : goodLength s) (hr : requestBytes s = none) :
    encodeCommand m s = .fault .uninit := by
  rw [encodeCommand, whenIdle_idle hb]
  exact withRequest_unwritten (s := beginCommand s) (lengthOk_of_goodLength hl) hr

theorem encodeCommand_request (hb : s.busy = false) (hl : goodLength s) (hr : requestBytes s = some (b0, bs)) :
    encodeCommand m s =
      encodeInto m b0 bs (beginCommand s) (.next (finish .txOverflow (beginCommand s))) fun t =>
        .next (finish .none t) := by
  rw [encodeCommand, whenIdle_idle hb]
  exact withRequest_ok (s := beginCommand s) (lengthOk_of_goodLength hl) hr

/-- 40_codec.md R124. -/
theorem encodeCommand_overflow (hb : s.busy = false) (hl : goodLength s) (hr : requestBytes s = some (b0, bs))
    (hf : s.cfg.cap < (encodeFrame s.cfg m b0 bs).length) :
    encodeCommand m s = .next (finish .txOverflow (beginCommand s)) := by
  rw [encodeCommand_request hb hl hr]
  exact if_pos hf

theorem encodeCommand_stores (hb : s.busy = false) (hl : goodLength s) (hr : requestBytes s = some (b0, bs))
    (hf : (encodeFrame s.cfg m b0 bs).length ≤ s.cfg.cap) :
    encodeCommand m s =
      .next (finish .none (storeFrame (encodeFrame s.cfg m b0 bs) (checksum bs) (beginCommand s))) := by
  rw [encodeCommand_request hb hl hr]
  exact if_neg (Nat.not_lt_of_le hf)

end

/-! ## DECODE -/

theorem exec_decodeOf (m : Mode) (s : State) : exec (decodeOf m) s = decodeCommand m s := by
  cases m
  · rfl
  · rfl

section
variable {m : Mode} {w0 : Byte} {rest : List Byte}

theorem decodeCommand_badLength (m : Mode) (hb : s.busy = false) (hl : ¬goodLength s) :
    decodeCommand m s = .next (failDecode .badLength (clearView (beginCommand s))) := by
  rw [decodeCommand, whenIdle_idle hb]
  exact withRequest_bad (s := clearView (beginCommand s)) (lengthOk_of_not_goodLength hl)

theorem decodeCommand_unwritten (m : Mode) (hb : s.busy = false) (hl : goodLength s) (hr : requestBytes s = none) :
    decodeCommand m s = .fault .uninit := by
  rw [decodeCommand, whenIdle_idle hb]
  exact withRequest_unwritten (s := clearView (beginCommand s)) (lengthOk_of_goodLength hl) hr

theorem decodeCommand_error {e : ErrCode} (hb : s.busy = false) (hl : goodLength s)
    (hr : requestBytes s = some (w0, rest)) (hd : decodeWire s.cfg m s.rleEn w0 rest = .error e) :
    decodeCommand m s = .next (failDecode e (clearView (beginCommand s))) := by
  rw [decodeCommand, whenIdle_idle hb]
  refine (withRequest_ok (s := clearView (beginCommand s)) (lengthOk_of_goodLength hl) hr).trans ?_
  simp [hd]

theorem decodeCommand_stores {out : List Byte} (hb : s.busy = false) (hl : goodLength s)
    (hr : requestBytes s = some (w0, rest)) (hd : decodeWire s.cfg m s.rleEn w0 rest = .ok out) :
    decodeCommand m s = .next (finish .none (storeDecoded out (clearView (beginCommand s)))) := by
  rw [decodeCommand, whenIdle_idle hb]
  refine (withRequest_ok (s := clearView (beginCommand s)) (lengthOk_of_goodLength hl) hr).trans ?_
  simp [hd]

end
end

/-! ## The obligations -/

/-- Settles O18: one equation per outcome; the completion overwrites what the command's start cleared. -/
theorem encodeCommandResult : Obligations.EncodeCommandResult := by
  unfold Obligations.EncodeCommandResult
  intro m s hb
  rw [exec_encodeOf]
  exact ⟨encodeCommand_badLength m hb, encodeCommand_unwritten m hb, fun hl b0 bs hr =>
    ⟨encodeCommand_overflow hb hl hr, encodeCommand_stores hb hl hr⟩⟩

/-- Settles O19: the four outcomes of ENCODE, of which only the last writes TXB. -/
theorem encodeCommandFrame : Obligations.EncodeCommandFrame := by
  unfold Obligations.EncodeCommandFrame
  intro m s t h
  rw [exec_encodeOf] at h
  obtain ⟨hb, rfl⟩ | ⟨hb, -, rfl⟩ | ⟨hb, -, b0, bs, hr, ⟨-, rfl⟩ | ⟨-, rfl⟩⟩ := encodeCommand_next h
  · exact ⟨rfl, fun _ => rfl, by simp [hb], by simp [hb], fun _ _ _ _ _ => rfl⟩
  · exact ⟨rfl, by simp [hb], fun _ => rfl, fun _ _ => ⟨rfl, rfl, rfl⟩, fun _ _ _ _ _ => rfl⟩
  · exact ⟨rfl, by simp [hb], fun _ => rfl, fun _ _ => ⟨rfl, rfl, rfl⟩, fun _ _ _ _ _ => rfl⟩
  · refine ⟨rfl, by simp [hb], fun _ => rfl, fun _ he => absurd rfl he, fun c0 cs a hr' ha => ?_⟩
    cases hr.symm.trans hr'
    exact Memory.read_writeRange_outside (.inr (by omega))

/-- Settles O20: one equation per outcome; the completion overwrites what the command's start cleared. -/
theorem decodeCommandResult : Obligations.DecodeCommandResult := by
  unfold Obligations.DecodeCommandResult
  intro m s hb
  rw [exec_decodeOf]
  exact ⟨decodeCommand_badLength m hb, decodeCommand_unwritten m hb, fun hl w0 rest hr =>
    ⟨fun e => decodeCommand_error hb hl hr, fun out => decodeCommand_stores hb hl hr⟩⟩

/-- Settles O21: the four outcomes of DECODE, of which only the last writes DB. -/
theorem decodeCommandFrame : Obligations.DecodeCommandFrame := by
  unfold Obligations.DecodeCommandFrame
  intro m s t h
  rw [exec_decodeOf] at h
  obtain ⟨hb, rfl⟩ | ⟨hb, -, rfl⟩ | ⟨hb, -, w0, rest, hr, ⟨e, -, rfl⟩ | ⟨out, ho, rfl⟩⟩ := decodeCommand_next h
  · exact ⟨rfl, fun _ => rfl, by simp [hb], by simp [hb], fun _ _ _ _ _ _ _ => rfl⟩
  · exact ⟨rfl, by simp [hb], fun _ => rfl, fun _ _ => rfl, fun _ _ _ _ _ _ _ => rfl⟩
  · exact ⟨rfl, by simp [hb], fun _ => rfl, fun _ _ => rfl, fun _ _ _ _ _ _ _ => rfl⟩
  · refine ⟨rfl, by simp [hb], fun _ => rfl, fun _ he => absurd rfl he, fun v0 vs out' a hr' ho' ha => ?_⟩
    cases hr.symm.trans hr'
    cases ho.symm.trans ho'
    exact Memory.read_writeRange_outside (.inr (by omega))

end Sys2Proof.Machine
end

section
/-! PROOFS, 41_checksum.md (1): the checksum (R150), its digits (R152) and the reply view (R156). -/

namespace Sys2Proof.Machine

/-! ## The checksum -/

theorem checksum_append (a b : List Byte) : checksum (a ++ b) = checksum a + checksum b := by
  simp only [checksum, List.map_append, List.sum_append, BitVec.ofNat_add]

/-! ## The digits -/

theorem field_eq_some_iff {d1 d0 v : Byte} :
    field d1 d0 = some v ↔ ∃ h l, hexVal d1 = some h ∧ hexVal d0 = some l ∧ v = BitVec.ofNat 8 (16 * h + l) := by
  simp only [field, Option.bind_eq_some_iff, Option.map_eq_some_iff, exists_and_left, eq_comm (a := v)]

theorem hexDigit_toNat (v : BitVec 4) :
    (hexDigit v).toNat = if v.toNat < 10 then 0x30 + v.toNat else 0x61 + (v.toNat - 10) := by
  revert v; decide

/-! ## The view -/

section
variable {p : Params} {d : List Byte}

theorem firstIndex_eq_some_iff {b : Byte} {k : Nat} :
    firstIndex b d = some k ↔ d[k]? = some b ∧ ∀ j, j < k → d[j]? ≠ some b := by
  induction d generalizing k with
  | nil => simp [firstIndex]
  | cons c cs ih =>
    rw [firstIndex]
    cases k with
    | zero => by_cases hc : c = b <;> simp [hc]
    | succ k =>
      rw [Nat.forall_lt_succ_left]
      by_cases hc : c = b <;> simp [hc, ih]

/-- There is a view exactly when the END third from last stands after the first START (41_checksum.md R156). -/
theorem view_ne_none_iff :
    view p d ≠ none ↔
      ∃ k, firstIndex p.startByte d = some k ∧ k + 4 ≤ d.length ∧ d[d.length - 3]? = some p.endByte := by
  constructor
  · intro h
    obtain ⟨v, hv⟩ := Option.ne_none_iff_exists'.mp h
    obtain ⟨-, hend, hstart, hoff, hlen, -, -⟩ := view_some hv
    exact ⟨v.off - 1, hstart, by omega, hend⟩
  · rintro ⟨k, hstart, hlen, hend⟩
    simp only [view, hstart, hend]
    rw [if_neg (by simp only [ne_eq, not_true_eq_false, false_or]; omega)]
    exact Option.some_ne_none _

end

/-! ## The obligations -/

/-- Settles O55: reducing mod 256 commutes with addition. -/
theorem checksumIsTheSum : Obligations.ChecksumIsTheSum := by
  unfold Obligations.ChecksumIsTheSum
  exact fun a b => ⟨BitVec.toNat_ofNat _ _, rfl, checksum_append a b⟩

/-- Settles O56: the ranges are those of `hexVal`, and the digits written for a checksum parse by `field_hexDigits`. -/
theorem checksumDigitsParse : Obligations.ChecksumDigitsParse := by
  unfold Obligations.ChecksumDigitsParse
  refine ⟨fun c => ?_, field_hexDigits, fun d1 d0 v => field_eq_some_iff, hexDigit_toNat, by decide⟩
  refine ite_congr rfl (fun _ => rfl) fun _ => ite_congr rfl (fun hlower => congrArg some ?_) fun _ =>
    ite_congr rfl (fun hupper => congrArg some ?_) fun _ => rfl
  · omega
  · omega

/-- Settles O57: what a view is comes from `view_some`, and when there is one from `view_ne_none_iff`. -/
theorem viewIsBetweenStartAndEnd : Obligations.ViewIsBetweenStartAndEnd := by
  unfold Obligations.ViewIsBetweenStartAndEnd
  refine fun p d => ⟨fun v hv => ?_, ?_⟩
  · obtain ⟨-, hend, hstart, hoff, hlen, hsum, hfield⟩ := view_some hv
    obtain ⟨hk, hbefore⟩ := firstIndex_eq_some_iff.mp hstart
    have hget : ∀ i, i < d.length → d[i]? = some (d.getD i 0) := fun i hi => by simp [hi]
    exact ⟨hoff, hk, hbefore, hlen, hend, hsum, _, _, hget _ (by omega), hget _ (by omega), hfield⟩
  · rw [← not_iff_not, not_not, ← ne_eq, view_ne_none_iff]
    simp only [firstIndex_eq_some_iff, and_assoc]

end Sys2Proof.Machine
end

section
/-! PROOFS, 41_checksum.md (2): the commands CHECKSUM (R154) and VERIFY (R158), the frame of these and CLEAR, and the trailer
of a written frame (R151). -/

namespace Sys2Proof.Machine

section
variable {s t : State} {m : Mode}

/-! ## CHECKSUM -/

theorem execChecksum_badLength (m : Mode) (hb : s.busy = false) (hl : ¬goodLength s) :
    execChecksum m s = .next (finish .badLength (beginCommand s)) := by
  rw [execChecksum, whenIdle_idle hb]
  exact if_neg (Bool.eq_false_iff.mp (lengthOk_of_not_goodLength hl))

/-- 41_checksum.md R154: past the length check the payload decides. -/
theorem execChecksum_goodLength (m : Mode) (hb : s.busy = false) (hl : goodLength s) :
    execChecksum m s =
      withBytes (payloadBytes s) fun bs => .next (finish .none (storeSum (checksum bs) (beginCommand s))) := by
  rw [execChecksum, whenIdle_idle hb]
  exact if_pos (lengthOk_of_goodLength hl)

theorem execChecksum_unwritten (m : Mode) (hb : s.busy = false) (hl : goodLength s) (hp : payloadBytes s = none) :
    execChecksum m s = .fault .uninit := by
  rw [execChecksum_goodLength m hb hl, hp]
  rfl

theorem execChecksum_payload (m : Mode) {bs : List Byte} (hb : s.busy = false) (hl : goodLength s)
    (hp : payloadBytes s = some bs) :
    execChecksum m s = .next (finish .none (storeSum (checksum bs) (beginCommand s))) := by
  rw [execChecksum_goodLength m hb hl, hp]
  rfl

theorem payloadBytes_of_plen_one (h : s.plen = 1) : payloadBytes s = some [] := by
  simp [payloadBytes, h, Memory.readRange]

/-! ## VERIFY -/

@[simp] theorem decodedBytes_beginVerify (s : State) :
    decodedBytes (clearView (beginCommand s)) = decodedBytes s := rfl

section
variable {d : List Byte} {v : ReplyView}

theorem execVerify_unwritten (m : Mode) (hb : s.busy = false) (hd : decodedBytes s = none) :
    execVerify m s = .fault .uninit := by
  simp [execVerify, whenIdle_idle hb, withBytes, hd]

theorem execVerify_noView (m : Mode) (hb : s.busy = false) (hd : decodedBytes s = some d) (hv : view s.cfg d = none) :
    execVerify m s = .next (finish .badFrame (clearView (beginCommand s))) := by
  simp [execVerify, whenIdle_idle hb, withBytes, hd, hv]

theorem execVerify_mismatch (m : Mode) (hb : s.busy = false) (hd : decodedBytes s = some d) (hv : view s.cfg d = some v)
    (hm : v.field ≠ some v.sum) :
    execVerify m s = .next (finish .checksumMismatch (showSums v (clearView (beginCommand s)))) := by
  simp [execVerify, whenIdle_idle hb, withBytes, hd, hv, digitsMatch_false.mpr hm]

theorem execVerify_match (m : Mode) (hb : s.busy = false) (hd : decodedBytes s = some d) (hv : view s.cfg d = some v)
    (hm : v.field = some v.sum) :
    execVerify m s = .next (finish .none (markMatch (showView v (showSums v (clearView (beginCommand s)))))) := by
  simp [execVerify, whenIdle_idle hb, withBytes, hd, hv, digitsMatch_iff.mpr hm]

end

/-! ## CLEAR -/

/-- CLEAR (43_control.md R215): refused, or the flags cleared. -/
theorem execClear_next (h : execClear m s = .next t) :
    (s.busy = true ∧ t = refuseHost s) ∨ (s.busy = false ∧ t = clearFlags s) := by
  obtain hr | ⟨hb, h⟩ := whenIdle_next h
  · exact .inl hr
  · cases h; exact .inr ⟨hb, rfl⟩

/-! ## The frame of the three commands -/

theorem execChecksum_frame (h : execChecksum m s = .next t) :
    t = { s with
          busy := t.busy, state := t.state, done := t.done, err := t.err, errcode := t.errcode, hostViol := t.hostViol
          txSum := t.txSum } ∧
    (s.busy = false → t.hostViol = s.hostViol) ∧ (t.errcode ≠ .none → t.txSum = s.txSum) := by
  obtain ⟨hb, rfl⟩ | ⟨-, -, rfl⟩ | ⟨-, -, bs, -, rfl⟩ := execChecksum_next h
  · exact ⟨rfl, by simp [hb], fun _ => rfl⟩
  · exact ⟨rfl, fun _ => rfl, fun _ => rfl⟩
  · exact ⟨rfl, fun _ => rfl, fun he => absurd rfl he⟩

theorem execVerify_frame (h : execVerify m s = .next t) :
    t = { s with
          busy := t.busy, state := t.state, done := t.done, err := t.err, errcode := t.errcode, hostViol := t.hostViol
          chkOk := t.chkOk, rplOff := t.rplOff, rplLen := t.rplLen, rxSum := t.rxSum, rxField := t.rxField } ∧
    (s.busy = false → t.hostViol = s.hostViol) := by
  obtain ⟨hb, rfl⟩ | ⟨-, d, -, ⟨-, rfl⟩ | ⟨v, -, ⟨-, rfl⟩ | ⟨-, rfl⟩⟩⟩ := execVerify_next h
  · exact ⟨rfl, by simp [hb]⟩
  all_goals exact ⟨by apply State.ext <;> simp, by simp⟩

theorem execClear_frame (h : execClear m s = .next t) :
    t = { s with
          done := t.done, err := t.err, errcode := t.errcode, hostViol := t.hostViol, ackSeen := t.ackSeen
          chkOk := t.chkOk, rxComplete := t.rxComplete } := by
  obtain ⟨-, rfl⟩ | ⟨-, rfl⟩ := execClear_next h
  · rfl
  · rfl

theorem registerOnly_buffer
    (h : exec (.checksum m) s = .next t ∨ exec (.verify m) s = .next t ∨ exec (.clear m) s = .next t) (b : BufId) :
    buffer b t = buffer b s := by
  obtain h | h | h := h
  · rw [(execChecksum_frame (m := m) h).1]
    cases b <;> rfl
  · rw [(execVerify_frame (m := m) h).1]
    cases b <;> rfl
  · rw [execClear_frame (m := m) h]
    cases b <;> rfl

/-! ## The trailer of a frame -/

theorem encodeFrame_eq_append (p : Params) (m : Mode) (b0 : Byte) (bs : List Byte) :
    encodeFrame p m b0 bs = (b0 :: encodeBody p m bs) ++ trailer p (checksum bs) := rfl

theorem frameBytes_storeFrame {frame : List Byte} (sum : Byte) (s : State) (hf : frame.length ≤ 2 ^ 31) :
    frameBytes (storeFrame frame sum s) = some frame := by
  rw [frameBytes, storeFrame_txLen, lengthWord_toNat hf]
  exact Memory.readRange_writeRange s.txb 0 frame

section
variable {b0 : Byte} {bs : List Byte}

theorem encodeCommand_frameBytes (hcap : s.cfg.cap ≤ 2 ^ 31) (hb : s.busy = false)
    (hr : requestBytes s = some (b0, bs)) (h : encodeCommand m s = .next t) (hok : t.errcode = .none) :
    frameBytes t = some (encodeFrame s.cfg m b0 bs) := by
  obtain ⟨hb', -⟩ | ⟨-, -, rfl⟩ | ⟨-, -, c0, cs, hr', ⟨-, rfl⟩ | ⟨hf, rfl⟩⟩ := encodeCommand_next h
  · simp [hb] at hb'
  · cases hok
  · cases hok
  · cases hr.symm.trans hr'
    exact frameBytes_storeFrame (checksum bs) _ (hf.trans hcap)

theorem exec_sendrecvOf (m : Mode) (s : State) : exec (sendrecvOf m) s = startTransaction m s := by
  cases m
  · rfl
  · rfl

theorem startTransaction_frameBytes (hcap : s.cfg.cap ≤ 2 ^ 31) (hb : s.busy = false)
    (hr : requestBytes s = some (b0, bs)) (h : startTransaction m s = .next t) (hok : t.busy = true) :
    frameBytes t = some (encodeFrame s.cfg m b0 bs) := by
  obtain ⟨hb', -⟩ | ⟨-, -, rfl⟩ | ⟨-, -, c0, cs, hr', ⟨-, rfl⟩ | ⟨hf, rfl⟩⟩ := startTransaction_next h
  · simp [hb] at hb'
  · cases hok
  · cases hok
  · cases hr.symm.trans hr'
    exact frameBytes_storeFrame (checksum bs) _ (hf.trans hcap)

/-- Where TXB holds a frame, its last three bytes are the trailer. -/
theorem read_txb_trailer {p : Params} (h : frameBytes t = some (encodeFrame p m b0 bs)) {i : Nat} (hi : i < 3) :
    Memory.read t.txb (t.txLen.toNat - (3 - i)) = (trailer p (checksum bs))[i]? := by
  obtain ⟨hlen, hread⟩ := Memory.readRange_eq_some.mp h
  rw [encodeFrame_length] at hlen
  have hbyte := hread (t.txLen.toNat - (3 - i)) (by omega)
  rw [Nat.zero_add, encodeFrame_eq_append, List.getElem?_append_right (by simp only [List.length_cons]; omega)] at hbyte
  rw [hbyte]
  congr 1
  simp only [List.length_cons]
  omega

end
end

/-! ## The obligations -/

/-- Settles O22: one equation per outcome; with PLEN = 1 the payload is empty. -/
theorem checksumCommandResult : Obligations.ChecksumCommandResult := by
  unfold Obligations.ChecksumCommandResult
  intro m s hb
  refine ⟨execChecksum_badLength m hb, execChecksum_unwritten m hb, fun hl bs => execChecksum_payload m hb hl,
    fun h1 hcap => ?_⟩
  have hl : goodLength s := by simpa [goodLength, h1] using hcap
  exact execChecksum_payload m hb hl (payloadBytes_of_plen_one h1)

/-- Settles O23: one equation per outcome; the completion overwrites what the command's start cleared. -/
theorem verifyCommandResult : Obligations.VerifyCommandResult := by
  unfold Obligations.VerifyCommandResult
  intro m s hb
  refine ⟨execVerify_unwritten m hb, fun d hd => ⟨execVerify_noView m hb hd, fun v hv =>
    ⟨execVerify_mismatch m hb hd hv, fun hm => ?_⟩⟩⟩
  refine (execVerify_match m hb hd hv hm).trans ?_
  rw [showSums, hm]
  rfl

/-- Settles O25: the outcomes of each command, none of which writes a buffer. -/
theorem registerOnlyCommandsFrame : Obligations.RegisterOnlyCommandsFrame := by
  unfold Obligations.RegisterOnlyCommandsFrame
  intro m s t
  refine ⟨execChecksum_frame (m := m), execVerify_frame (m := m), execClear_frame (m := m), fun hb h => ?_, fun h b a => ?_⟩
  · rw [exec_busy _ hb, exec_busy _ hb, exec_busy _ hb, or_self, or_self] at h
    cases h
    rfl
  · rw [registerOnly_buffer h]

/-- Settles O52: both commands leave the encoded frame in TXB, and a frame ends with its trailer. -/
theorem encodedFrameTrailer : Obligations.EncodedFrameTrailer := by
  unfold Obligations.EncodedFrameTrailer
  intro m s t b0 bs hp hb _ hr h
  obtain ⟨⟨-, hcap⟩, -⟩ := (params_wf_iff _).mp hp
  have hf : frameBytes t = some (encodeFrame s.cfg m b0 bs) := by
    rw [exec_encodeOf, exec_sendrecvOf] at h
    obtain ⟨h, hok⟩ | ⟨h, hok⟩ := h
    · exact encodeCommand_frameBytes hcap hb hr h hok
    · exact startTransaction_frameBytes hcap hb hr h hok
  refine ⟨?_, read_txb_trailer hf (i := 0) (by decide), read_txb_trailer hf (i := 1) (by decide),
    read_txb_trailer hf (i := 2) (by decide)⟩
  rw [← Memory.readRange_length hf, encodeFrame_length]
  omega

end Sys2Proof.Machine
end

section
/-! PROOFS, 42_transport.md (1): the start of SENDRECV (R173) and the SEND, RECV, CHECK and DECODE steps (R179 to R187), one
equation per outcome. -/

namespace Sys2Proof.Machine

section
variable {s t : State}

/-! ## The start of SENDRECV -/

section
variable {m : Mode} {b0 : Byte} {bs : List Byte}

theorem startTransaction_badLength (m : Mode) (hb : s.busy = false) (hl : ¬goodLength s) :
    startTransaction m s = .next (failTransaction .badLength (beginTransaction m s)) := by
  rw [startTransaction, whenIdle_idle hb]
  exact withRequest_bad (s := beginTransaction m s) (lengthOk_of_not_goodLength hl)

theorem startTransaction_unwritten (m : Mode) (hb : s.busy = false) (hl : goodLength s) (hr : requestBytes s = none) :
    startTransaction m s = .fault .uninit := by
  rw [startTransaction, whenIdle_idle hb]
  exact withRequest_unwritten (s := beginTransaction m s) (lengthOk_of_goodLength hl) hr

theorem startTransaction_request (hb : s.busy = false) (hl : goodLength s) (hr : requestBytes s = some (b0, bs)) :
    startTransaction m s =
      encodeInto m b0 bs (beginTransaction m s) (.next (failTransaction .txOverflow (beginTransaction m s))) fun t =>
        .next (enterSend t) := by
  rw [startTransaction, whenIdle_idle hb]
  exact withRequest_ok (s := beginTransaction m s) (lengthOk_of_goodLength hl) hr

theorem startTransaction_overflow (hb : s.busy = false) (hl : goodLength s) (hr : requestBytes s = some (b0, bs))
    (hf : s.cfg.cap < (encodeFrame s.cfg m b0 bs).length) :
    startTransaction m s = .next (failTransaction .txOverflow (beginTransaction m s)) := by
  rw [startTransaction_request hb hl hr]
  exact if_pos hf

theorem startTransaction_enters (hb : s.busy = false) (hl : goodLength s) (hr : requestBytes s = some (b0, bs))
    (hf : (encodeFrame s.cfg m b0 bs).length ≤ s.cfg.cap) :
    startTransaction m s =
      .next (enterSend (storeFrame (encodeFrame s.cfg m b0 bs) (checksum bs) (beginTransaction m s))) := by
  rw [startTransaction_request hb hl hr]
  exact if_neg (Nat.not_lt_of_le hf)

end

/-! ## The step of each state -/

theorem fctStep_send (o : TxOutcome) (h : s.state = .send) : fctStep o s = sendStep o s := by simp [fctStep, h]

/-- The model's stutter (log 6): by 42_transport.md R170 the FCT has no step in RECV. -/
theorem fctStep_recv (o : TxOutcome) (h : s.state = .recv) : fctStep o s = .next s := by simp [fctStep, h]

theorem fctStep_check (o : TxOutcome) (h : s.state = .check) : fctStep o s = checkStep s := by simp [fctStep, h]

theorem fctStep_decode (o : TxOutcome) (h : s.state = .decode) : fctStep o s = decodeStep s := by simp [fctStep, h]

theorem linkEvent_rx (c0 : Byte) (c : List Byte) (h : s.state = .recv) : linkEvent (.rx c0 c) s = recvChunk c0 c s :=
  if_pos h

theorem linkEvent_rxTimeout (h : s.state = .recv) : linkEvent .rxTimeout s = recvTimeout s := if_pos h

theorem linkEvent_rxError (h : s.state = .recv) : linkEvent .rxError s = recvError s := if_pos h

/-! ## SEND -/

section
variable {f : List Byte}

/-- 42_transport.md R180. -/
theorem sendStep_txok (hf : frameBytes s = some f) :
    sendStep .txok s = .next (goTo .recv (linkSend f .txok (beginAttempt s))) := by
  rw [sendStep, hf]
  rfl

/-- 42_transport.md R181. -/
theorem sendStep_txerr (n : Nat) (hf : frameBytes s = some f) :
    sendStep (.txerr n) s = .next (failTransaction .txIoError (linkSend f (.txerr n) (beginAttempt s))) := by
  rw [sendStep, hf]
  rfl

end

/-! ## RECV -/

section
variable {c0 : Byte} {c : List Byte}

/-- The first byte of an attempt alone decides ACK_SEEN (42_transport.md R182). -/
theorem storeChunk_eq (s : State) (c0 : Byte) (c : List Byte) :
    storeChunk s.cfg c0 c s =
      { s with
        rxb := Memory.writeRange s.rxb s.rxLen.toNat (c0 :: c)
        rxLen := lengthWord (s.rxLen.toNat + (c0 :: c).length)
        ackSeen := if s.rxLen = 0 then decide (c0 = s.cfg.ackByte) else s.ackSeen } := by
  have h0 : s.rxLen.toNat = 0 ↔ s.rxLen = 0 := by simp [← BitVec.toNat_inj]
  simp only [storeChunk, h0, beq_eq_decide]

theorem recvChunk_overflow (h : s.cfg.cap < s.rxLen.toNat + (c0 :: c).length) :
    recvChunk c0 c s = .next (failTransaction .rxOverflow s) := if_pos h

theorem recvChunk_stores (h : s.rxLen.toNat + (c0 :: c).length ≤ s.cfg.cap) :
    recvChunk c0 c s = testTerminator (storeChunk s.cfg c0 c s) := if_neg (Nat.not_lt_of_le h)

/-- 42_transport.md R183. -/
theorem testTerminator_completes (h3 : 3 ≤ s.rxLen.toNat)
    (he : Memory.read s.rxb (s.rxLen.toNat - 3) = some s.cfg.endByte) : testTerminator s = .next (completeReceive s) := by
  simp [testTerminator, Nat.not_lt_of_le h3, he, withBytes]

theorem testTerminator_waits
    (h : s.rxLen.toNat < 3 ∨ ∃ b, Memory.read s.rxb (s.rxLen.toNat - 3) = some b ∧ b ≠ s.cfg.endByte) :
    testTerminator s = .next s := by
  unfold testTerminator
  split
  · rfl
  · obtain h3 | ⟨b, hr, hb⟩ := h
    · contradiction
    · simp [hr, withBytes, hb]

end

/-! ## DECODE -/

section
variable {w0 : Byte} {rest out : List Byte} {v : ReplyView}

theorem decodeStep_error {e : ErrCode} (hr : replyBytes s = some (w0 :: rest))
    (hd : decodeWire s.cfg s.xmode s.rleEn w0 rest = .error e) : decodeStep s = .next (failTransaction e s) := by
  simp [decodeStep, withBytes, hr, hd]

theorem decodeStep_views (hr : replyBytes s = some (w0 :: rest))
    (hd : decodeWire s.cfg s.xmode s.rleEn w0 rest = .ok out) :
    decodeStep s = viewReply out (storeDecoded out s) := by
  simp [decodeStep, withBytes, hr, hd]

theorem viewReply_badFrame (hv : view s.cfg out = none) : viewReply out s = .next (failTransaction .badFrame s) := by
  simp [viewReply, hv]

theorem viewReply_mismatch (hv : view s.cfg out = some v) (hen : s.verifyEn = true) (hm : v.field ≠ some v.sum) :
    viewReply out s = .next (failTransaction .checksumMismatch (showSums v s)) := by
  simp [viewReply, hv, hen, digitsMatch_false.mpr hm]

theorem viewReply_match (hv : view s.cfg out = some v) (hen : s.verifyEn = true) (hm : v.field = some v.sum) :
    viewReply out s = .next (finish .none (markMatch (showView v (showSums v s)))) := by
  simp [viewReply, hv, hen, digitsMatch_iff.mpr hm]

theorem viewReply_unverified (hv : view s.cfg out = some v) (hen : s.verifyEn = false) :
    viewReply out s = .next (finish .none (showView v (showSums v s))) := by
  simp [viewReply, hv, hen]

end
end

/-! ## The obligations -/

/-- Settles O26: one equation per outcome of the start. -/
theorem sendrecvStartResult : Obligations.SendrecvStartResult := by
  unfold Obligations.SendrecvStartResult
  intro m s hb
  rw [exec_sendrecvOf]
  exact ⟨startTransaction_badLength m hb, startTransaction_unwritten m hb, fun hl b0 bs hr =>
    ⟨startTransaction_overflow hb hl hr, startTransaction_enters hb hl hr⟩⟩

/-- Settles O27: the four outcomes of the start, of which only the last writes TXB. -/
theorem sendrecvStartFrame : Obligations.SendrecvStartFrame := by
  unfold Obligations.SendrecvStartFrame
  intro m s t h
  rw [exec_sendrecvOf] at h
  obtain ⟨hb, rfl⟩ | ⟨hb, -, rfl⟩ | ⟨hb, -, b0, bs, hr, ⟨-, rfl⟩ | ⟨-, rfl⟩⟩ := startTransaction_next h
  · exact ⟨rfl, fun _ => rfl, by simp [hb], by simp [hb], fun _ _ _ _ _ => rfl⟩
  · exact ⟨rfl, by simp [hb], fun _ => rfl, fun _ _ => ⟨rfl, rfl, rfl⟩, fun _ _ _ _ _ => rfl⟩
  · exact ⟨rfl, by simp [hb], fun _ => rfl, fun _ _ => ⟨rfl, rfl, rfl⟩, fun _ _ _ _ _ => rfl⟩
  · refine ⟨rfl, by simp [hb], fun _ => rfl, fun _ he => absurd rfl he, fun c0 cs a hr' ha => ?_⟩
    cases hr.symm.trans hr'
    exact Memory.read_writeRange_outside (.inr (by omega))

/-- Settles O28: one equation per answer of the Link. -/
theorem sendStepResult : Obligations.SendStepResult := by
  unfold Obligations.SendStepResult
  refine ⟨rfl, fun s f hs hf => ⟨?_, fun n => ?_⟩⟩
  · rw [fctStep_send _ hs, sendStep_txok hf]
    rfl
  · rw [fctStep_send _ hs, sendStep_txerr n hf]
    rfl

/-- Settles O29: overflow, or the chunk stored and then the terminator test; RX_LEN holds the sum, for CAP fits it. -/
theorem recvChunkResult : Obligations.RecvChunkResult := by
  unfold Obligations.RecvChunkResult
  intro s c0 c hp hs
  obtain ⟨⟨-, hcap⟩, -⟩ := (params_wf_iff _).mp hp
  have hlen (h : s.rxLen.toNat + (c0 :: c).length ≤ s.cfg.cap) :
      (storeChunk s.cfg c0 c s).rxLen.toNat = s.rxLen.toNat + (c0 :: c).length := lengthWord_toNat (h.trans hcap)
  dsimp only
  rw [linkEvent_rx c0 c hs]
  refine ⟨recvChunk_overflow, fun hn h3 he => ?_, fun hn h => ?_⟩
  · rw [recvChunk_stores hn, testTerminator_completes (hlen hn ▸ h3) (by rw [hlen hn]; exact he), storeChunk_eq]
    rfl
  · rw [recvChunk_stores hn, testTerminator_waits (by rw [hlen hn]; exact h), storeChunk_eq]
    rfl

/-- Settles O30: ACK_SEEN decides what RXTIMEOUT means. -/
theorem recvTimeoutAndErrorResult : Obligations.RecvTimeoutAndErrorResult := by
  unfold Obligations.RecvTimeoutAndErrorResult
  intro s hs
  rw [linkEvent_rxTimeout hs, linkEvent_rxError hs]
  exact ⟨fun ha => if_pos ha, fun ha => if_neg (Bool.eq_false_iff.mp ha), rfl⟩

/-- Settles O31, by `linkEvent_discarded`. -/
theorem receiveOutsideRecvIsDiscarded : Obligations.ReceiveOutsideRecvIsDiscarded := by
  unfold Obligations.ReceiveOutsideRecvIsDiscarded
  exact fun s e hs => linkEvent_discarded e hs

/-- Settles O32: the two branches of the CHECK step. -/
theorem checkStepRetriesOrFails : Obligations.CheckStepRetriesOrFails := by
  unfold Obligations.CheckStepRetriesOrFails
  intro s o hs
  rw [fctStep_check o hs]
  exact ⟨fun h => if_pos h, fun h => if_neg (Nat.not_lt_of_le h)⟩

/-- Settles O33: one equation per outcome of the decoder, the view and the comparison. -/
theorem decodeStepResult : Obligations.DecodeStepResult := by
  unfold Obligations.DecodeStepResult
  intro s o w0 rest hs hr
  rw [fctStep_decode o hs]
  refine ⟨fun e => decodeStep_error hr, fun out hd => ?_⟩
  dsimp only
  rw [decodeStep_views hr hd]
  exact ⟨viewReply_badFrame (s := storeDecoded out s), fun v hv =>
    ⟨viewReply_mismatch (s := storeDecoded out s) hv, viewReply_match (s := storeDecoded out s) hv,
      viewReply_unverified (s := storeDecoded out s) hv⟩⟩

end Sys2Proof.Machine
end

section
/-! PROOFS, 42_transport.md (2): what a step sends and what a transaction keeps: the host's part (R192), the Link's record
(R194), and the frame of every rewrite (R190). -/

namespace Sys2Proof.Machine

section
variable {s t : State}

/-! ## Results that never stop -/

theorem UninitOnlyIf.exists_next {r : Result} (h : UninitOnlyIf False r) : ∃ t, r = .next t := by
  cases r with
  | next t => exact ⟨t, rfl⟩
  | fault f => exact h.2.elim
  | refused q => exact h.elim

/-! ## The host while BUSY = 1 -/

/-- 42_transport.md R192. -/
theorem hostAccess_busy {a : HostAccess} (hb : s.busy = true) (h : hostAccess a s = .next t) :
    t = { s with hostViol := t.hostViol, readData := t.readData, draws := t.draws } := by
  cases a with
  | regRead off => cases h; rfl
  | regWrite off v =>
    obtain rfl | ⟨-, rfl⟩ | ⟨hb', -⟩ | ⟨hb', -⟩ | ⟨-, h⟩ := regWrite_next h
    · rfl
    · rfl
    · simp [hb] at hb'
    · simp [hb] at hb'
    · rw [cmdWrite_busy v hb] at h; cases h; rfl
  | bufRead id i =>
    obtain ⟨v, rfl⟩ | ⟨-, -, rfl⟩ := bufRead_next h
    · rfl
    · rfl
  | bufWrite id i b =>
    rw [hostAccess, bufWrite_refused b (.inl hb)] at h
    cases h; rfl

/-! ## Commands and host accesses send nothing -/

theorem exec_txLog {i : Instr} (h : exec i s = .next t) : t.txLog = s.txLog := by
  cases i with
  | encodeT => rw [(encodeCommandFrame .text s t h).1]
  | encodeB => rw [(encodeCommandFrame .binary s t h).1]
  | decodeT => rw [(decodeCommandFrame .text s t h).1]
  | decodeB => rw [(decodeCommandFrame .binary s t h).1]
  | checksum m => rw [(execChecksum_frame (m := m) h).1]
  | verify m => rw [(execVerify_frame (m := m) h).1]
  | sendrecvT => rw [(sendrecvStartFrame .text s t h).1]
  | sendrecvB => rw [(sendrecvStartFrame .binary s t h).1]
  | clear m => rw [execClear_frame (m := m) h]

theorem cmdWrite_txLog {w : Word} (h : cmdWrite w s = .next t) : t.txLog = s.txLog := by
  obtain ⟨-, rfl⟩ | ⟨-, ⟨i, -, h⟩ | ⟨r, -, rfl⟩⟩ := cmdWrite_next h
  · rfl
  · exact exec_txLog h
  · rfl

theorem hostAccess_txLog {a : HostAccess} (h : hostAccess a s = .next t) : t.txLog = s.txLog := by
  by_cases ha : ∀ w, a ≠ .regWrite 0x04 w
  · rw [hostAccess_frame ha h]
  · obtain ⟨w, rfl⟩ : ∃ w, a = .regWrite 0x04 w := by simpa using ha
    exact cmdWrite_txLog h

/-! ## What a step sends -/

/-- `t` follows `s` with `es` sent: TXB and TX_LEN stay, the Link's record has grown by `es`, and ATTEMPTS counts them. -/
structure Sends (es : List (List Byte × TxOutcome)) (s t : State) : Prop where
  txb : t.txb = s.txb
  txLen : t.txLen = s.txLen
  txLog : t.txLog = s.txLog ++ es
  attempts : t.attempts = s.attempts + lengthWord es.length

/-- What the event may send in `s`: nothing, or, in a SEND step, the frame in TXB with the Link's answer. -/
def MaySend (e : Event) (s : State) (es : List (List Byte × TxOutcome)) : Prop :=
  es = [] ∨ ∃ o f, e = .fct o ∧ s.state = .send ∧ frameBytes s = some f ∧ es = [(f, o)]

theorem Sends.frameBytes {es : List (List Byte × TxOutcome)} (h : Sends es s t) : frameBytes t = frameBytes s := by
  rw [Machine.frameBytes, h.txb, h.txLen, Machine.frameBytes]

theorem sends_nil (htxb : t.txb = s.txb := by rfl) (htxLen : t.txLen = s.txLen := by rfl)
    (htxLog : t.txLog = s.txLog := by rfl) (hattempts : t.attempts = s.attempts := by rfl) : Sends [] s t :=
  ⟨htxb, htxLen, by simp [htxLog], by simp [hattempts, lengthWord]⟩

theorem sendStep_sends {o : TxOutcome} (h : sendStep o s = .next t) :
    ∃ f, frameBytes s = some f ∧ Sends [(f, o)] s t := by
  obtain ⟨f, hf, ⟨-, rfl⟩ | ⟨n, -, rfl⟩⟩ := sendStep_next h
  · exact ⟨f, hf, rfl, rfl, rfl, rfl⟩
  · exact ⟨f, hf, rfl, rfl, rfl, rfl⟩

theorem checkStep_sends (h : checkStep s = .next t) : Sends [] s t := by
  obtain ⟨-, rfl⟩ | ⟨-, rfl⟩ := checkStep_next h
  · exact sends_nil
  · exact sends_nil

theorem decodeStep_sends (h : decodeStep s = .next t) : Sends [] s t := by
  obtain ⟨w0, rest, -, ⟨e, -, rfl⟩ | ⟨out, -, ⟨-, rfl⟩ | ⟨v, -, ⟨-, -, rfl⟩ | ⟨-, -, rfl⟩ | ⟨-, rfl⟩⟩⟩⟩ := decodeStep_next h
  all_goals exact sends_nil

theorem recvChunk_sends {c0 : Byte} {c : List Byte} (h : recvChunk c0 c s = .next t) : Sends [] s t := by
  obtain ⟨-, rfl⟩ | ⟨-, ⟨-, -, rfl⟩ | ⟨-, rfl⟩⟩ := recvChunk_next h
  all_goals exact sends_nil

theorem linkEvent_sends {e : RxEvent} (h : linkEvent e s = .next t) : Sends [] s t := by
  obtain ⟨-, rfl⟩ | ⟨-, ⟨c0, c, -, h⟩ | ⟨-, -, rfl⟩ | ⟨-, -, rfl⟩ | ⟨-, rfl⟩⟩ := linkEvent_next h
  case inr.inl => exact recvChunk_sends h
  all_goals exact sends_nil

theorem fctStep_sends {o : TxOutcome} (h : fctStep o s = .next t) : ∃ es, MaySend (.fct o) s es ∧ Sends es s t := by
  obtain ⟨-, rfl⟩ | ⟨hs, h⟩ | ⟨-, h⟩ | ⟨-, h⟩ := fctStep_next h
  · exact ⟨[], .inl rfl, sends_nil⟩
  · obtain ⟨f, hf, hsend⟩ := sendStep_sends h
    exact ⟨[(f, o)], .inr ⟨o, f, rfl, hs, hf, rfl⟩, hsend⟩
  · exact ⟨[], .inl rfl, checkStep_sends h⟩
  · exact ⟨[], .inl rfl, decodeStep_sends h⟩

theorem runEvent_txLog {e : Event} (h : runEvent e s = .next t) : ∃ es, MaySend e s es ∧ t.txLog = s.txLog ++ es := by
  cases e with
  | host a => exact ⟨[], .inl rfl, by rw [hostAccess_txLog h, List.append_nil]⟩
  | fct o =>
    obtain ⟨es, hes, hsend⟩ := fctStep_sends h
    exact ⟨es, hes, hsend.txLog⟩
  | link r => exact ⟨[], .inl rfl, (linkEvent_sends h).txLog⟩
  | reset => cases h; exact ⟨[], .inl rfl, (List.append_nil _).symm⟩

/-- While BUSY = 1 no event but RESET touches the frame, and every one is counted by what it sends. -/
theorem runEvent_sends {e : Event} (hb : s.busy = true) (he : e ≠ .reset) (h : runEvent e s = .next t) :
    ∃ es, MaySend e s es ∧ Sends es s t := by
  cases e with
  | host a => exact ⟨[], .inl rfl, hostAccess_busy hb h ▸ sends_nil⟩
  | fct o => exact fctStep_sends h
  | link r => exact ⟨[], .inl rfl, linkEvent_sends h⟩
  | reset => exact absurd rfl he

/-! ## The same over a step -/

theorem step_eq_runEvent (s : State) : step s = runEvent (nextEvent s) (takeEvent s).2 := rfl

@[simp] theorem takeEvent_state (s : State) : (takeEvent s).2.state = s.state := by rw [takeEvent_snd]
@[simp] theorem takeEvent_txb (s : State) : (takeEvent s).2.txb = s.txb := by rw [takeEvent_snd]
@[simp] theorem takeEvent_txLen (s : State) : (takeEvent s).2.txLen = s.txLen := by rw [takeEvent_snd]
@[simp] theorem takeEvent_txLog (s : State) : (takeEvent s).2.txLog = s.txLog := by rw [takeEvent_snd]
@[simp] theorem takeEvent_attempts (s : State) : (takeEvent s).2.attempts = s.attempts := by rw [takeEvent_snd]
@[simp] theorem takeEvent_rxLen (s : State) : (takeEvent s).2.rxLen = s.rxLen := by rw [takeEvent_snd]
@[simp] theorem takeEvent_ackSeen (s : State) : (takeEvent s).2.ackSeen = s.ackSeen := by rw [takeEvent_snd]

@[simp] theorem takeEvent_frameBytes (s : State) : frameBytes (takeEvent s).2 = frameBytes s := by
  simp [frameBytes]

@[simp] theorem maySend_takeEvent {e : Event} {es : List (List Byte × TxOutcome)} :
    MaySend e (takeEvent s).2 es ↔ MaySend e s es := by
  simp [MaySend]

theorem step_sends (hb : s.busy = true) (he : nextEvent s ≠ .reset) (h : step s = .next t) :
    ∃ es, MaySend (nextEvent s) s es ∧ Sends es s t := by
  obtain ⟨es, hes, htxb, htxLen, htxLog, hattempts⟩ := runEvent_sends (by simpa using hb) he h
  exact ⟨es, maySend_takeEvent.mp hes, by simpa using htxb, by simpa using htxLen, by simpa using htxLog,
    by simpa using hattempts⟩

/-! ## The run of a transaction -/

/-- Since `s` the transaction has sent nothing but `f`, once for each of its attempts, and `f` is still the frame in TXB. -/
structure SentOnly (f : List Byte) (s u : State) : Prop where
  inv : Inv u
  cfg : u.cfg = s.cfg
  frame : frameBytes u = some f
  log : ∃ os : List TxOutcome, u.txLog = s.txLog ++ os.map (fun o => (f, o)) ∧ os.length = u.attempts.toNat

theorem SentOnly.start {f : List Byte} (h : Inv s) (ha : s.attempts = 0) (hf : frameBytes s = some f) : SentOnly f s s :=
  ⟨h, rfl, hf, [], by simp, by simp [ha]⟩

/-- One more attempt is counted exactly: under the invariant ATTEMPTS is below its bound in SEND. -/
theorem SentOnly.step {f : List Byte} {u : State} (h : SentOnly f s t) (hb : t.busy = true) (he : nextEvent t ≠ .reset)
    (hn : step t = .next u) : SentOnly f s u := by
  obtain ⟨inv, cfg, frame, os, hlog, hlen⟩ := h
  obtain ⟨es, hes, hsend⟩ := step_sends hb he hn
  refine ⟨stepKeepsInvariant t u inv hn, (step_cfg hn).trans cfg, hsend.frameBytes.trans frame, ?_⟩
  obtain rfl | ⟨o, f', -, hs, hf', rfl⟩ := hes
  · exact ⟨os, by simp [hsend.txLog, hlog], by simp [hsend.attempts, lengthWord, hlen]⟩
  · cases frame.symm.trans hf'
    refine ⟨os ++ [o], by simp [hsend.txLog, hlog], ?_⟩
    have hleft := inv.sendLeft hs
    have hmax := inv.maxAttempts_lt
    rw [hsend.attempts, List.length_append, hlen]
    simp only [List.length_singleton, lengthWord]
    bv_omega

theorem TransactionRun.sentOnly {f : List Byte} {u : State} (hrun : TransactionRun s u) (h : SentOnly f s s) :
    SentOnly f s u := by
  induction hrun with
  | refl => exact h
  | step _ hb he hn ih => exact ih.step hb he hn

end

/-! ## The obligations -/

/-- Settles O36: along the run the frame stays in TXB, and each SEND step adds one entry and one attempt. -/
theorem rewritesSendTheSameFrame : Obligations.RewritesSendTheSameFrame := by
  unfold Obligations.RewritesSendTheSameFrame
  refine ⟨fun m s t h => exec_txLog h, fun s u h _ ha hrun => ?_⟩
  obtain ⟨f, hf⟩ := Option.ne_none_iff_exists'.mp (readRange_ne_none h.txWritten)
  obtain ⟨inv, cfg, -, os, hlog, hlen⟩ := hrun.sentOnly (.start h ha hf)
  exact ⟨f, os, hf, hlog, hlen, hlen ▸ cfg ▸ inv.attemptsLe⟩

/-- Settles O39: the refusal and the reads are all the host can do; the steps of the FCT never stop under the invariant. -/
theorem hostCannotEndTransaction : Obligations.HostCannotEndTransaction := by
  unfold Obligations.HostCannotEndTransaction
  exact ⟨fun s t a => hostAccess_busy, fun s o h _ => (fctStep_uninit h o).exists_next, fun s o => fctStep_recv o⟩

/-- Settles O40, by what each event may send. -/
theorem onlySendTransmits : Obligations.OnlySendTransmits := by
  unfold Obligations.OnlySendTransmits
  intro s t h
  refine ⟨?_, fun he => ?_⟩
  · obtain ⟨es, hes, hlog⟩ := runEvent_txLog h
    rw [takeEvent_txLog] at hlog
    obtain rfl | ⟨o, f, he, hs, hf, rfl⟩ := maySend_takeEvent.mp hes
    · exact .inl (by simpa using hlog)
    · exact .inr ⟨o, f, he, hs, hf, hlog⟩
  · have hsend : ∃ es, Sends es (takeEvent s).2 t := by
      obtain ⟨o, he⟩ | ⟨e, he⟩ := he
      · rw [step_eq_runEvent, he] at h
        exact (fctStep_sends h).imp fun _ => And.right
      · rw [step_eq_runEvent, he] at h
        exact ⟨[], linkEvent_sends h⟩
    obtain ⟨es, hsend⟩ := hsend
    exact ⟨by simpa using hsend.txb, by simpa using hsend.txLen⟩

end Sys2Proof.Machine
end

section
/-! PROOFS, 42_transport.md (3): the work a transaction has left (R191 to R193), and the bound of the receive phase (R191). -/

namespace Sys2Proof.Machine

section
variable {s t : State}

/-! ## The work left, state by state -/

/-- The part of `workLeft` for the attempts not yet made. -/
def attemptsWork (s : State) : Nat := (s.cfg.maxAttempts - s.attempts.toNat) * (s.cfg.cap + 4)

theorem workLeft_idle (h : s.state = .idle) : workLeft s = 0 := by simp [workLeft, h]

theorem workLeft_send (h : s.state = .send) : workLeft s = attemptsWork s := by simp [workLeft, attemptsWork, h]

theorem workLeft_recv (h : s.state = .recv) : workLeft s = attemptsWork s + (s.cfg.cap - s.rxLen.toNat) + 2 := by
  simp [workLeft, attemptsWork, h]

theorem workLeft_check (h : s.state = .check) : workLeft s = attemptsWork s + 1 := by
  simp [workLeft, attemptsWork, h]

theorem workLeft_decode (h : s.state = .decode) : workLeft s = 1 := by simp [workLeft, h]

theorem attemptsWork_congr (hcfg : t.cfg = s.cfg) (ha : t.attempts = s.attempts) : attemptsWork t = attemptsWork s := by
  rw [attemptsWork, attemptsWork, hcfg, ha]

/-- An attempt counts `CAP + 4`, more than its SEND step, a RECV that fills RXB byte by byte, and its CHECK step. -/
theorem attemptsWork_of_attempt (h : Inv s) (hs : s.state = .send) (hcfg : t.cfg = s.cfg)
    (ha : t.attempts = s.attempts + 1) : attemptsWork s = attemptsWork t + s.cfg.cap + 4 := by
  have hleft := h.sendLeft hs
  have hmax := h.maxAttempts_lt
  have hcount : (s.attempts + 1).toNat = s.attempts.toNat + 1 := by bv_omega
  rw [attemptsWork, attemptsWork, hcfg, ha, hcount,
    show s.cfg.maxAttempts - s.attempts.toNat = s.cfg.maxAttempts - (s.attempts.toNat + 1) + 1 by omega, Nat.succ_mul,
    Nat.add_assoc]

/-- In SEND an attempt is left by the invariant; in every other state of a transaction its own step is. -/
theorem workLeft_pos (h : Inv s) (hs : s.state ≠ .idle) : 0 < workLeft s := by
  cases hst : s.state with
  | idle => exact absurd hst hs
  | send =>
    have hleft := h.sendLeft hst
    rw [workLeft_send hst]
    exact Nat.mul_pos (by omega) (by omega)
  | recv => rw [workLeft_recv hst]; omega
  | check => rw [workLeft_check hst]; omega
  | decode => rw [workLeft_decode hst]; omega

theorem workLeft_lt_of_idle (h : Inv s) (hs : s.state ≠ .idle) (ht : t.state = .idle) : workLeft t < workLeft s := by
  rw [workLeft_idle ht]
  exact workLeft_pos h hs

/-! ## The steps that move a transaction on -/

theorem sendStep_workLeft {o : TxOutcome} (h : Inv s) (hs : s.state = .send) (hn : sendStep o s = .next t) :
    workLeft t < workLeft s := by
  obtain ⟨f, -, ⟨-, rfl⟩ | ⟨n, -, rfl⟩⟩ := sendStep_next hn
  · rw [workLeft_send hs, attemptsWork_of_attempt h hs (t := goTo .recv (linkSend f o (beginAttempt s))) rfl rfl,
      workLeft_recv rfl]
    simp
  · exact workLeft_lt_of_idle h (by simp [hs]) rfl

theorem checkStep_workLeft (h : Inv s) (hs : s.state = .check) (hn : checkStep s = .next t) : workLeft t < workLeft s := by
  obtain ⟨-, rfl⟩ | ⟨-, rfl⟩ := checkStep_next hn
  · rw [workLeft_check hs, workLeft_send rfl]
    exact Nat.lt_succ_self _
  · exact workLeft_lt_of_idle h (by simp [hs]) rfl

theorem decodeStep_idle (hn : decodeStep s = .next t) : t.state = .idle := by
  obtain ⟨w0, rest, -, ⟨e, -, rfl⟩ | ⟨out, -, ⟨-, rfl⟩ | ⟨v, -, ⟨-, -, rfl⟩ | ⟨-, -, rfl⟩ | ⟨-, rfl⟩⟩⟩⟩ := decodeStep_next hn
  all_goals rfl

/-- A receive event leaves RECV or makes RX_LEN grow. -/
theorem linkEvent_progress {e : RxEvent} (h : Inv s) (hs : s.state = .recv) (hn : linkEvent e s = .next t) :
    t.state = .idle ∨ t.state = .decode ∨ t.state = .check ∨ t.state = .recv ∧ s.rxLen.toNat < t.rxLen.toNat := by
  obtain ⟨hs', -⟩ | ⟨-, ⟨c0, c, -, hn⟩ | ⟨-, -, rfl⟩ | ⟨-, -, rfl⟩ | ⟨-, rfl⟩⟩ := linkEvent_next hn
  · exact absurd hs hs'
  · obtain ⟨-, rfl⟩ | ⟨hfit, ⟨-, -, rfl⟩ | ⟨-, rfl⟩⟩ := recvChunk_next hn
    · exact .inl rfl
    · cases ha : (storeChunk s.cfg c0 c s).ackSeen with
      | true => exact .inr (.inl (if_pos ha))
      | false => exact .inr (.inr (.inl (if_neg (Bool.eq_false_iff.mp ha))))
    · refine .inr (.inr (.inr ⟨hs, ?_⟩))
      rw [storeChunk_rxLen, h.lengthWord_toNat hfit, List.length_cons]
      omega
  · exact .inl rfl
  · exact .inr (.inr (.inl rfl))
  · exact .inl rfl

theorem linkEvent_workLeft {e : RxEvent} (h : Inv s) (hs : s.state = .recv) (hn : linkEvent e s = .next t) :
    workLeft t < workLeft s := by
  have hcfg : t.cfg = s.cfg := (linkEvent_hostSide hn).cfg
  have hwork : attemptsWork t = attemptsWork s :=
    attemptsWork_congr hcfg (by simpa [lengthWord] using (linkEvent_sends hn).attempts)
  rw [workLeft_recv hs]
  obtain ht | ht | ht | ⟨ht, hgrows⟩ := linkEvent_progress h hs hn
  · rw [workLeft_idle ht]; omega
  · rw [workLeft_decode ht]; omega
  · rw [workLeft_check ht]; omega
  · have hle := (h.after_linkEvent hn).rxLenLe
    rw [workLeft_recv ht]
    rw [hcfg] at hle ⊢
    omega

theorem fctStep_workLeft {o : TxOutcome} (h : Inv s) (hs : s.state = .send ∨ s.state = .check ∨ s.state = .decode)
    (hn : fctStep o s = .next t) : workLeft t < workLeft s := by
  obtain hs | hs | hs := hs
  · exact sendStep_workLeft h hs (fctStep_send o hs ▸ hn)
  · exact checkStep_workLeft h hs (fctStep_check o hs ▸ hn)
  · exact workLeft_lt_of_idle h (by simp [hs]) (decodeStep_idle (fctStep_decode o hs ▸ hn))

/-! ## Which events move a transaction on -/

theorem movesOn_fct (o : TxOutcome) (s : State) :
    movesOn (.fct o) s = true ↔ s.state = .send ∨ s.state = .check ∨ s.state = .decode := by
  cases h : s.state <;> simp [movesOn, h]

theorem movesOn_link (e : RxEvent) (s : State) : movesOn (.link e) s = true ↔ s.state = .recv := by
  cases h : s.state <;> simp [movesOn, h]

theorem runEvent_movesOn {e : Event} (h : Inv s) (hm : movesOn e s = true) :
    ∃ t, runEvent e s = .next t ∧ workLeft t < workLeft s := by
  cases e with
  | host a => cases hm
  | fct o =>
    obtain ⟨t, hn⟩ := (fctStep_uninit h o).exists_next
    exact ⟨t, hn, fctStep_workLeft h ((movesOn_fct o s).mp hm) hn⟩
  | link r =>
    obtain ⟨t, hn⟩ := (linkEvent_uninit h r).exists_next
    exact ⟨t, hn, linkEvent_workLeft h ((movesOn_link r s).mp hm) hn⟩
  | reset => cases hm

theorem runEvent_workLeft_eq {e : Event} (hb : s.busy = true) (hm : movesOn e s = false) (he : e ≠ .reset)
    (hn : runEvent e s = .next t) : workLeft t = workLeft s := by
  cases e with
  | host a => rw [hostAccess_busy hb hn]; rfl
  | fct o =>
    rw [← Bool.not_eq_true, movesOn_fct] at hm
    obtain ⟨-, rfl⟩ | ⟨hs, -⟩ | ⟨hs, -⟩ | ⟨hs, -⟩ := fctStep_next hn
    · rfl
    all_goals simp [hs] at hm
  | link r =>
    rw [← Bool.not_eq_true, movesOn_link] at hm
    cases (linkEvent_discarded r hm).symm.trans hn
    rfl
  | reset => exact absurd rfl he

/-! ## The receive phase -/

theorem receiveAll_left (es : List RxEvent) (hs : s.state ≠ .recv) : receiveAll es s = .next s := by
  cases es with
  | nil => rfl
  | cons e es => exact if_neg hs

theorem receiveAll_cons {e : RxEvent} (es : List RxEvent) (hs : s.state = .recv) (hn : linkEvent e s = .next t) :
    receiveAll (e :: es) s = receiveAll es t := by
  simp [receiveAll, hs, hn]

/-- Each event that does not end RECV stores a byte or more, and RX_LEN never passes CAP. -/
theorem receiveAll_ends {es : List RxEvent} (h : Inv s) (hs : s.state = .recv)
    (hlen : s.cfg.cap < s.rxLen.toNat + es.length) : ∃ t, receiveAll es s = .next t ∧ t.state ≠ .recv := by
  induction es generalizing s with
  | nil =>
    have hle := h.rxLenLe
    rw [List.length_nil] at hlen
    omega
  | cons e es ih =>
    obtain ⟨t, hn⟩ := (linkEvent_uninit h e).exists_next
    rw [receiveAll_cons es hs hn]
    by_cases ht : t.state = .recv
    · refine ih (h.after_linkEvent hn) ht ?_
      have hgrows : s.rxLen.toNat < t.rxLen.toNat := by simpa [ht] using linkEvent_progress h hs hn
      rw [List.length_cons] at hlen
      rw [(linkEvent_hostSide hn).cfg]
      omega
    · exact ⟨t, receiveAll_left es ht, ht⟩

end

/-! ## The obligations -/

/-- Settles O37: the measure falls with every step that moves on, stays with every other, and is positive while BUSY = 1. -/
theorem transactionMakesProgress : Obligations.TransactionMakesProgress := by
  unfold Obligations.TransactionMakesProgress
  exact ⟨fun s e => runEvent_movesOn, fun s t e _ => runEvent_workLeft_eq, fun s h hb =>
    workLeft_pos h (h.busyIff.mp hb)⟩

/-- Settles O38, from RX_LEN of 0 or more. -/
theorem receivePhaseIsBounded : Obligations.ReceivePhaseIsBounded := by
  unfold Obligations.ReceivePhaseIsBounded
  exact fun s es h hs hlen => receiveAll_ends h hs (by omega)

end Sys2Proof.Machine
end

section
/-! PROOFS, 42_transport.md (4): how a running transaction fails (R189), and the table of the transport's transitions
(R171). -/

namespace Sys2Proof.Machine

section
variable {s t : State}

/-! ## The steps that end a transaction with an error -/

/-- Where `raise c` can find the machine when a transaction that runs in `s` fails (42_transport.md R189): the state itself,
the attempt a SEND step has begun, or the reply as far as a DECODE step has written it. -/
inductive RaisedFrom (s : State) : ErrCode → State → Prop
  | same (c : ErrCode) : RaisedFrom s c s
  | send (c : ErrCode) (f : List Byte) (o : TxOutcome) :
      s.state = .send → RaisedFrom s c (linkSend f o (beginAttempt s))
  | badFrame (out : List Byte) : s.state = .decode → RaisedFrom s .badFrame (storeDecoded out s)
  | mismatch (out : List Byte) (v : ReplyView) :
      s.state = .decode → RaisedFrom s .checksumMismatch (showSums v (storeDecoded out s))

/-- `t` is what `raise c` makes of a transaction that runs in `s`. -/
def Fails (s t : State) : Prop := ∃ c u, RaisedFrom s c u ∧ t = failTransaction c u

theorem fails_same (c : ErrCode) (s : State) : Fails s (failTransaction c s) := ⟨c, s, .same c, rfl⟩

theorem fctStep_fails {o : TxOutcome} (hb : s.busy = true) (hn : fctStep o s = .next t) (ht : t.busy = false)
    (he : t.errcode ≠ .none) : Fails s t := by
  obtain ⟨-, rfl⟩ | ⟨hs, hn⟩ | ⟨-, hn⟩ | ⟨hs, hn⟩ := fctStep_next hn
  · simp [hb] at ht
  · obtain ⟨f, -, ⟨-, rfl⟩ | ⟨n, -, rfl⟩⟩ := sendStep_next hn
    · simp [hb] at ht
    · exact ⟨_, _, .send _ f o hs, rfl⟩
  · obtain ⟨-, rfl⟩ | ⟨-, rfl⟩ := checkStep_next hn
    · simp [hb] at ht
    · exact fails_same _ s
  · obtain ⟨w0, rest, -, ⟨e, -, rfl⟩ | ⟨out, -, ⟨-, rfl⟩ | ⟨v, -, ⟨-, -, rfl⟩ | ⟨-, -, rfl⟩ | ⟨-, rfl⟩⟩⟩⟩ :=
      decodeStep_next hn
    · exact fails_same e s
    · exact ⟨_, _, .badFrame out hs, rfl⟩
    · exact absurd rfl he
    · exact ⟨_, _, .mismatch out v hs, rfl⟩
    · exact absurd rfl he

theorem linkEvent_fails {e : RxEvent} (hb : s.busy = true) (hn : linkEvent e s = .next t) (ht : t.busy = false) :
    Fails s t := by
  obtain ⟨-, rfl⟩ | ⟨-, ⟨c0, c, -, hn⟩ | ⟨-, -, rfl⟩ | ⟨-, -, rfl⟩ | ⟨-, rfl⟩⟩ := linkEvent_next hn
  · simp [hb] at ht
  · obtain ⟨-, rfl⟩ | ⟨-, ⟨-, -, rfl⟩ | ⟨-, rfl⟩⟩ := recvChunk_next hn
    · exact fails_same _ s
    · simp [hb] at ht
    · simp [hb] at ht
  · exact fails_same _ s
  · simp [hb] at ht
  · exact fails_same _ s

theorem runEvent_fails {e : Event} (hb : s.busy = true) (hr : e ≠ .reset) (hn : runEvent e s = .next t)
    (ht : t.busy = false) (he : t.errcode ≠ .none) : Fails s t := by
  cases e with
  | host a =>
    rw [hostAccess_busy hb hn] at ht
    exact absurd ht (by simp [hb])
  | fct o => exact fctStep_fails hb hn ht he
  | link r => exact linkEvent_fails hb hn ht
  | reset => exact absurd rfl hr

theorem step_fails (hb : s.busy = true) (hr : nextEvent s ≠ .reset) (hn : step s = .next t) (ht : t.busy = false)
    (he : t.errcode ≠ .none) : Fails (takeEvent s).2 t :=
  runEvent_fails (by simpa using hb) hr hn ht he

/-- A write of a range erases nothing. -/
theorem Memory.isSome_read_writeRange {m : Memory} {a : Nat} (i : Nat) (bs : List Byte) (h : (read m a).isSome = true) :
    (read (writeRange m i bs) a).isSome = true := by
  rw [read_writeRange]
  split
  · rw [List.getElem?_eq_getElem (by omega)]
    rfl
  · exact h

/-! ## The transitions, agent by agent -/

section
variable {m : Mode}

theorem encodeCommand_idle (hs : s.state = .idle) (hn : encodeCommand m s = .next t) : t.state = .idle := by
  obtain ⟨-, rfl⟩ | ⟨-, -, rfl⟩ | ⟨-, -, b0, bs, -, ⟨-, rfl⟩ | ⟨-, rfl⟩⟩ := encodeCommand_next hn
  · exact hs
  all_goals rfl

theorem decodeCommand_idle (hs : s.state = .idle) (hn : decodeCommand m s = .next t) : t.state = .idle := by
  obtain ⟨-, rfl⟩ | ⟨-, -, rfl⟩ | ⟨-, -, w0, rest, -, ⟨e, -, rfl⟩ | ⟨out, -, rfl⟩⟩ := decodeCommand_next hn
  · exact hs
  all_goals rfl

theorem execChecksum_idle (hs : s.state = .idle) (hn : execChecksum m s = .next t) : t.state = .idle := by
  obtain ⟨-, rfl⟩ | ⟨-, -, rfl⟩ | ⟨-, -, bs, -, rfl⟩ := execChecksum_next hn
  · exact hs
  all_goals rfl

theorem execVerify_idle (hs : s.state = .idle) (hn : execVerify m s = .next t) : t.state = .idle := by
  obtain ⟨-, rfl⟩ | ⟨-, d, -, ⟨-, rfl⟩ | ⟨v, -, ⟨-, rfl⟩ | ⟨-, rfl⟩⟩⟩ := execVerify_next hn
  · exact hs
  all_goals rfl

theorem startTransaction_phase (hs : s.state = .idle) (hn : startTransaction m s = .next t) :
    t.state = .idle ∨ t.state = .send ∧ t.busy = true := by
  obtain ⟨-, rfl⟩ | ⟨-, -, rfl⟩ | ⟨-, -, b0, bs, -, ⟨-, rfl⟩ | ⟨-, rfl⟩⟩ := startTransaction_next hn
  · exact .inl hs
  · exact .inl rfl
  · exact .inl rfl
  · exact .inr ⟨rfl, rfl⟩

end

/-- Of the commands only SENDRECV leaves IDLE (42_transport.md R171). -/
theorem exec_phase {i : Instr} (hs : s.state = .idle) (hn : exec i s = .next t) :
    t.state = .idle ∨ (t.state = .send ∧ t.busy = true) ∧ ∃ m, i = sendrecvOf m := by
  cases i with
  | encodeT => exact .inl (encodeCommand_idle hs hn)
  | encodeB => exact .inl (encodeCommand_idle hs hn)
  | decodeT => exact .inl (decodeCommand_idle hs hn)
  | decodeB => exact .inl (decodeCommand_idle hs hn)
  | checksum m => exact .inl (execChecksum_idle (m := m) hs hn)
  | verify m => exact .inl (execVerify_idle (m := m) hs hn)
  | sendrecvT => exact (startTransaction_phase hs hn).imp_right (⟨·, .text, rfl⟩)
  | sendrecvB => exact (startTransaction_phase hs hn).imp_right (⟨·, .binary, rfl⟩)
  | clear m => exact .inl ((congrArg State.state (execClear_frame (m := m) hn)).trans hs)

theorem hostAccess_transition {a : HostAccess} (h : Inv s) (hn : hostAccess a s = .next t) (hne : t.state ≠ s.state) :
    s.state = .idle ∧ t.state = .send ∧ t.busy = true ∧ ∃ m, a = .regWrite 0x04 (encode (sendrecvOf m)) := by
  by_cases ha : ∀ w, a ≠ .regWrite 0x04 w
  · exact absurd (congrArg State.state (hostAccess_frame ha hn)) hne
  obtain ⟨w, rfl⟩ : ∃ w, a = .regWrite 0x04 w := by simpa using ha
  obtain ⟨-, rfl⟩ | ⟨hb, hn⟩ := cmdWrite_next hn
  · exact absurd rfl hne
  have hs : s.state = .idle := h.state_idle hb
  obtain ⟨i, hi, hn⟩ | ⟨r, -, rfl⟩ := hn
  · obtain ht | ⟨⟨ht, htb⟩, m, rfl⟩ := exec_phase hs hn
    · exact absurd (ht.trans hs.symm) hne
    · exact ⟨hs, ht, htb, m, by rw [encode_of_decodeCmd hi]⟩
  · exact absurd hs.symm hne

/-- The codes a DECODE step can complete with (42_transport.md R171). -/
abbrev decodeCodes : List ErrCode :=
  [.none, .danglingEscape, .danglingRepeat, .badRepeatCount, .decodeOverflow, .badFrame, .checksumMismatch]

theorem fitsOr_error_mem {p : Params} {out : List Byte} {k : Except ErrCode (List Byte)} {e : ErrCode}
    (h : fitsOr p out k = .error e) (hk : k = .error e → e ∈ decodeCodes) : e ∈ decodeCodes := by
  unfold fitsOr at h
  split at h
  · cases h; decide
  · exact hk h

/-- The errors of `Decode` (40_codec.md R129): a dangling or bad unit, or DECODE_OVERFLOW after one that fits no more. -/
theorem decodeLoop_error_mem {p : Params} {m : Mode} {rle : Bool} {out w : List Byte} {prev : Byte} {e : ErrCode}
    (h : decodeLoop p m rle out prev w = .error e) : e ∈ decodeCodes := by
  fun_induction decodeLoop p m rle out prev w with
  | case1 => cases h
  | case2 => cases h; decide
  | case3 => cases h; decide
  | case4 => exact fitsOr_error_mem h nofun
  | case5 out prev c c2 rest _ ih => exact fitsOr_error_mem h ih
  | case6 => cases h; decide
  | case7 out prev c c2 rest _ _ _ ih => exact fitsOr_error_mem h ih
  | case8 out prev c c2 rest _ _ ih => exact fitsOr_error_mem h ih

theorem decodeStep_errcode (hn : decodeStep s = .next t) : t.errcode ∈ decodeCodes := by
  obtain ⟨w0, rest, -, ⟨e, he, rfl⟩ | ⟨out, -, ⟨-, rfl⟩ | ⟨v, -, ⟨-, -, rfl⟩ | ⟨-, -, rfl⟩ | ⟨-, rfl⟩⟩⟩⟩ :=
    decodeStep_next hn
  · exact decodeLoop_error_mem he
  all_goals simp

theorem fctStep_transition {o : TxOutcome} (h : Inv s) (hn : fctStep o s = .next t) (hne : t.state ≠ s.state) :
    (s.state = .send ∧ t.state = .recv ∧ o = .txok ∧ t.attempts = s.attempts + 1 ∧ t.rxLen = 0) ∨
    (s.state = .send ∧ t.state = .idle ∧ (∃ n, o = .txerr n) ∧ t.errcode = .txIoError) ∨
    (s.state = .check ∧ t.state = .send ∧ s.attempts.toNat < s.cfg.maxAttempts) ∨
    (s.state = .check ∧ t.state = .idle ∧ s.attempts.toNat = s.cfg.maxAttempts ∧ t.errcode = .ackNotObtained) ∨
    (s.state = .decode ∧ t.state = .idle ∧ t.errcode ∈ decodeCodes) := by
  obtain ⟨-, rfl⟩ | ⟨hs, hn⟩ | ⟨hs, hn⟩ | ⟨hs, hn⟩ := fctStep_next hn
  · exact absurd rfl hne
  · obtain ⟨f, -, ⟨ho, rfl⟩ | ⟨n, ho, rfl⟩⟩ := sendStep_next hn
    · exact .inl ⟨hs, rfl, ho, rfl, rfl⟩
    · exact .inr (.inl ⟨hs, rfl, ⟨n, ho⟩, rfl⟩)
  · obtain ⟨ha, rfl⟩ | ⟨ha, rfl⟩ := checkStep_next hn
    · exact .inr (.inr (.inl ⟨hs, rfl, ha⟩))
    · exact .inr (.inr (.inr (.inl ⟨hs, rfl, h.attemptsLe.antisymm ha, rfl⟩)))
  · exact .inr (.inr (.inr (.inr ⟨hs, decodeStep_idle hn, decodeStep_errcode hn⟩)))

theorem recvChunk_transition {c0 : Byte} {c : List Byte} (hs : s.state = .recv) (hn : recvChunk c0 c s = .next t)
    (hne : t.state ≠ .recv) :
    (t.state = .decode ∧ t.rxComplete = true ∧ t.ackSeen = true) ∨
    (t.state = .check ∧ t.rxComplete = true ∧ t.ackSeen = false) ∨
    (t.state = .idle ∧ t.errcode = .rxOverflow ∧ s.cfg.cap < s.rxLen.toNat + (c0 :: c).length) := by
  obtain ⟨hover, rfl⟩ | ⟨-, ⟨-, -, rfl⟩ | ⟨-, rfl⟩⟩ := recvChunk_next hn
  · exact .inr (.inr ⟨rfl, rfl, hover⟩)
  · cases ha : (storeChunk s.cfg c0 c s).ackSeen with
    | true => exact .inl ⟨if_pos ha, rfl, ha⟩
    | false => exact .inr (.inl ⟨if_neg (Bool.eq_false_iff.mp ha), rfl, ha⟩)
  · exact absurd hs hne

theorem linkEvent_transition {e : RxEvent} (hn : linkEvent e s = .next t) (hne : t.state ≠ s.state) :
    s.state = .recv ∧
      ((t.state = .decode ∧ (∃ c0 c, e = .rx c0 c) ∧ t.rxComplete = true ∧ t.ackSeen = true) ∨
      (t.state = .check ∧ (∃ c0 c, e = .rx c0 c) ∧ t.rxComplete = true ∧ t.ackSeen = false) ∨
      (t.state = .check ∧ e = .rxTimeout ∧ s.ackSeen = false) ∨
      (t.state = .idle ∧ e = .rxTimeout ∧ s.ackSeen = true ∧ t.errcode = .replyTimeout) ∨
      (t.state = .idle ∧ e = .rxError ∧ t.errcode = .rxIoError) ∨
      (t.state = .idle ∧ t.errcode = .rxOverflow ∧
        ∃ c0 c, e = .rx c0 c ∧ s.cfg.cap < s.rxLen.toNat + (c0 :: c).length)) := by
  obtain ⟨-, rfl⟩ | ⟨hs, hn⟩ := linkEvent_next hn
  · exact absurd rfl hne
  refine ⟨hs, ?_⟩
  obtain ⟨c0, c, he, hn⟩ | ⟨he, ha, rfl⟩ | ⟨he, ha, rfl⟩ | ⟨he, rfl⟩ := hn
  · obtain ⟨ht, hfull, ha⟩ | ⟨ht, hfull, ha⟩ | ⟨ht, hc, hover⟩ := recvChunk_transition hs hn (hs ▸ hne)
    · exact .inl ⟨ht, ⟨c0, c, he⟩, hfull, ha⟩
    · exact .inr (.inl ⟨ht, ⟨c0, c, he⟩, hfull, ha⟩)
    · exact .inr (.inr (.inr (.inr (.inr ⟨ht, hc, c0, c, he, hover⟩))))
  · exact .inr (.inr (.inr (.inl ⟨rfl, he, ha, rfl⟩)))
  · exact .inr (.inr (.inl ⟨rfl, he, ha⟩))
  · exact .inr (.inr (.inr (.inr (.inl ⟨rfl, he, rfl⟩))))

end

/-! ## The obligations -/

/-- Settles O34: the four places an error is raised from, in each of which only what R189 and R280 name has moved. -/
theorem failedTransactionOffersNoReply : Obligations.FailedTransactionOffersNoReply := by
  unfold Obligations.FailedTransactionOffersNoReply
  intro s t _ hb hr hn ht he
  have hfails := step_fails hb hr hn ht he
  rw [takeEvent_snd] at hfails
  obtain ⟨c, u, hfrom, rfl⟩ := hfails
  have herr : (failTransaction c u).err = true := decide_eq_true he
  cases hfrom with
  | same c => exact ⟨rfl, herr, rfl, rfl, rfl, rfl, rfl, rfl, rfl, rfl, fun _ => ⟨rfl, rfl, rfl, rfl⟩,
      fun _ => ⟨rfl, rfl, rfl⟩, fun _ => ⟨rfl, rfl⟩, fun _ _ => rfl, fun _ => id⟩
  | send c f o hs => exact ⟨rfl, herr, rfl, rfl, rfl, rfl, rfl, rfl, rfl, rfl, fun hs' => absurd hs hs',
      fun _ => ⟨rfl, rfl, rfl⟩, fun _ => ⟨rfl, rfl⟩, fun _ _ => rfl, fun _ => id⟩
  | badFrame out hs => exact ⟨rfl, herr, rfl, rfl, rfl, rfl, rfl, rfl, rfl, rfl, fun _ => ⟨rfl, rfl, rfl, rfl⟩,
      fun hs' => absurd hs hs', fun _ => ⟨rfl, rfl⟩, fun _ hc => absurd rfl hc,
      fun _ => Memory.isSome_read_writeRange 0 out⟩
  | mismatch out v hs => exact ⟨rfl, herr, rfl, rfl, rfl, rfl, rfl, rfl, rfl, rfl, fun _ => ⟨rfl, rfl, rfl, rfl⟩,
      fun hs' => absurd hs hs', fun hc => absurd rfl hc, fun hc => absurd rfl hc,
      fun _ => Memory.isSome_read_writeRange 0 out⟩

/-- Settles O35: the transitions of the three agents; their states tell the rows of the table apart. -/
theorem transportTransitions : Obligations.TransportTransitions := by
  unfold Obligations.TransportTransitions
  intro s t h hr hn hne
  rw [step_eq_runEvent] at hn
  have hne' : t.state ≠ (takeEvent s).2.state := by simpa using hne
  generalize nextEvent s = e at *
  cases e with
  | host a =>
    obtain ⟨hs, ht, hb, m, rfl⟩ := hostAccess_transition h.after_takeEvent hn hne'
    exact .inl ⟨takeEvent_state s ▸ hs, ht, hb, m, rfl⟩
  | fct o =>
    have hrow := fctStep_transition h.after_takeEvent hn hne'
    simp only [takeEvent_state, takeEvent_attempts, takeEvent_cfg] at hrow
    obtain ⟨hs, ht, rfl, hrow⟩ | ⟨hs, ht, ⟨n, rfl⟩, hrow⟩ | ⟨hs, ht, hrow⟩ | ⟨hs, ht, hrow⟩ | ⟨hs, ht, hrow⟩ := hrow
    all_goals simp [hs, ht, hrow]
  | link r =>
    have hrow := linkEvent_transition hn hne'
    simp only [takeEvent_state, takeEvent_ackSeen, takeEvent_rxLen, takeEvent_cfg] at hrow
    obtain ⟨hs, ⟨ht, ⟨c0, c, rfl⟩, hrow⟩ | ⟨ht, ⟨c0, c, rfl⟩, hrow⟩ | ⟨ht, rfl, hrow⟩ | ⟨ht, rfl, hrow⟩ |
      ⟨ht, rfl, hrow⟩ | ⟨ht, hc, c0, c, rfl, hrow⟩⟩ := hrow
    case inr.inr.inr.inr.inr => simpa [hs, ht, hc] using hrow
    all_goals simp [hs, ht, hrow]
  | reset => exact absurd rfl hr

end Sys2Proof.Machine
end

section
/-! PROOFS, 43_control.md: the host's writes while idle (R210, R211, R214) and while busy (R212), the dispatch of a CMD write
(R213), CLEAR (R215), and which agent writes what (R218). -/

namespace Sys2Proof.Machine

section
variable {s t : State}

/-! ## The host's writes while idle -/

/-- 43_control.md R210. -/
theorem regWrite_ctrl (v : Word) (hb : s.busy = false) : regWrite 0x00 v s = .next (writeCtrl v s) := whenIdle_idle hb

/-- 43_control.md R211. -/
theorem regWrite_plen (v : Word) (hb : s.busy = false) : regWrite 0x10 v s = .next (writePlen v s) := whenIdle_idle hb

/-- The bits of CTRL (10_state.md R36). -/
theorem getLsbD_ctrlWord (s : State) (k : Nat) :
    (ctrlWord s).getLsbD k = (s.verifyEn && decide (k = 0) || s.rleEn && decide (k = 1) || s.irqEn && decide (k = 2)) := by
  simp only [ctrlWord, BitVec.getLsbD_or, getLsbD_flagAt _ (show 0 < 32 by decide),
    getLsbD_flagAt _ (show 1 < 32 by decide), getLsbD_flagAt _ (show 2 < 32 by decide)]

/-- CTRL reads back the three bits that exist. -/
theorem ctrlWord_writeCtrl (v : Word) (s : State) : ctrlWord (writeCtrl v s) = v &&& 7 := by
  apply BitVec.eq_of_getLsbD_eq
  intro k _
  rw [getLsbD_ctrlWord, BitVec.getLsbD_and]
  match k with
  | 0 => simp
  | 1 => simp
  | 2 => simp
  | k + 3 =>
    have h7 : (7#32).getLsbD (k + 3) = false := BitVec.getLsbD_of_ge 7#3 (k + 3) (by omega)
    simp [h7]

/-! ## A CMD write -/

/-- 43_control.md R213: the command that the word encodes. -/
theorem cmdWrite_command {w : Word} {i : Instr} (s : State) (hi : decodeCmd w = .ok i) : cmdWrite w s = exec i s := by
  simp only [cmdWrite, hi]

theorem decodeCmd_of_decodeTableWord {nbits n : Nat} {i : Instr} (h : decodeTableWord nbits n = some i) :
    decodeCmd (tableWord nbits n) = .ok i := by
  unfold decodeTableWord at h
  split at h
  · cases h; assumption
  · cases h

theorem step_of_pending_command {w : Word} {i : Instr} {rest : List Event}
    (hp : s.pending = .host (.regWrite 0x04 w) :: rest) (hi : decodeCmd w = .ok i) :
    step s = exec i (withPending rest s) :=
  (step_pending hp).trans (cmdWrite_command _ hi)

/-! ## CLEAR -/

/-- 43_control.md R215. -/
theorem execClear_idle (m : Mode) (hb : s.busy = false) : execClear m s = .next (clearFlags s) := whenIdle_idle hb

theorem irq_clearFlags (s : State) : irq (clearFlags s) = false := by simp [irq]

theorem statusWord_clearFlags (hb : s.busy = false) (hs : s.state = .idle) : statusWord (clearFlags s) = 0 := by
  simp [statusWord, flagAt, Phase.code, hb, hs]

/-! ## Who writes what -/

/-- `t` has of `s` what only the host writes: PB, PLEN and the three fields of CTRL (43_control.md R218). -/
def SameHostFields (s t : State) : Prop :=
  t.pb = s.pb ∧ t.plen = s.plen ∧ t.verifyEn = s.verifyEn ∧ t.rleEn = s.rleEn ∧ t.irqEn = s.irqEn

theorem SameHostSide.hostFields (h : SameHostSide s t) : SameHostFields s t :=
  ⟨h.pb, h.plen, h.verifyEn, h.rleEn, h.irqEn⟩

/-- The refusal and CLEAR move HOST_VIOL, and no command moves more of the host's side than that. -/
theorem exec_hostFields {i : Instr} (h : exec i s = .next t) : SameHostFields s t := by
  obtain (⟨-, rfl⟩ | hs) | ⟨-, -, rfl⟩ := exec_hostSide h
  · exact ⟨rfl, rfl, rfl, rfl, rfl⟩
  · exact hs.hostFields
  · exact ⟨rfl, rfl, rfl, rfl, rfl⟩

/-- Of the registers, what a host access other than a CMD write changes shows in CTRL, STATUS and PLEN alone. -/
theorem hostAccess_regReadValue {a : HostAccess} {off : Nat} (ha : ∀ w, a ≠ .regWrite 0x04 w)
    (h : hostAccess a s = .next t) (h0 : off ≠ 0x00) (h8 : off ≠ 0x08) (h10 : off ≠ 0x10) :
    regReadValue off t = regReadValue off s := by
  rw [hostAccess_frame ha h, regReadValue, regReadValue]
  cases hr : regAt off with
  | none => rfl
  | some r =>
    have hoff : off = r.offset := regAt_offset hr
    cases r
    case ctrl => exact absurd hoff h0
    case status => exact absurd hoff h8
    case plen => exact absurd hoff h10
    all_goals rfl

end

/-! ## The obligations -/

/-- Settles O4: the pending write is a CMD write, and CMD writes run the decoded command. -/
theorem stepRunsDecodedCommand : Obligations.StepRunsDecodedCommand := by
  unfold Obligations.StepRunsDecodedCommand
  exact ⟨fun s w i rest => step_of_pending_command, fun s n i hi =>
    step_of_pending_command (s := s.withFetchWord 32 n) rfl (decodeCmd_of_decodeTableWord hi)⟩

/-- Settles O8, by the bits CTRL reads back. -/
theorem ctrlWriteSetsThreeBits : Obligations.CtrlWriteSetsThreeBits := by
  unfold Obligations.CtrlWriteSetsThreeBits
  intro s v hb
  exact ⟨_, regWrite_ctrl v hb, rfl, ctrlWord_writeCtrl v s, rfl⟩

/-- Settles O9, by `regWrite_plen`. -/
theorem plenWriteStoresTheWord : Obligations.PlenWriteStoresTheWord := by
  unfold Obligations.PlenWriteStoresTheWord
  intro s v hb
  exact ⟨_, regWrite_plen v hb, rfl, rfl⟩

/-- Settles O10: the refusals of the two ports and of `exec`, and the reads, which no rule makes wait. -/
theorem busyRefusesHostWrites : Obligations.BusyRefusesHostWrites := by
  unfold Obligations.BusyRefusesHostWrites
  intro s hb
  refine ⟨fun v => regWrite_busy v hb (.inl rfl), fun v => regWrite_busy v hb (.inr (.inr rfl)),
    fun w => regWrite_busy w hb (.inr (.inl rfl)), fun i => exec_busy i hb, fun id i b => bufWrite_refused b (.inl hb),
    fun off v => regWrite_other v s, fun off => ⟨_, rfl, rfl⟩, fun b i v hi hv => ⟨answerRead (zext32 v) s, ?_, rfl⟩⟩
  rw [bufRead_buffer b hi, hv]
  rfl

/-- Settles O11: the one write that is not refused is `Memory.write` at its own index. -/
theorem bufWriteReachesOnlyPayload : Obligations.BufWriteReachesOnlyPayload := by
  unfold Obligations.BufWriteReachesOnlyPayload
  intro s id i b hb
  refine ⟨?_, fun h => bufWrite_refused b (.inr h)⟩
  rintro rfl hi
  exact ⟨_, bufWrite_payload b hb hi, rfl, Memory.read_write_same s.pb i b, fun a => Memory.read_write_other s.pb b⟩

/-- Settles O24: the words by evaluation, CLEAR by whether it is refused. -/
theorem clearCommandResult : Obligations.ClearCommandResult := by
  unfold Obligations.ClearCommandResult
  exact ⟨rfl, rfl, fun m s =>
    ⟨execClear_idle m, rfl, irq_clearFlags s, statusWord_clearFlags, exec_busy (.clear m)⟩⟩

/-- Settles O47: the host's fields agent by agent, and the frame of the host's own accesses. -/
theorem agentsWriteOnlyTheirState : Obligations.AgentsWriteOnlyTheirState := by
  unfold Obligations.AgentsWriteOnlyTheirState
  refine ⟨fun s t i o e h => ?_, fun s t a ha h => ?_⟩
  · obtain h | h | h := h
    · exact exec_hostFields h
    · exact (fctStep_hostSide h).hostFields
    · exact (linkEvent_hostSide h).hostFields
  · have hreg : ∀ off, off ≠ 0x00 → off ≠ 0x08 → off ≠ 0x10 → regReadValue off t = regReadValue off s :=
      fun off => hostAccess_regReadValue ha h
    rw [hostAccess_frame ha h] at hreg ⊢
    exact ⟨rfl, rfl, rfl, rfl, rfl, rfl, rfl, rfl, rfl, rfl, rfl, hreg⟩

end Sys2Proof.Machine
end

section
/-! PROOFS, 60_exceptions.md: the error codes and their classes (R230, R231), the completion record (R233, R234) and the
interrupt output (R240, R241). -/

namespace Sys2Proof.Machine

/-! ## The error classes -/

/-- The value of `ERRCODE[7:4]` that names a class (60_exceptions.md R231). -/
def ErrClass.nibble : ErrClass → Nat
  | .transport => 1
  | .protocol => 2
  | .request => 3

/-- 60_exceptions.md R231. -/
theorem ErrCode.errClass_eq_some_iff (e : ErrCode) (k : ErrClass) :
    e.errClass = some k ↔ e.code.toNat / 16 = k.nibble := by
  unfold ErrCode.errClass
  split
  case h_4 h1 h2 h3 =>
    cases k with
    | transport => exact iff_of_false nofun h1
    | protocol => exact iff_of_false nofun h2
    | request => exact iff_of_false nofun h3
  all_goals cases k <;> simp [ErrClass.nibble, *]

theorem ErrCode.errClass_eq_none_iff (e : ErrCode) : e.errClass = Option.none ↔ e = .none := by cases e <;> decide

/-! ## DONE after a command started while idle -/

section
variable {m : Mode} {s t : State}

theorem encodeCommand_done (hb : s.busy = false) (hn : encodeCommand m s = .next t) : t.done = !t.busy := by
  obtain ⟨hb', -⟩ | ⟨-, -, rfl⟩ | ⟨-, -, b0, bs, -, ⟨-, rfl⟩ | ⟨-, rfl⟩⟩ := encodeCommand_next hn
  · simp [hb] at hb'
  all_goals rfl

theorem decodeCommand_done (hb : s.busy = false) (hn : decodeCommand m s = .next t) : t.done = !t.busy := by
  obtain ⟨hb', -⟩ | ⟨-, -, rfl⟩ | ⟨-, -, w0, rest, -, ⟨e, -, rfl⟩ | ⟨out, -, rfl⟩⟩ := decodeCommand_next hn
  · simp [hb] at hb'
  all_goals rfl

theorem execChecksum_done (hb : s.busy = false) (hn : execChecksum m s = .next t) : t.done = !t.busy := by
  obtain ⟨hb', -⟩ | ⟨-, -, rfl⟩ | ⟨-, -, bs, -, rfl⟩ := execChecksum_next hn
  · simp [hb] at hb'
  all_goals rfl

theorem execVerify_done (hb : s.busy = false) (hn : execVerify m s = .next t) : t.done = !t.busy := by
  obtain ⟨hb', -⟩ | ⟨-, d, -, ⟨-, rfl⟩ | ⟨v, -, ⟨-, rfl⟩ | ⟨-, rfl⟩⟩⟩ := execVerify_next hn
  · simp [hb] at hb'
  all_goals rfl

/-- A failed start completes at once; a transaction in SEND has BUSY = 1 and the DONE that `beginCommand` cleared. -/
theorem startTransaction_done (hb : s.busy = false) (hn : startTransaction m s = .next t) : t.done = !t.busy := by
  obtain ⟨hb', -⟩ | ⟨-, -, rfl⟩ | ⟨-, -, b0, bs, -, ⟨-, rfl⟩ | ⟨-, rfl⟩⟩ := startTransaction_next hn
  · simp [hb] at hb'
  all_goals rfl

/-- A command other than CLEAR, started while idle, has completed or is in progress (60_exceptions.md R233, R234). -/
theorem exec_done {i : Instr} (hi : ∀ m, i ≠ .clear m) (hb : s.busy = false) (hn : exec i s = .next t) :
    t.done = !t.busy := by
  cases i with
  | encodeT => exact encodeCommand_done hb hn
  | encodeB => exact encodeCommand_done hb hn
  | decodeT => exact decodeCommand_done hb hn
  | decodeB => exact decodeCommand_done hb hn
  | checksum m => exact execChecksum_done (m := m) hb hn
  | verify m => exact execVerify_done (m := m) hb hn
  | sendrecvT => exact startTransaction_done hb hn
  | sendrecvB => exact startTransaction_done hb hn
  | clear m => exact absurd rfl (hi m)

/-! ## The interrupt output -/

/-- 60_exceptions.md R240, in the bits the host reads. -/
theorem irq_eq_register_bits (s : State) :
    irq s = ((regReadValue 0x00 s).getLsbD 2 && (regReadValue 0x08 s).getLsbD 1) := by
  have hctrl : regReadValue 0x00 s = ctrlWord s := rfl
  have hstatus : regReadValue 0x08 s = statusWord s := rfl
  rw [hctrl, hstatus, getLsbD_ctrlWord, getLsbD_statusWord]
  simp [irq]

/-- A command other than CLEAR leaves IRQ_EN and decides DONE. -/
theorem exec_irq {i : Instr} (hi : ∀ m, i ≠ .clear m) (hb : s.busy = false) (hn : exec i s = .next t) :
    irq t = (s.irqEn && !t.busy) := by
  obtain ⟨-, -, -, -, hirqEn⟩ := exec_hostFields hn
  rw [irq, hirqEn, exec_done hi hb hn]

theorem exec_clear_idle (m : Mode) (hb : s.busy = false) (hn : exec (.clear m) s = .next t) : t = clearFlags s := by
  have hclear : exec (.clear m) s = .next (clearFlags s) := execClear_idle m hb
  cases hclear.symm.trans hn
  rfl

end

/-! ## The obligations -/

/-- Settles O14: the record updates of the three operations. -/
theorem completionRecord : Obligations.CompletionRecord := by
  unfold Obligations.CompletionRecord
  exact fun s c => ⟨rfl, ⟨finish_busy c s, finish_state c s, finish_done c s, rfl, by simp, rfl⟩, rfl⟩

/-- Settles O15: the fifteen codes by evaluation, the classes by the high nibble. -/
theorem errorCodeTable : Obligations.ErrorCodeTable := by
  unfold Obligations.ErrorCodeTable
  exact ⟨rfl, rfl, rfl, rfl, rfl, rfl, rfl, rfl, rfl, rfl, rfl, rfl, rfl, rfl, rfl, fun e =>
    ⟨e.errClass_eq_some_iff .transport, e.errClass_eq_some_iff .protocol, e.errClass_eq_some_iff .request,
      e.errClass_eq_none_iff⟩⟩

/-- Settles O16: the register bits of R240; CLEAR clears DONE, and every other command leaves DONE = not BUSY. -/
theorem interruptFollowsDone : Obligations.InterruptFollowsDone := by
  unfold Obligations.InterruptFollowsDone
  refine ⟨irq_eq_register_bits, fun i s t hb hn => ⟨fun ht => ?_, ?_, fun hi ht => ?_⟩⟩
  · by_cases hc : ∃ m, i = .clear m
    · obtain ⟨m, rfl⟩ := hc
      rw [exec_clear_idle m hb hn, irq_clearFlags]
    · rw [exec_irq (not_exists.mp hc) hb hn, ht, Bool.not_true, Bool.and_false]
  · rintro m rfl
    rw [exec_clear_idle m hb hn, irq_clearFlags]
  · rw [exec_irq hi hb hn, ht, Bool.not_false, Bool.and_true]

end Sys2Proof.Machine
end

section
/-! PROOFS, 70_reset_and_hazards.md: what RESET sets and keeps (R260 to R263) and what the commands do straight after it
(R265). -/

namespace Sys2Proof.Machine

/-! ## What the ports read after RESET -/

theorem ctrlWord_platformReset (s : State) : ctrlWord (platformReset s) = 1 := by simp [ctrlWord, flagAt]

theorem statusWord_platformReset (s : State) : statusWord (platformReset s) = 0 := by
  simp [statusWord, flagAt, Phase.code]

/-- 10_state.md R62: every register but CTRL, CAPREG and MAXATT has reset value 0. -/
theorem readReg_platformReset {r : Reg} (s : State) (hctrl : r ≠ .ctrl) (hcap : r ≠ .capreg) (hmax : r ≠ .maxatt) :
    readReg r (platformReset s) = 0 := by
  cases r
  case ctrl => exact absurd rfl hctrl
  case capreg => exact absurd rfl hcap
  case maxatt => exact absurd rfl hmax
  case status => exact statusWord_platformReset s
  all_goals rfl

theorem regReadValue_platformReset {off : Nat} (s : State) (hctrl : off ≠ 0x00) (hcap : off ≠ 0x38)
    (hmax : off ≠ 0x3C) : regReadValue off (platformReset s) = 0 := by
  rw [regReadValue]
  cases hr : regAt off with
  | none => rfl
  | some r =>
    obtain rfl := regAt_offset hr
    exact readReg_platformReset s (fun h => hctrl (h ▸ rfl)) (fun h => hcap (h ▸ rfl)) (fun h => hmax (h ▸ rfl))

theorem read_buffer_platformReset (b : BufId) (s : State) (a : Nat) :
    Memory.read (buffer b (platformReset s)) a = none := by cases b <;> rfl

/-! ## The commands straight after reset -/

section
variable (p : Params) (m : Mode)

theorem read_buffer_resetWith (b : BufId) (i : Nat) : Memory.read (buffer b (State.resetWith p)) i = none :=
  read_buffer_platformReset b (State.resetWith p) i

/-- PLEN is 0 after reset, so the length check of 40_codec.md R121 fails whatever CAP is. -/
theorem not_goodLength_resetWith : ¬goodLength (State.resetWith p) := fun h => h.1 rfl

/-- 70_reset_and_hazards.md R265: the commands with a length check complete with BAD_LENGTH and send nothing. -/
theorem exec_resetWith_badLength {i : Instr} (hi : i ∈ [encodeOf m, decodeOf m, .checksum m, sendrecvOf m]) :
    ∃ t, exec i (State.resetWith p) = .next t ∧ t.done = true ∧ t.errcode = .badLength ∧ t.txLog = [] := by
  have hlen := not_goodLength_resetWith p
  simp only [List.mem_cons, List.not_mem_nil, or_false] at hi
  obtain rfl | rfl | rfl | rfl := hi
  · exact ⟨_, (exec_encodeOf m _).trans (encodeCommand_badLength m rfl hlen), rfl, rfl, rfl⟩
  · exact ⟨_, (exec_decodeOf m _).trans (decodeCommand_badLength m rfl hlen), rfl, rfl, rfl⟩
  · exact ⟨_, execChecksum_badLength m rfl hlen, rfl, rfl, rfl⟩
  · exact ⟨_, (exec_sendrecvOf m _).trans (startTransaction_badLength m rfl hlen), rfl, rfl, rfl⟩

/-- No byte has been decoded, and the empty string has no view. -/
theorem execVerify_resetWith :
    execVerify m (State.resetWith p) = .next (finish .badFrame (clearView (beginCommand (State.resetWith p)))) :=
  execVerify_noView m (d := []) rfl rfl rfl

/-- What CLEAR clears has its reset value already. -/
theorem execClear_resetWith : execClear m (State.resetWith p) = .next (State.resetWith p) := execClear_idle m rfl

end

/-! ## The obligations -/

/-- Settles O41: `inv_resetWith`, of which power-on is the case of the default parameters. -/
theorem resetEstablishesInvariant : Obligations.ResetEstablishesInvariant := by
  unfold Obligations.ResetEstablishesInvariant
  exact ⟨inv_resetWith default_params_wf, fun p => inv_resetWith⟩

/-- Settles O48: the ports read the reset values, and in IDLE the Link's events are discarded. -/
theorem resetAbandonsEverything : Obligations.ResetAbandonsEverything := by
  unfold Obligations.ResetAbandonsEverything
  intro s
  have hidle : (platformReset s).state ≠ .recv := nofun
  exact ⟨platformReset s, rfl, rfl, rfl, rfl, rfl, rfl, fun b => read_buffer_platformReset b s,
    fun e => linkEvent_discarded e hidle, ctrlWord_platformReset s, rfl, rfl, fun off => regReadValue_platformReset s⟩

/-- Settles O49: PLEN is 0 and nothing is written, so each command takes its first failure. -/
theorem commandsRightAfterReset : Obligations.CommandsRightAfterReset := by
  unfold Obligations.CommandsRightAfterReset
  intro p _
  refine ⟨fun m i => exec_resetWith_badLength p m, fun m => ⟨_, execVerify_resetWith p m, rfl, rfl⟩,
    execClear_resetWith p, fun w r hw => ?_, fun b i hi => ?_⟩
  · have hres : ¬∃ i, decodeCmd w = .ok i := by simp [hw]
    exact ⟨_, cmdWrite_reserved hres rfl, rfl, rfl⟩
  · rw [bufRead_buffer b hi, read_buffer_resetWith]
    rfl

/-- Settles O59: the fields `platformReset` passes on. -/
theorem resetKeepsTheEnvironment : Obligations.ResetKeepsTheEnvironment := by
  unfold Obligations.ResetKeepsTheEnvironment
  exact fun s => ⟨platformReset s, rfl, platformReset_txLog s, platformReset_pending s, platformReset_draws s,
    platformReset_readData s⟩

end Sys2Proof.Machine
end
